-- ==== Sys2Proof/Word.lean ====
section
/-! DEFINITION. The word types of MH3BF: a byte and the u64 of `00_scope.md` rule R8. BitVec arithmetic wraps
modulo 2^64, as rule R9 asks. -/

namespace Sys2Proof

/-- One byte of the key buffer or of the bit array. -/
abbrev Byte := BitVec 8

/-- A u64: every register and every hash word (`00_scope.md` rules R6 and R8). -/
abbrev Word := BitVec 64

end Sys2Proof
end

