-- ==== Sys2Proof/Syntax.lean ====
section
/-! DEFINITION. The commands of MH3BF (`30_encoding.md` rules R90 to R95), the register names of `10_state.md`
rule R21 and the host-program notation of `30_encoding.md` rules R98 and R99. -/

namespace Sys2Proof

/-- The six commands, one constructor for each row of the opcode map (`30_encoding.md` rule R93). -/
inductive Instr where
  /-- OP 0x01: the Murmur3 x64-128 digest of the key under SEED (rule R140). -/
  | hash128
  /-- OP 0x02: `count` derived values of the key; `count` is the CNT field (rules R91 and R141). -/
  | derive (count : Nat)
  /-- OP 0x03: a new, empty filter from the CFG registers (rules R175 and R176). -/
  | configure
  /-- OP 0x04: inserts the key into the active filter (rule R178). -/
  | add
  /-- OP 0x05: asks whether the key might be in the active filter (rule R179). -/
  | test
  /-- OP 0x06: drops the filter (rule R177). -/
  | release
deriving DecidableEq, Repr

/-- The registers of the register window, in the order of their offsets (`10_state.md` rule R21). -/
inductive Reg where
  | id | param | maxBits | mult | cmd | status | irqEn | seed
  | keyLen | h1 | h2 | dcount | result | errInfo
  | cfgN | cfgM | cfgK | cfgP
  | n | m | k | p | nbytes | inserted
deriving DecidableEq, Repr

/-- The legal access widths (`20_memory.md` rule R65): `st.b`, `st.h`, `st.w`, `st.d` (`30_encoding.md` rule R98). -/
inductive Width where
  | b | h | w | d
deriving DecidableEq, Repr

/-- One line of a host program: a bus access of `30_encoding.md` rule R98 or a pseudo-instruction of rule R99.
A label and a comment make no access. The name an `ld` writes is a host variable, which is not block state. -/
inductive HostOp where
  /-- `st.d REG, imm64` -/
  | stReg (r : Reg) (imm : Nat)
  /-- `st.b KEY+j, imm` and its wider forms -/
  | stKey (width : Width) (j : Nat) (imm : Nat)
  /-- `ld.d REG -> name` -/
  | ldReg (r : Reg)
  /-- `ld.d DVAL+i -> name` -/
  | ldDval (i : Nat)
  /-- `ld.b BITS+b -> name` and its wider forms -/
  | ldBits (width : Width) (b : Nat)
  /-- `cmd OPNAME` and `cmd DERIVE, c` -/
  | cmd (i : Instr)
  /-- `key "text"` and `key bytes(...)`: the bytes the host stages -/
  | key (bytes : List Byte)
  /-- `wait`: where a command still runs, `polls` reads of STATUS that show BUSY = 1; then one that shows BUSY = 0 -/
  | wait (polls : Nat)
  /-- `clrdone` -/
  | clrDone
  /-- `clrall` -/
  | clrAll
  /-- `config n, m, k, pbits` -/
  | config (n m k pbits : Nat)
deriving DecidableEq, Repr

end Sys2Proof
end

