-- ==== Sys2Proof/WellFormed.lean ====
section
/-! DEFINITION. Which terms of the syntax the notation and the encoding admit. -/

namespace Sys2Proof

/-- The number of bytes of an access width. -/
def Width.bytes : Width → Nat
  | .b => 1
  | .h => 2
  | .w => 4
  | .d => 8

/-- A command's fields fit its word: CNT is an unsigned value 0 to 255 (`30_encoding.md` rule R91). A count above
`K_MAX` is a legal encoding. -/
def Instr.wellFormed : Instr → Bool
  | .hash128 => true
  | .derive count => count ≤ 255
  | .configure => true
  | .add => true
  | .test => true
  | .release => true

/-- A host-program line is written with values that fit its access (`30_encoding.md` rules R98 and R99). -/
def HostOp.wellFormed : HostOp → Bool
  | .stReg _ imm => imm < 2 ^ 64
  | .stKey width _ imm => imm < 2 ^ (8 * width.bytes)
  | .ldReg _ => true
  | .ldDval _ => true
  | .ldBits _ _ => true
  | .cmd i => i.wellFormed
  | .key bytes => bytes.length < 2 ^ 64
  | .wait _ => true
  | .clrDone => true
  | .clrAll => true
  | .config n m k pbits => n < 2 ^ 64 && m < 2 ^ 64 && k < 2 ^ 64 && pbits < 2 ^ 64

end Sys2Proof
end

