-- ==== Sys2Proof/Decode.lean ====
section
/-! DEFINITION. The command word (`30_encoding.md` rules R90 to R96): the decoder, total on every 64-bit word, the
encoder written from the same table, and the machine-readable opcode table both answer to. -/

namespace Sys2Proof

/-- OP, bits 7:0 of a command word (rule R90). -/
def opField (w : Word) : Byte := w.extractLsb' 0 8

/-- CNT, bits 15:8 of a command word (rule R90). -/
def cntField (w : Word) : Byte := w.extractLsb' 8 8

/-- RSV, bits 63:16 of a command word, which must be 0 (rule R90). -/
def rsvField (w : Word) : BitVec 48 := w.extractLsb' 16 48

/-- A command other than DERIVE, which must have CNT = 0 (rule R92). -/
def withoutCount (cnt : Byte) (i : Instr) : Option Instr :=
  if cnt = 0 then some i else none

/-- The decoder of rule R92. `none` is ILLEGAL (rule R94). -/
def decode (w : Word) : Option Instr :=
  if rsvField w ≠ 0 then none
  else if opField w = 0x01 then withoutCount (cntField w) .hash128
  else if opField w = 0x02 then some (.derive (cntField w).toNat)
  else if opField w = 0x03 then withoutCount (cntField w) .configure
  else if opField w = 0x04 then withoutCount (cntField w) .add
  else if opField w = 0x05 then withoutCount (cntField w) .test
  else if opField w = 0x06 then withoutCount (cntField w) .release
  else none

/-- The opcode of a command (rule R93). -/
def Instr.opcode : Instr → Byte
  | .hash128 => 0x01
  | .derive _ => 0x02
  | .configure => 0x03
  | .add => 0x04
  | .test => 0x05
  | .release => 0x06

/-- The count a command carries in CNT: 0 for every command but DERIVE (rule R90). -/
def Instr.count : Instr → Nat
  | .hash128 => 0
  | .derive count => count
  | .configure => 0
  | .add => 0
  | .test => 0
  | .release => 0

/-- The word of a command: RSV = 0, then CNT, then OP (rule R90). -/
def encode (i : Instr) : Word := 0#48 ++ BitVec.ofNat 8 i.count ++ i.opcode

/-- The mnemonic of a command in the opcode table. -/
def Instr.mnemonic : Instr → String
  | .hash128 => "HASH128"
  | .derive _ => "DERIVE"
  | .configure => "CONFIGURE"
  | .add => "ADD"
  | .test => "TEST"
  | .release => "RELEASE"

/-- A row of `opcode_table.json`: a word is the row's when its bits under `mask` are `pattern`. -/
structure OpcodeRow where
  mnemonic : String
  mask : Word
  pattern : Word
deriving DecidableEq, Repr

/-- The rows of `opcode_table.json`. -/
def opcodeTable : List OpcodeRow :=
  [ ⟨"HASH128", 0xFFFFFFFFFFFFFFFF, 0x01⟩,
    ⟨"DERIVE", 0xFFFFFFFFFFFF00FF, 0x02⟩,
    ⟨"CONFIGURE", 0xFFFFFFFFFFFFFFFF, 0x03⟩,
    ⟨"ADD", 0xFFFFFFFFFFFFFFFF, 0x04⟩,
    ⟨"TEST", 0xFFFFFFFFFFFFFFFF, 0x05⟩,
    ⟨"RELEASE", 0xFFFFFFFFFFFFFFFF, 0x06⟩ ]

/-- The command in a word of `nbits` bits, every bit above them 0. A command word has 64 bits (rule R96), so a
longer one is no command. -/
def decodeTableWord (nbits w : Nat) : Option Instr :=
  if nbits ≤ 64 ∧ w < 2 ^ nbits then decode (BitVec.ofNat 64 w) else none

end Sys2Proof
end

