-- ==== Sys2Proof/Config.lean ====
section
/-! DEFINITION. What a build of the block fixes (`00_scope.md` rule R6) and the free values, which no proof can see. -/

namespace Sys2Proof.Config

/-- The implementation parameters of `00_scope.md` rule R6 that the block or its platform uses. A machine carries
its own build, so that a claim about every state is a claim about every build (assumption log 1). -/
structure Build where
  /-- `K_MAX`: the largest hash count and the largest DERIVE count. -/
  kMax : Nat
  /-- `KEY_MAX`: the capacity of the key buffer in bytes. -/
  keyMax : Nat
  /-- `MAX_BITS`: the largest bit count of a filter. -/
  maxBits : Nat
  /-- `DERIVE_MULT`: the multiplier of DeriveHashes. -/
  deriveMult : Word
  /-- `REG_BASE`: the host address of the register window. -/
  regBase : Nat
  /-- `BITS_BASE`: the host address of the bit-array window. -/
  bitsBase : Nat
deriving DecidableEq, Repr

/-- FREE VALUE: the upper 63 bits of `DERIVE_MULT`, which is OPEN but odd (rule R7; assumption log 3). -/
opaque freeMultHigh : BitVec 63

/-- FREE VALUE: which REG_SIZE slot of the host's address space holds the register window (assumption log 4). -/
opaque freeRegSlot : Nat

/-- FREE VALUE: which BITS_SIZE slot of the host's address space holds the bit-array window (assumption log 4). -/
opaque freeBitsSlot : Nat

/-- FREE VALUE: the `draw()` of `00_scope.md` rule R10, the n-th value drawn (assumption log 9). -/
opaque freeDraw : Nat → Word

/-- FREE VALUE: the contents of BITARRAY after the reset at which the n-th value is drawn (assumption log 5). -/
opaque freeBits : Nat → List (Nat × Byte)

end Sys2Proof.Config
end

