-- ==== Sys2Proof/Machine/Windows.lean ====
section
/-! DEFINITION. The block's two windows (`20_memory.md` rule R60) and the build that `State.reset` takes. -/

namespace Sys2Proof.Machine

open Config (Build)

/-- The smallest power of two that is at least `x`. -/
def powerOfTwoAtLeast (x : Nat) : Nat :=
  if x ≤ 1 then 1 else 2 ^ (Nat.log2 (x - 1) + 1)

/-- Offset of KEYBUF in the register window (`10_state.md` rule R21). -/
abbrev keyBufOffset : Nat := 0x1000

/-- Offset of DVAL in the register window (`10_state.md` rule R21). -/
abbrev dvalOffset : Nat := 0x100

/-- Offset of the reserved range that follows the registers (`10_state.md` rule R21). -/
abbrev reservedOffset : Nat := 0x0C0

/-- `REG_SIZE` (rule R60). -/
def regSize (b : Build) : Nat := powerOfTwoAtLeast (keyBufOffset + b.keyMax)

/-- `ceil_div(x, 8)`: the bytes that `x` bits take (`00_scope.md` rule R9). -/
def ceilDiv8 (x : Nat) : Nat := (x + 7) / 8

/-- The bytes BITARRAY has storage for (`10_state.md` rule R48). -/
def bitArrayBytes (b : Build) : Nat := ceilDiv8 b.maxBits

/-- `BITS_SIZE` (rule R60). -/
def bitsSize (b : Build) : Nat := powerOfTwoAtLeast (bitArrayBytes b)

/-- Two address ranges share no address. -/
abbrev disjointRanges (base₁ size₁ base₂ size₂ : Nat) : Prop :=
  base₁ + size₁ ≤ base₂ ∨ base₂ + size₂ ≤ base₁

/-- A build whose parameters are legal (`00_scope.md` rules R6 and R7, `20_memory.md` rule R60). -/
abbrev legalBuild (b : Build) : Prop :=
  (1 ≤ b.kMax ∧ b.kMax ≤ 480) ∧ (1 ≤ b.keyMax ∧ b.keyMax < 2 ^ 32) ∧ (1 ≤ b.maxBits ∧ b.maxBits ≤ 2 ^ 63) ∧
    b.deriveMult.getLsbD 0 = true ∧ regSize b ∣ b.regBase ∧ (bitsSize b ∣ b.bitsBase ∧ 8 ∣ b.bitsBase) ∧
    disjointRanges b.regBase (regSize b) b.bitsBase (bitsSize b)

/-- The build with the spec's defaults (rule R6) and a free odd multiplier (assumption log 3), its windows not placed. -/
def unplacedBuild : Build where
  kMax := 64
  keyMax := 4096
  maxBits := 2 ^ 33
  deriveMult := Config.freeMultHigh ++ 1#1
  regBase := 0
  bitsBase := 0

/-- Places the windows of a build in the slots given: each at a multiple of its size, and the bit-array window moved
up past the register window where the two slots would overlap (assumption log 4). -/
def placeWindows (b : Build) (regSlot bitsSlot : Nat) : Build :=
  let reg := regSlot * regSize b
  let bits := bitsSlot * bitsSize b
  { b with
    regBase := reg
    bitsBase :=
      if disjointRanges reg (regSize b) bits (bitsSize b) then bits else bits + max (regSize b) (bitsSize b) }

/-- The build of `State.reset`: the spec's defaults, with the OPEN parameters free (rule R6). -/
def resetBuild : Build := placeWindows unplacedBuild Config.freeRegSlot Config.freeBitsSlot

end Sys2Proof.Machine
end

