-- ==== Sys2Proof/Machine/State.lean ====
section
/-! DEFINITION. The state of MH3BF as plain data (`10_state.md` rule R20), the reasons a step can stop, and the
state right after reset (`70_reset_and_hazards.md` rule R261). -/

namespace Sys2Proof.Machine

/-- The error codes of STATUS.ERR (`60_exceptions.md` rule R221). Codes 6 to 255 are never produced. -/
inductive ErrCode where
  /-- 0: the command succeeded -/
  | ok
  /-- 1, ERR_CONFIG: a staged parameter is invalid -/
  | config
  /-- 2, ERR_INDEX: a bit index outside the array; unreachable -/
  | index
  /-- 3, ERR_STATE: no filter exists -/
  | state
  /-- 4, ERR_ARG: a key or a count beyond its bound -/
  | arg
  /-- 5, ERR_OPCODE: an ILLEGAL word -/
  | opcode
deriving DecidableEq, Repr

/-- The fields of STATUS (`10_state.md` rule R27). The reserved bits read 0 and hold nothing. `active` is the filter
state ACTIVE or NONE (rule R49), and `busy` the sequencer's (rule R51). -/
structure Status where
  busy : Bool
  done : Bool
  wbusy : Bool
  active : Bool
  err : ErrCode
  lastOp : Byte
deriving DecidableEq, Repr

/-- The bits of RESULT (`10_state.md` rule R34). -/
structure Result where
  found : Bool
  isNew : Bool
deriving DecidableEq, Repr

/-- Bytes by address: strictly rising addresses, no entry 0, which is what an unlisted address reads as
(`Memory.wf`). KEYBUF and BITARRAY are each one. -/
abbrev Memory := List Host.Cell

/-- One bus access of a host (`20_memory.md` rules R66 and R67): an address, a width in bytes, and for a write the
value, whose low `8 * width` bits are written. DESIGN CHOICE (assumption log 18): that no host uses a cached,
speculative, merging or reordering mapping is assumed (rule R83), and such an access has no form here. -/
inductive Access where
  | read (addr width : Nat)
  | write (addr width : Nat) (value : Word)
deriving DecidableEq, Repr

/-- What happens next to the block (`70_reset_and_hazards.md` rules R266 and R273; assumption log 7). -/
inductive Event where
  /-- the access of a host arrives at the bus port (`20_memory.md` rule R78) -/
  | access (host : Nat) (a : Access)
  /-- the engine has its turn: it completes the running command, if there is one (rule R266) -/
  | engine
  /-- RST rises, with the access in progress that it abandons, if any (rules R260 to R262) -/
  | reset (inFlight : Option (Nat × Access))
deriving DecidableEq, Repr

/-- What the bus port answered to a host's access (assumption log 8). A `width`-byte read answers an
`8 * width`-bit value, held zero-extended. -/
inductive Response where
  | readData (host width : Nat) (value : Word)
  | writeDone (host : Nat)
deriving DecidableEq, Repr

/-- Everything the spec gives the machine (`10_state.md` rule R20), and three fields of the model's own: `schedule`,
`response` and `draws`. -/
structure State where
  /-- the build's parameters, which PARAM, MAXBITS and MULT show (rules R23 to R25; assumption log 1) -/
  build : Config.Build
  /-- STATUS (rule R27) -/
  status : Status
  /-- IRQEN bit 0, IE (rule R28) -/
  irqEnable : Bool
  /-- SEED bits 31:0 (rule R29) -/
  seed : BitVec 32
  /-- KEYLEN (rule R30) -/
  keyLen : Word
  /-- H1 (rule R31) -/
  h1 : Word
  /-- H2 (rule R32) -/
  h2 : Word
  /-- DCOUNT (rule R33) -/
  dcount : Word
  /-- RESULT (rule R34) -/
  result : Result
  /-- ERRINFO (rule R35) -/
  errInfo : Word
  /-- CFG_N (rule R36) -/
  cfgN : Word
  /-- CFG_M (rule R37) -/
  cfgM : Word
  /-- CFG_K (rule R38) -/
  cfgK : Word
  /-- CFG_P (rule R39) -/
  cfgP : Word
  /-- N (rule R40) -/
  n : Word
  /-- M (rule R41) -/
  m : Word
  /-- K (rule R42) -/
  k : Word
  /-- P (rule R43) -/
  p : Word
  /-- NBYTES (rule R44) -/
  nbytes : Word
  /-- INSERTED (rule R45) -/
  inserted : Word
  /-- DVAL, entry 0 first (rule R46) -/
  dval : List Word
  /-- KEYBUF (rule R47) -/
  keyBuf : Memory
  /-- BITARRAY (rule R48) -/
  bits : Memory
  /-- LATCH (rule R51) -/
  latch : Word
  /-- the events to come, the next one first (assumption log 7) -/
  schedule : List Event
  /-- the answer to the last completed access (assumption log 8) -/
  response : Option Response
  /-- how many values `draw()` has given (assumption log 9) -/
  draws : Nat
deriving DecidableEq, Repr

/-- Why the machine stops with a fault. -/
inductive Fault where
  /-- BUSERR: raised by a host access that `20_memory.md` rules R68 or R69 reject, a fault of the issuing host
  (`60_exceptions.md` rule R228; assumption log 10). Safe: a faulted run is never a finished run (R274). -/
  | busError (host : Nat) (a : Access)
deriving DecidableEq, Repr

/-- Why the model gives no meaning. -/
inductive Refusal where
  /-- Raised by an arm of `exec` whose instruction has no meaning yet: none has it. Safe. -/
  | notModelled (mnemonic : String)
  /-- Raised by an access to an address outside both windows, which is not the block's and to which no rule of the
  spec applies (`20_memory.md` rule R60; assumption log 11). Safe. -/
  | outsideWindows (host : Nat) (a : Access)
deriving DecidableEq, Repr

/-- The reset state of a block of the given build (`70_reset_and_hazards.md` rule R261). BITARRAY and LATCH, which
rule R261 leaves unspecified, are given here (assumption logs 5 and 6). -/
def State.resetOf (b : Config.Build) : State where
  build := b
  status :=
    { busy := false
      done := false
      wbusy := false
      active := false
      err := .ok
      lastOp := 0 }
  irqEnable := false
  seed := 0
  keyLen := 0
  h1 := 0
  h2 := 0
  dcount := 0
  result := { found := false, isNew := false }
  errInfo := 0
  cfgN := 0
  cfgM := 0
  cfgK := 0
  cfgP := 0
  n := 0
  m := 0
  k := 0
  p := 0
  nbytes := 0
  inserted := 0
  dval := List.replicate b.kMax 0
  keyBuf := []
  bits := []
  latch := 0
  schedule := []
  response := none
  draws := 0

/-- The machine right after reset (rule R261), in the build of the spec's defaults. -/
def State.reset : State := State.resetOf resetBuild

end Sys2Proof.Machine
end

