-- ==== Sys2Proof/Machine/Flags.lean ====
section
/-! DEFINITION. The words that STATUS, RESULT and the constant registers show, and the interrupt output. -/

namespace Sys2Proof.Machine

/-- The number of an error code in STATUS.ERR (`60_exceptions.md` rule R221). -/
def ErrCode.code : ErrCode → Byte
  | .ok => 0
  | .config => 1
  | .index => 2
  | .state => 3
  | .arg => 4
  | .opcode => 5

/-- The value STATUS reads as (`10_state.md` rule R27), the most significant field first. -/
def Status.word (x : Status) : Word :=
  0#40 ++ x.lastOp ++ x.err.code ++ 0#4 ++ BitVec.ofBool x.active ++ BitVec.ofBool x.wbusy ++
    BitVec.ofBool x.done ++ BitVec.ofBool x.busy

/-- A W1C write of `v` to STATUS: bit 1 clears DONE, bit 2 clears WBUSY, every other bit is ignored (rule R27). -/
def Status.writeOneToClear (x : Status) (v : Word) : Status :=
  { x with
    done := x.done && !v.getLsbD 1
    wbusy := x.wbusy && !v.getLsbD 2 }

/-- The value RESULT reads as (`10_state.md` rule R34). -/
def Result.word (x : Result) : Word := 0#62 ++ BitVec.ofBool x.isNew ++ BitVec.ofBool x.found

/-- The value of ID (`10_state.md` rule R22). -/
def idWord : Word := 0x000000014642334D

/-- The value of PARAM (`10_state.md` rule R23). -/
def paramWord (b : Config.Build) : Word := 0#16 ++ BitVec.ofNat 32 b.keyMax ++ BitVec.ofNat 16 b.kMax

/-- The interrupt output IRQ, a level (`60_exceptions.md` rule R229). -/
def irq (s : State) : Bool := s.status.done && s.irqEnable

end Sys2Proof.Machine
end

