-- ==== Sys2Proof/Machine/Ops.lean ====
section
/-! DEFINITION. The named operations over memory and registers: bytes of KEYBUF and BITARRAY, the value a register
reads as, the free values, and the completion of a command, which is this block's nearest thing to taking an
exception (`60_exceptions.md` rules R222 and R232). -/

namespace Sys2Proof.Machine

/-! ### Bytes -/

/-- The byte at `x`; an unlisted byte reads as 0 (`10_state.md` rule R47; assumption log 5 for BITARRAY). -/
def Memory.read : Memory → Nat → Byte
  | [], _ => 0
  | (a, b) :: rest, x => if x < a then 0 else if x = a then b else Memory.read rest x

/-- A cell in front of a memory, left out where it holds what an unlisted byte reads as. -/
def Memory.cons (x : Nat) (v : Byte) (mem : Memory) : Memory :=
  if v = 0 then mem else (x, v) :: mem

/-- Stores a byte at `x`, keeping the canonical form. -/
def Memory.write : Memory → Nat → Byte → Memory
  | [], x, v => Memory.cons x v []
  | (a, b) :: rest, x, v =>
    if x < a then Memory.cons x v ((a, b) :: rest)
    else if x = a then Memory.cons x v rest
    else (a, b) :: Memory.write rest x v

/-- The canonical form: addresses strictly rising, and no entry equal to what an unlisted address reads as. -/
abbrev Memory.wf (mem : Memory) : Prop :=
  mem.Pairwise (fun c d => c.1 < d.1) ∧ ∀ c ∈ mem, c.2 ≠ 0

/-- Every listed byte lies below `size`. -/
abbrev Memory.within (size : Nat) (mem : Memory) : Prop := ∀ c ∈ mem, c.1 < size

/-- Sets the bytes `0 .. size-1` to 0 and leaves every other byte (`41_bloom_filter.md` rule R176). -/
def Memory.zeroBelow (size : Nat) (mem : Memory) : Memory := mem.filter (fun c => size ≤ c.1)

/-- The memory that a list of cells describes, of the bytes below `size`, later cells over earlier ones. -/
def Memory.ofCells (size : Nat) (cells : List Host.Cell) : Memory :=
  (cells.filter (fun c => c.1 < size)).foldl (fun mem c => mem.write c.1 c.2) []

/-- The sum of `20_memory.md` rule R62: `width` bytes, byte `t` in bits `8t+7 : 8t`. The one place where the byte
order is decided for reads, and for the words the hash takes (`40_hash_engine.md` rule R125). -/
def leSum (byte : Nat → Byte) : Nat → Word
  | 0 => 0
  | t + 1 => leSum byte t + (byte t).setWidth 64 <<< (8 * t)

/-- Byte `t` of a value (`20_memory.md` rule R67). -/
def leByte (v : Word) (t : Nat) : Byte := v.extractLsb' (8 * t) 8

/-- The value of `width` bytes from `x` on. -/
def Memory.readWide (mem : Memory) (x width : Nat) : Word := leSum (fun t => mem.read (x + t)) width

/-- Stores the low `width` bytes of a value from `x` on (rules R62 and R67). -/
def Memory.writeWide (mem : Memory) (x : Nat) (v : Word) : Nat → Memory
  | 0 => mem
  | t + 1 => (Memory.writeWide mem x v t).write (x + t) (leByte v t)

/-- `BitGet` (`41_bloom_filter.md` rule R170). -/
def bitGet (mem : Memory) (x : Nat) : Bool := (mem.read (x >>> 3)).getLsbD (x % 8)

/-- `BitSet` (`41_bloom_filter.md` rule R170). -/
def bitSet (mem : Memory) (x : Nat) : Memory :=
  mem.write (x >>> 3) (mem.read (x >>> 3) ||| 1#8 <<< (x % 8))

/-! ### Registers -/

/-- The value a register reads as while nothing about it is drawn (`10_state.md` rules R22 to R45). -/
def regRead (s : State) : Reg → Word
  | .id => idWord
  | .param => paramWord s.build
  | .maxBits => BitVec.ofNat 64 s.build.maxBits
  | .mult => s.build.deriveMult
  | .cmd => 0
  | .status => s.status.word
  | .irqEn => (BitVec.ofBool s.irqEnable).setWidth 64
  | .seed => s.seed.setWidth 64
  | .keyLen => s.keyLen
  | .h1 => s.h1
  | .h2 => s.h2
  | .dcount => s.dcount
  | .result => s.result.word
  | .errInfo => s.errInfo
  | .cfgN => s.cfgN
  | .cfgM => s.cfgM
  | .cfgK => s.cfgK
  | .cfgP => s.cfgP
  | .n => s.n
  | .m => s.m
  | .k => s.k
  | .p => s.p
  | .nbytes => s.nbytes
  | .inserted => s.inserted

/-- The low `width` bytes of a word: an access of `width` bytes carries an `8 * width`-bit value (rule R66). -/
def lowBytes (width : Nat) (v : Word) : Word := (v.setWidth (8 * width)).setWidth 64

/-- Ends a read with its value (`20_memory.md` rule R66; assumption log 8). -/
def respond (host width : Nat) (v : Word) (s : State) : State :=
  { s with response := some (.readData host width v) }

/-- Ends a read with `draw()` (`20_memory.md` rule R71; assumption log 9). -/
def respondDraw (host width : Nat) (s : State) : State :=
  { s with
    response := some (.readData host width (lowBytes width (Config.freeDraw s.draws)))
    draws := s.draws + 1 }

/-- Ends a write (assumption log 8). -/
def acknowledge (host : Nat) (s : State) : State := { s with response := some (.writeDone host) }

/-- Discards a write because BUSY = 1: WBUSY is all it changes (`20_memory.md` rule R73). -/
def discardWrite (s : State) : State := { s with status := { s.status with wbusy := true } }

/-- Accepts a command word (`20_memory.md` rule R72). -/
def acceptCommand (w : Word) (s : State) : State :=
  { s with latch := w, status := { s.status with busy := true } }

/-! ### The end of a command -/

/-- `ClearKey` (`40_hash_engine.md` rule R138). -/
def clearKey (s : State) : State := { s with keyBuf := [], keyLen := 0 }

/-- `Complete` (`60_exceptions.md` rule R222). -/
def complete (op : Byte) (code : ErrCode) (info : Word) (s : State) : State :=
  { s with
    status := { s.status with err := code, lastOp := op, done := true, busy := false }
    errInfo := info }

/-- `raise Err` (`60_exceptions.md` rule R222). Every write of the command before it is undone but for ClearKey, so
`entry` is the state the command began in, with the key cleared where the command's pseudocode clears it. `op` is the
command's opcode, which is bits 7:0 of its word (assumption log 13). -/
def raiseErr (op : Byte) (code : ErrCode) (info : Word) (entry : State) : State := complete op code info entry

/-- The completion of an ILLEGAL word (`30_encoding.md` rule R94). -/
def completeIllegal (s : State) : State := complete (opField s.latch) .opcode s.latch s

end Sys2Proof.Machine
end

