-- ==== Sys2Proof/Machine/Operands.lean ====
section
/-! DEFINITION. The operands of the commands, which are registers of fixed name (`30_encoding.md` rule R90), and the
register map (`10_state.md` rule R21). -/

namespace Sys2Proof.Machine

/-! ### Commands -/

/-- The key of a command, `KEYBUF[0 .. KEYLEN)` (`10_state.md` rule R47). -/
def keyBytes (s : State) : List Byte := (List.range s.keyLen.toNat).map s.keyBuf.read

/-- KEYLEN is above KEY_MAX (`60_exceptions.md` rule R224, check 4). -/
def keyTooLong (s : State) : Bool := s.build.keyMax < s.keyLen.toNat

/-- The reason CONFIGURE rejects the staged parameters, the first that fails (`41_bloom_filter.md` rule R175). -/
def configReason (s : State) : Option Word :=
  if s.cfgN = 0 then some 1
  else if s.cfgP < 0x0000000000000001 ∨ 0x3FEFFFFFFFFFFFFF < s.cfgP then some 2
  else if s.cfgM = 0 then some 3
  else if s.build.maxBits < s.cfgM.toNat then some 4
  else if s.cfgK = 0 ∨ s.build.kMax < s.cfgK.toNat then some 5
  else none

end Sys2Proof.Machine

/-! ### Registers -/

namespace Sys2Proof

/-- The offset of a register in the register window (`10_state.md` rule R21). -/
def Reg.offset : Reg → Nat
  | .id => 0x000
  | .param => 0x008
  | .maxBits => 0x010
  | .mult => 0x018
  | .cmd => 0x020
  | .status => 0x028
  | .irqEn => 0x030
  | .seed => 0x038
  | .keyLen => 0x040
  | .h1 => 0x048
  | .h2 => 0x050
  | .dcount => 0x058
  | .result => 0x060
  | .errInfo => 0x068
  | .cfgN => 0x070
  | .cfgM => 0x078
  | .cfgK => 0x080
  | .cfgP => 0x088
  | .n => 0x090
  | .m => 0x098
  | .k => 0x0A0
  | .p => 0x0A8
  | .nbytes => 0x0B0
  | .inserted => 0x0B8

/-- `REGMAP`: the register at an offset (`20_memory.md` rule R66). -/
def Reg.ofOffset : Nat → Option Reg
  | 0x000 => some .id
  | 0x008 => some .param
  | 0x010 => some .maxBits
  | 0x018 => some .mult
  | 0x020 => some .cmd
  | 0x028 => some .status
  | 0x030 => some .irqEn
  | 0x038 => some .seed
  | 0x040 => some .keyLen
  | 0x048 => some .h1
  | 0x050 => some .h2
  | 0x058 => some .dcount
  | 0x060 => some .result
  | 0x068 => some .errInfo
  | 0x070 => some .cfgN
  | 0x078 => some .cfgM
  | 0x080 => some .cfgK
  | 0x088 => some .cfgP
  | 0x090 => some .n
  | 0x098 => some .m
  | 0x0A0 => some .k
  | 0x0A8 => some .p
  | 0x0B0 => some .nbytes
  | 0x0B8 => some .inserted
  | _ => none

/-- The registers whose reads are drawn while BUSY = 1 (`BUSY_DRAW`, `20_memory.md` rule R66). -/
def Reg.busyDraw : Reg → Bool
  | .keyLen | .h1 | .h2 | .dcount | .result | .errInfo | .n | .m | .k | .p | .nbytes | .inserted => true
  | .id | .param | .maxBits | .mult | .cmd | .status | .irqEn | .seed | .cfgN | .cfgM | .cfgK | .cfgP => false

/-- The registers that a write gives BUSERR on (`20_memory.md` rule R68). -/
def Reg.readOnly : Reg → Bool
  | .id | .param | .maxBits | .mult | .h1 | .h2 | .dcount | .result | .errInfo => true
  | .n | .m | .k | .p | .nbytes | .inserted => true
  | .cmd | .status | .irqEn | .seed | .keyLen | .cfgN | .cfgM | .cfgK | .cfgP => false

end Sys2Proof
end

