-- ==== Sys2Proof/Machine/Bus.lean ====
section
/-! DEFINITION. A host's access to the block's windows: `MemRead` and `MemWrite` (`20_memory.md` rules R66 and R67),
each check in the order the rules give. -/

namespace Sys2Proof.Machine

/-- An access is `width` bytes wide at an offset that is a multiple of 8 (`20_memory.md` rule R64). -/
abbrev wordAccess (o width : Nat) : Prop := width = 8 ∧ o % 8 = 0

/-- An access is 1, 2, 4 or 8 bytes wide at a multiple of its width (`20_memory.md` rule R65). -/
abbrev byteAccess (o width : Nat) : Prop :=
  (width = 1 ∨ width = 2 ∨ width = 4 ∨ width = 8) ∧ o % width = 0

/-- An address lies in the window of the given base and size (`20_memory.md` rule R60). -/
abbrev inWindow (base size addr : Nat) : Prop := base ≤ addr ∧ addr < base + size

/-- The outcome of an access the block rejects (`60_exceptions.md` rule R228; assumption log 10). -/
def busError (host : Nat) (a : Access) : Host.Outcome State Fault Refusal := .fault (.busError host a)

/-- Ends a read of a location that is drawn while BUSY = 1 (`20_memory.md` rule R71). -/
def answerUnlessBusy (host width : Nat) (v : Word) (s : State) : Host.Outcome State Fault Refusal :=
  if s.status.busy then .next (respondDraw host width s) else .next (respond host width v s)

/-- A read of the register at offset `o` (`20_memory.md` rule R66). -/
def readRegister (host addr width o : Nat) (s : State) : Host.Outcome State Fault Refusal :=
  if wordAccess o width then
    match Reg.ofOffset o with
    | some r =>
      if r.busyDraw then answerUnlessBusy host width (regRead s r) s
      else .next (respond host width (regRead s r) s)
    | none => busError host (.read addr width)
  else busError host (.read addr width)

/-- A read of the DVAL range at offset `o` (`20_memory.md` rule R66). -/
def readDval (host addr width o : Nat) (s : State) : Host.Outcome State Fault Refusal :=
  if wordAccess o width ∧ (o - dvalOffset) / 8 < s.build.kMax then
    answerUnlessBusy host width (s.dval.getD ((o - dvalOffset) / 8) 0) s
  else busError host (.read addr width)

/-- A read of the key buffer at offset `o` (`20_memory.md` rule R66). -/
def readKeyBuf (host addr width o : Nat) (s : State) : Host.Outcome State Fault Refusal :=
  if byteAccess o width ∧ o - keyBufOffset + width ≤ s.build.keyMax then
    answerUnlessBusy host width (s.keyBuf.readWide (o - keyBufOffset) width) s
  else busError host (.read addr width)

/-- A read of the register window at offset `o` (`20_memory.md` rule R66). -/
def readRegWindow (host addr width o : Nat) (s : State) : Host.Outcome State Fault Refusal :=
  if o < reservedOffset then readRegister host addr width o s
  else if o < dvalOffset then busError host (.read addr width)
  else if o < keyBufOffset then readDval host addr width o s
  else readKeyBuf host addr width o s

/-- A read of the bit-array window at offset `o`: the filter that stands before the running command completes decides
what is visible (`20_memory.md` rule R66). -/
def readBitsWindow (host addr width o : Nat) (s : State) : Host.Outcome State Fault Refusal :=
  if byteAccess o width ∧ s.status.active = true ∧ o + width ≤ s.nbytes.toNat then
    answerUnlessBusy host width (s.bits.readWide o width) s
  else busError host (.read addr width)

/-- `MemRead` (`20_memory.md` rule R66). -/
def memRead (host addr width : Nat) (s : State) : Host.Outcome State Fault Refusal :=
  if inWindow s.build.regBase (regSize s.build) addr then
    readRegWindow host addr width (addr - s.build.regBase) s
  else if inWindow s.build.bitsBase (bitsSize s.build) addr then
    readBitsWindow host addr width (addr - s.build.bitsBase) s
  else .refused (.outsideWindows host (.read addr width))

/-- The effect of a write that BUSY = 1 discards (`20_memory.md` rule R73), and otherwise of the write itself. -/
def storeUnlessBusy (host : Nat) (store : State → State) (s : State) : Host.Outcome State Fault Refusal :=
  if s.status.busy then .next (acknowledge host (discardWrite s)) else .next (acknowledge host (store s))

/-- A write of `v` to a register (`20_memory.md` rule R67). -/
def regWrite (host addr width : Nat) (v : Word) (r : Reg) (s : State) : Host.Outcome State Fault Refusal :=
  match r with
  | .status => .next (acknowledge host { s with status := s.status.writeOneToClear v })
  | .irqEn => .next (acknowledge host { s with irqEnable := v.getLsbD 0 })
  | .cmd => storeUnlessBusy host (acceptCommand v) s
  | .seed => storeUnlessBusy host (fun s => { s with seed := v.setWidth 32 }) s
  | .keyLen => storeUnlessBusy host (fun s => { s with keyLen := v }) s
  | .cfgN => storeUnlessBusy host (fun s => { s with cfgN := v }) s
  | .cfgM => storeUnlessBusy host (fun s => { s with cfgM := v }) s
  | .cfgK => storeUnlessBusy host (fun s => { s with cfgK := v }) s
  | .cfgP => storeUnlessBusy host (fun s => { s with cfgP := v }) s
  | .id | .param | .maxBits | .mult | .h1 | .h2 | .dcount | .result | .errInfo
  | .n | .m | .k | .p | .nbytes | .inserted => busError host (.write addr width v)

/-- A write to the register at offset `o` (`20_memory.md` rule R67). -/
def writeRegister (host addr width : Nat) (v : Word) (o : Nat) (s : State) : Host.Outcome State Fault Refusal :=
  if wordAccess o width then
    match Reg.ofOffset o with
    | some r => regWrite host addr width v r s
    | none => busError host (.write addr width v)
  else busError host (.write addr width v)

/-- A write to the key buffer at offset `o` (`20_memory.md` rule R67). -/
def writeKeyBuf (host addr width : Nat) (v : Word) (o : Nat) (s : State) : Host.Outcome State Fault Refusal :=
  if byteAccess o width ∧ o - keyBufOffset + width ≤ s.build.keyMax then
    storeUnlessBusy host (fun s => { s with keyBuf := s.keyBuf.writeWide (o - keyBufOffset) v width }) s
  else busError host (.write addr width v)

/-- A write to the register window at offset `o` (`20_memory.md` rule R67). -/
def writeRegWindow (host addr width : Nat) (v : Word) (o : Nat) (s : State) : Host.Outcome State Fault Refusal :=
  if o < reservedOffset then writeRegister host addr width v o s
  else if o < keyBufOffset then busError host (.write addr width v)
  else writeKeyBuf host addr width v o s

/-- `MemWrite` (`20_memory.md` rule R67). -/
def memWrite (host addr width : Nat) (v : Word) (s : State) : Host.Outcome State Fault Refusal :=
  if inWindow s.build.regBase (regSize s.build) addr then
    writeRegWindow host addr width v (addr - s.build.regBase) s
  else if inWindow s.build.bitsBase (bitsSize s.build) addr then busError host (.write addr width v)
  else .refused (.outsideWindows host (.write addr width v))

/-- One access of a host at the bus port (`20_memory.md` rules R75 and R78). -/
def busAccess (host : Nat) (a : Access) (s : State) : Host.Outcome State Fault Refusal :=
  match a with
  | .read addr width => memRead host addr width s
  | .write addr width v => memWrite host addr width v s

end Sys2Proof.Machine
end

