-- ==== Sys2Proof/Machine/HashEngine.lean ====
section
/-! DEFINITION. The hash engine: Murmur3 x64-128, DeriveHashes, and the meanings of HASH128 and DERIVE
(`40_hash_engine.md`). Its constants are the spec's (rules R120 and R121). -/

namespace Sys2Proof.Machine

/-- `rotl64` (`00_scope.md` rule R9). -/
def rotl64 (x : Word) (r : Nat) : Word := (x <<< r) ||| (x >>> (64 - r))

/-- C1 (rule R120). -/
def mulC1 : Word := 0x87c37b91114253d5

/-- C2 (rule R120). -/
def mulC2 : Word := 0x4cf5ad432745937f

/-- `MixK1` (rule R122). -/
def mixK1 (k : Word) : Word := rotl64 (k * mulC1) 31 * mulC2

/-- `MixK2` (rule R123). -/
def mixK2 (k : Word) : Word := rotl64 (k * mulC2) 33 * mulC1

/-- `FMix64` (rule R128). -/
def fmix64 (k₀ : Word) : Word :=
  let k₁ := k₀ ^^^ (k₀ >>> 33)
  let k₂ := k₁ * 0xff51afd7ed558ccd
  let k₃ := k₂ ^^^ (k₂ >>> 33)
  let k₄ := k₃ * 0xc4ceb9fe1a85ec53
  k₄ ^^^ (k₄ >>> 33)

/-- The accumulators, and the digest `(h1, h2)` they end as (rule R131). -/
structure HashPair where
  h1 : Word
  h2 : Word
deriving DecidableEq, Repr

/-- The accumulators at the start (rule R124). -/
def hashInit (seed : BitVec 32) : HashPair where
  h1 := seed.setWidth 64
  h2 := seed.setWidth 64

/-- The steps of one 16-byte block, interleaved as rule R125 orders them (`90_conflicts.md` C3). -/
def blockStep (h : HashPair) (k1 k2 : Word) : HashPair :=
  let h1 := (rotl64 (h.h1 ^^^ mixK1 k1) 27 + h.h2) * 5 + 0x52dce729
  let h2 := (rotl64 (h.h2 ^^^ mixK2 k2) 31 + h1) * 5 + 0x38495ab5
  { h1 := h1, h2 := h2 }

/-- The little-endian word of `count` bytes of `data` from `first` on (rules R125 and R126). -/
def dataWord (data : List Byte) (first count : Nat) : Word := leSum (fun t => data.getD (first + t) 0) count

/-- The body: every whole 16-byte block, in increasing address order (rule R125). -/
def hashBody (data : List Byte) (h : HashPair) : HashPair :=
  (List.range (data.length / 16)).foldl
    (fun h b => blockStep h (dataWord data (16 * b) 8) (dataWord data (16 * b + 8) 8)) h

/-- The tail: the last `len mod 16` bytes, `k2` before `k1` (rule R126). -/
def hashTail (data : List Byte) (h : HashPair) : HashPair :=
  let first := 16 * (data.length / 16)
  let r := data.length % 16
  { h1 := if 0 < r then h.h1 ^^^ mixK1 (dataWord data first (min r 8)) else h.h1
    h2 := if 8 < r then h.h2 ^^^ mixK2 (dataWord data (first + 8) (r - 8)) else h.h2 }

/-- Finalisation with the full length in bytes (rule R127). -/
def hashFinish (len : Word) (h : HashPair) : HashPair :=
  let a1 := h.h1 ^^^ len
  let a2 := h.h2 ^^^ len
  let b1 := a1 + a2
  let b2 := a2 + b1
  let c1 := fmix64 b1
  let c2 := fmix64 b2
  let d1 := c1 + c2
  { h1 := d1, h2 := c2 + d1 }

/-- `CreateHash` (rule R129). -/
def createHash (data : List Byte) (seed : BitVec 32) : HashPair :=
  hashFinish (BitVec.ofNat 64 data.length) (hashTail data (hashBody data (hashInit seed)))

/-- Derived value `i` of a digest (rule R135), as the bits of an s64 (rule R137). -/
def derivedValue (mult : Word) (h : HashPair) (i : Nat) : Word :=
  fmix64 (h.h1 + BitVec.ofNat 64 i) ^^^ fmix64 (h.h2 + BitVec.ofNat 64 i * mult)

/-- `DeriveHashes` (rules R135 and R136): the seed is always 0. -/
def deriveHashes (mult : Word) (key : List Byte) (count : Nat) : List Word :=
  if key = [] ∨ count = 0 then []
  else (List.range count).map (derivedValue mult (createHash key 0))

/-- The completion of HASH128 (rule R140). -/
def hash128Completion (s : State) : State :=
  if keyTooLong s then raiseErr 0x01 .arg 1 (clearKey s)
  else
    let h := createHash (keyBytes s) s.seed
    complete 0x01 .ok 0 (clearKey { s with h1 := h.h1, h2 := h.h2 })

/-- HASH128 (rule R140). -/
def execHash128 (s : State) : Host.Outcome State Fault Refusal := .next (hash128Completion s)

/-- The completion of DERIVE with count `c` (rule R141). -/
def deriveCompletion (c : Nat) (s : State) : State :=
  if s.build.kMax < c then raiseErr 0x02 .arg 2 (clearKey s)
  else if keyTooLong s then raiseErr 0x02 .arg 1 (clearKey s)
  else
    let v := deriveHashes s.build.deriveMult (keyBytes s) c
    complete 0x02 .ok 0
      (clearKey { s with dval := v ++ List.replicate (s.build.kMax - v.length) 0, dcount := BitVec.ofNat 64 v.length })

/-- DERIVE (rule R141). -/
def execDerive (c : Nat) (s : State) : Host.Outcome State Fault Refusal := .next (deriveCompletion c s)

end Sys2Proof.Machine
end

