-- ==== Sys2Proof/Machine/BloomFilter.lean ====
section
/-! DEFINITION. The filter controller: indexing, and the meanings of CONFIGURE, RELEASE, ADD and TEST
(`41_bloom_filter.md`). -/

namespace Sys2Proof.Machine

/-- `BitIndex`: the non-negative residue of a derived value, read as an s64, modulo `m` (rule R171). -/
def bitIndex (v m : Word) : Nat := (v.toInt % (m.toNat : Int)).toNat

/-- The positions of the key under the active filter (rule R173). -/
def positions (s : State) : List Nat :=
  (deriveHashes s.build.deriveMult (keyBytes s) s.k.toNat).map (fun v => bitIndex v s.m)

/-- The check before each bit access fails (rule R172). -/
def indexBad (s : State) (x : Nat) : Bool := s.m.toNat ≤ x || s.nbytes.toNat ≤ x >>> 3

/-- The loop of ADD (rule R178) over the positions: the bits with each one set and whether one was newly set, or the
first position that fails the check. -/
def setPositions (bad : Nat → Bool) : List Nat → Memory → Bool → Except Nat (Memory × Bool)
  | [], bits, new => .ok (bits, new)
  | x :: rest, bits, new =>
    if bad x then .error x else setPositions bad rest (bitSet bits x) (new || !bitGet bits x)

/-- The loop of TEST (rule R179) over the positions: whether every bit is set, with its short-circuit, or the first
position that fails the check. -/
def testPositions (bad : Nat → Bool) (bits : Memory) : List Nat → Except Nat Bool
  | [] => .ok true
  | x :: rest => if bad x then .error x else if bitGet bits x then testPositions bad bits rest else .ok false

/-- INSERTED after an ADD, saturating (rules R178 and R182). -/
def insertedAfter (new : Bool) (inserted : Word) : Word :=
  if new = true ∧ inserted < 0xFFFFFFFFFFFFFFFF then inserted + 1 else inserted

/-- The completion of CONFIGURE (rule R176). -/
def configureCompletion (s : State) : State :=
  match configReason s with
  | some reason => raiseErr 0x03 .config reason s
  | none =>
    complete 0x03 .ok 0
      { s with
        n := s.cfgN
        m := s.cfgM
        k := s.cfgK
        p := s.cfgP
        nbytes := BitVec.ofNat 64 (ceilDiv8 s.cfgM.toNat)
        bits := s.bits.zeroBelow (ceilDiv8 s.cfgM.toNat)
        inserted := 0
        status := { s.status with active := true } }

/-- CONFIGURE (rule R176). -/
def execConfigure (s : State) : Host.Outcome State Fault Refusal := .next (configureCompletion s)

/-- The completion of RELEASE (rule R177). -/
def releaseCompletion (s : State) : State :=
  complete 0x06 .ok 0
    { s with
      n := 0
      m := 0
      k := 0
      p := 0
      nbytes := 0
      inserted := 0
      status := { s.status with active := false } }

/-- RELEASE (rule R177). -/
def execRelease (s : State) : Host.Outcome State Fault Refusal := .next (releaseCompletion s)

/-- The completion of ADD (rule R178). -/
def addCompletion (s : State) : State :=
  if s.status.active = false then raiseErr 0x04 .state 0 (clearKey s)
  else if keyTooLong s then raiseErr 0x04 .arg 1 (clearKey s)
  else
    match setPositions (indexBad s) (positions s) s.bits false with
    | .error x => raiseErr 0x04 .index (BitVec.ofNat 64 x) (clearKey s)
    | .ok (bits, new) =>
      complete 0x04 .ok 0
        (clearKey
          { s with
            bits := bits
            inserted := insertedAfter new s.inserted
            result := { found := false, isNew := new } })

/-- ADD (rule R178). -/
def execAdd (s : State) : Host.Outcome State Fault Refusal := .next (addCompletion s)

/-- The completion of TEST (rule R179). -/
def testCompletion (s : State) : State :=
  if s.status.active = false then raiseErr 0x05 .state 0 (clearKey s)
  else if keyTooLong s then raiseErr 0x05 .arg 1 (clearKey s)
  else
    match testPositions (indexBad s) s.bits (positions s) with
    | .error x => raiseErr 0x05 .index (BitVec.ofNat 64 x) (clearKey s)
    | .ok found => complete 0x05 .ok 0 (clearKey { s with result := { found := found, isNew := false } })

/-- TEST (rule R179). -/
def execTest (s : State) : Host.Outcome State Fault Refusal := .next (testCompletion s)

end Sys2Proof.Machine
end

