-- ==== Sys2Proof/Machine/Dispatch.lean ====
section
/-! DEFINITION. One arm per command (`30_encoding.md` rule R93). -/

namespace Sys2Proof.Machine

/-- The completion step of a decoded command (`70_reset_and_hazards.md` rule R266). -/
def exec (i : Instr) (s : State) : Host.Outcome State Fault Refusal :=
  match i with
  | .hash128 => Sys2Proof.Machine.execHash128 s
  | .derive c => Sys2Proof.Machine.execDerive c s
  | .configure => Sys2Proof.Machine.execConfigure s
  | .add => Sys2Proof.Machine.execAdd s
  | .test => Sys2Proof.Machine.execTest s
  | .release => Sys2Proof.Machine.execRelease s

end Sys2Proof.Machine
end

