-- ==== Sys2Proof/Machine/Engine.lean ====
section
/-! DEFINITION. The agents' transitions: the engine's completion (`70_reset_and_hazards.md` rule R266) and the reset
(rules R260 to R262). -/

namespace Sys2Proof.Machine

/-- The completion of the latched word: decode, then the command, or ILLEGAL (rules R92, R94 and R266). -/
def completeLatched (s : State) : Host.Outcome State Fault Refusal :=
  match decode s.latch with
  | some i => exec i s
  | none => .next (completeIllegal s)

/-- The engine's turn: it completes the running command while BUSY = 1, and has nothing to do otherwise
(rules R263 and R266). -/
def engineTurn (s : State) : Host.Outcome State Fault Refusal :=
  if s.status.busy then completeLatched s else .next s

/-- What a host gets back for the access that a reset abandons: a read returns `draw()` (rule R262; assumption log 14). -/
def abandonedResponse (draw : Word) : Option (Nat × Access) → Option Response
  | some (host, .read _ width) => some (.readData host width (lowBytes width draw))
  | some (_, .write _ _ _) => none
  | none => none

/-- RST (rules R260 to R262): the reset state of the same build. The events to come and the count of draws, which are
the model's own, go on. BITARRAY and LATCH become free values (assumption logs 5 and 6). -/
def resetBlock (inFlight : Option (Nat × Access)) (s : State) : State :=
  { State.resetOf s.build with
    bits := Memory.ofCells (bitArrayBytes s.build) (Config.freeBits s.draws)
    latch := Config.freeDraw s.draws
    schedule := s.schedule
    response := abandonedResponse (Config.freeDraw (s.draws + 1)) inFlight
    draws := s.draws + 2 }

/-- One event of the schedule. -/
def handleEvent (e : Event) (s : State) : Host.Outcome State Fault Refusal :=
  match e with
  | .access host a => busAccess host a s
  | .engine => engineTurn s
  | .reset inFlight => .next (resetBlock inFlight s)

/-- The schedule that gives the engine the very next step: with no event to come, it has it already. -/
def engineNext : List Event → List Event
  | [] => []
  | e :: rest => .engine :: e :: rest

/-- A block whose next step completes the command word `w`: the word latched, BUSY set, and the engine's turn next
(assumption log 15). -/
def latchWord (w : Word) (s : State) : State :=
  { s with
    latch := w
    status := { s.status with busy := true }
    schedule := engineNext s.schedule }

end Sys2Proof.Machine
end

