-- ==== Sys2Proof/Machine/Step.lean ====
section
/-! DEFINITION. One step of the block: the next event of the schedule, and the engine's turn when no event is to come
(assumption log 7). -/

namespace Sys2Proof.Machine

/-- One step. With an empty schedule the block waits for a host, and a running command completes
(`70_reset_and_hazards.md` rules R263 and R267). -/
def step (s : State) : Host.Outcome State Fault Refusal :=
  match s.schedule with
  | [] => engineTurn s
  | e :: rest => handleEvent e { s with schedule := rest }

/-- `s` with the command word `w` where the next step runs it. The bits above `nbits` are 0 (assumption log 15). -/
def State.withFetchWord (s : State) (nbits w : Nat) : State := latchWord (BitVec.ofNat 64 (w % 2 ^ nbits)) s

end Sys2Proof.Machine
end

