-- ==== Sys2Proof/Machine/HostProgram.lean ====
section
/-! DEFINITION. Host programs as events (`30_encoding.md` rules R98 and R99; assumption logs 15 and 16). -/

namespace Sys2Proof.Machine

open Config (Build)

/-- The access `st.d REG, imm64`. -/
def stReg (b : Build) (r : Reg) (v : Word) : Access := .write (b.regBase + r.offset) 8 v

/-- The access `st.b KEY+j, imm` and its wider forms. -/
def stKey (b : Build) (width : Width) (j : Nat) (v : Word) : Access := .write (b.regBase + keyBufOffset + j) width.bytes v

/-- The access `ld.d REG -> name`. -/
def ldReg (b : Build) (r : Reg) : Access := .read (b.regBase + r.offset) 8

/-- The access `ld.d DVAL+i -> name`. -/
def ldDval (b : Build) (i : Nat) : Access := .read (b.regBase + dvalOffset + 8 * i) 8

/-- The access `ld.b BITS+j -> name` and its wider forms. -/
def ldBits (b : Build) (width : Width) (j : Nat) : Access := .read (b.bitsBase + j) width.bytes

/-- One `st.b` for each byte of a key, from KEYBUF byte `j` on (rule R99). -/
def stKeyBytes (b : Build) : Nat → List Byte → List Access
  | _, [] => []
  | j, x :: rest => stKey b .b j (x.setWidth 64) :: stKeyBytes b (j + 1) rest

/-- What a host program does at the bus port: it makes one access, or it polls STATUS until BUSY = 0. -/
inductive HostMove where
  | access (a : Access)
  | wait (polls : Nat)
deriving DecidableEq, Repr

/-- The moves of one line (rules R98 and R99). -/
def lineMoves (b : Build) : HostOp → List HostMove
  | .stReg r imm => [.access (stReg b r (BitVec.ofNat 64 imm))]
  | .stKey width j imm => [.access (stKey b width j (BitVec.ofNat 64 imm))]
  | .ldReg r => [.access (ldReg b r)]
  | .ldDval i => [.access (ldDval b i)]
  | .ldBits width j => [.access (ldBits b width j)]
  | .cmd i => [.access (stReg b .cmd (encode i))]
  | .key bytes => (stKeyBytes b 0 bytes ++ [stReg b .keyLen (BitVec.ofNat 64 bytes.length)]).map .access
  | .wait polls => [.wait polls]
  | .clrDone => [.access (stReg b .status 0x2)]
  | .clrAll => [.access (stReg b .status 0x6)]
  | .config n m k pbits =>
    [ stReg b .cfgN (BitVec.ofNat 64 n), stReg b .cfgM (BitVec.ofNat 64 m), stReg b .cfgK (BitVec.ofNat 64 k),
      stReg b .cfgP (BitVec.ofNat 64 pbits), stReg b .cmd (encode .configure) ].map .access

/-- The moves of a host program, line after line. -/
def programMoves (b : Build) (program : List HostOp) : List HostMove := (program.map (lineMoves b)).flatten

/-- An access is a write of CMD, after which a command runs, this one or the one before it. -/
def writesCmd (b : Build) : Access → Bool
  | .read _ _ => false
  | .write addr width _ => addr = b.regBase + Reg.cmd.offset && width = 8

/-- The events of a `wait`: while a command runs, polls that show BUSY = 1 and then its completion; then the poll that
shows BUSY = 0 (rule R99). -/
def waitEvents (b : Build) (host polls : Nat) (running : Bool) : List Event :=
  (if running then List.replicate polls (.access host (ldReg b .status)) ++ [.engine] else []) ++
    [.access host (ldReg b .status)]

/-- The events of a host's moves. Rule R267 of `70_reset_and_hazards.md` leaves open when a completion falls, so
`turns` says of each move whether the engine has its turn before it; a `wait` also brings the turn that ends it.
`running` says whether a command runs before the first move (DESIGN CHOICE, assumption log 16). -/
def moveEvents (b : Build) (host : Nat) : (running : Bool) → (turns : List Bool) → List HostMove → List Event
  | _, _, [] => []
  | running, turns, .access a :: rest =>
    (if turns.headD false then [.engine] else []) ++
      .access host a :: moveEvents b host ((running && !turns.headD false) || writesCmd b a) turns.tail rest
  | running, turns, .wait polls :: rest =>
    (if turns.headD false then [.engine] else []) ++
      (waitEvents b host polls (running && !turns.headD false) ++ moveEvents b host false turns.tail rest)

/-- A state in which a host program is about to run, alone on the bus. Every list `turns` is one way its completions
can fall among its accesses (DESIGN CHOICE, assumption log 16). With other hosts, the schedule is any interleaving of
the hosts' events (assumption log 7). -/
def State.launch (s : State) (host : Nat) (program : List HostOp) (turns : List Bool) : State :=
  { s with schedule := moveEvents s.build host s.status.busy turns (programMoves s.build program) }

end Sys2Proof.Machine
end

