-- ==== Sys2Proof/Safety.lean ====
section
/-! DEFINITION. The terms claims use: the invariants of `10_state.md` rule R53, the life of a filter
(`41_bloom_filter.md` rule R183), what a host can observe, the end of a run and its launch premises
(`70_reset_and_hazards.md` rules R274 and R275). -/

namespace Sys2Proof.Machine

/-! ### Invariants -/

/-- A binary64 pattern that CONFIGURE accepts as `p` (`41_bloom_filter.md` rule R175). -/
abbrev legalP (p : Word) : Prop := 0x0000000000000001 ≤ p ∧ p ≤ 0x3FEFFFFFFFFFFFFF

/-- The invariants of `10_state.md` rules R49 and R53, with the form of the model's own data. -/
structure Inv (s : State) : Prop where
  build_legal : legalBuild s.build
  keyBuf_wf : s.keyBuf.wf
  keyBuf_within : s.keyBuf.within s.build.keyMax
  bits_wf : s.bits.wf
  bits_within : s.bits.within (bitArrayBytes s.build)
  dval_length : s.dval.length = s.build.kMax
  nbytes_eq : s.nbytes.toNat = ceilDiv8 s.m.toNat
  active_iff : s.status.active = true ↔ 1 ≤ s.m.toNat
  active_n : s.status.active = true → 1 ≤ s.n.toNat
  active_m : s.status.active = true → s.m.toNat ≤ s.build.maxBits
  active_k : s.status.active = true → 1 ≤ s.k.toNat ∧ s.k.toNat ≤ s.build.kMax
  active_p : s.status.active = true → legalP s.p
  none_zero : s.status.active = false → s.n = 0 ∧ s.m = 0 ∧ s.k = 0 ∧ s.p = 0 ∧ s.nbytes = 0 ∧ s.inserted = 0
  bits_beyond : ∀ x, s.m.toNat ≤ x → x < 8 * s.nbytes.toNat → bitGet s.bits x = false
  dcount_le : s.dcount.toNat ≤ s.build.kMax
  dval_beyond : ∀ i, s.dcount.toNat ≤ i → s.dval.getD i 0 = 0

/-! ### What a command or an access leaves (frames) -/

/-- Every register but the ones named reads as before. -/
def regsKept (except : List Reg) (s t : State) : Prop := ∀ r, r ∉ except → regRead t r = regRead s r

/-- Every byte of KEYBUF reads as before. -/
def keyBufKept (s t : State) : Prop := ∀ j, t.keyBuf.read j = s.keyBuf.read j

/-- Every byte of BITARRAY reads as before. -/
def bitsKept (s t : State) : Prop := ∀ b, t.bits.read b = s.bits.read b

/-- Every entry of DVAL reads as before. -/
def dvalKept (s t : State) : Prop := ∀ i, t.dval.getD i 0 = s.dval.getD i 0

/-- The build, LATCH and the events to come are as before. -/
def blockKept (s t : State) : Prop := t.build = s.build ∧ t.latch = s.latch ∧ t.schedule = s.schedule

/-- The bus port answered nothing and nothing was drawn. -/
def portKept (s t : State) : Prop := t.response = s.response ∧ t.draws = s.draws

/-- The key buffer and KEYLEN are cleared (`40_hash_engine.md` rule R138). -/
def keyCleared (t : State) : Prop := t.keyLen = 0 ∧ ∀ j, t.keyBuf.read j = 0

/-- STATUS and ERRINFO after a completion (`60_exceptions.md` rule R222): `active` is what it leaves in ACTIVE. -/
def completed (op : Byte) (code : ErrCode) (info : Word) (active : Bool) (s t : State) : Prop :=
  t.status =
      { busy := false
        done := true
        wbusy := s.status.wbusy
        active := active
        err := code
        lastOp := op } ∧
    t.errInfo = info

/-- The commands that consume the key (`40_hash_engine.md` rule R138). -/
def consumesKey (i : Instr) : Prop := i = .hash128 ∨ (∃ c, i = .derive c) ∨ i = .add ∨ i = .test

/-- The value of an IEEE 754 binary64 pattern: sign bit 63, exponent bits 62:52 with bias 1023, fraction bits 51:0;
`none` for an infinity or a NaN (`41_bloom_filter.md` rule R175; the format is IEEE 754's, log 17). -/
def binary64Value (p : Word) : Option ℚ :=
  let exponent := (p.extractLsb' 52 11).toNat
  let fraction : ℚ := (p.extractLsb' 0 52).toNat / 2 ^ 52
  let magnitude : ℚ :=
    if exponent = 0 then fraction * 2 ^ (-1022 : ℤ) else (1 + fraction) * 2 ^ ((exponent : ℤ) - 1023)
  if exponent = 2047 then none else some (if p.getLsbD 63 then -magnitude else magnitude)

/-! ### The windows -/

/-- `size` is the smallest power of two that is at least `x` (`20_memory.md` rule R60). -/
def smallestPowerOfTwo (x size : Nat) : Prop := (∃ e, size = 2 ^ e) ∧ x ≤ size ∧ ∀ e, x ≤ 2 ^ e → size ≤ 2 ^ e

/-! ### What a step does -/

/-- The state whose event has been taken off the schedule. -/
def afterEvent (s : State) : State := { s with schedule := s.schedule.tail }

/-- The event the next step handles: the engine's turn where none is scheduled (assumption log 7). -/
def nextEvent (s : State) : Event :=
  match s.schedule with
  | [] => .engine
  | e :: _ => e

/-- The next step completes the running command. -/
def completesNext (s : State) : Prop := nextEvent s = .engine ∧ s.status.busy = true

/-- The next step completes the command `i`. -/
def completesInstr (s : State) (i : Instr) : Prop := completesNext s ∧ decode s.latch = some i

/-- The next step is a reset. -/
def resetsNext (s : State) : Prop := ∃ inFlight, nextEvent s = .reset inFlight

/-- The next step is a write of `v` to the register `r`. -/
def writesReg (s : State) (r : Reg) (v : Word) : Prop :=
  ∃ host, nextEvent s = .access host (stReg s.build r v)

/-- The next step ends the filter: a successful CONFIGURE, a RELEASE or a reset (`41_bloom_filter.md` rule R183). -/
def endsFilter (s : State) : Prop :=
  (completesInstr s .configure ∧ configReason s = none) ∨ completesInstr s .release ∨ resetsNext s

/-- `t` follows `s` by steps of which none ends the filter (`41_bloom_filter.md` rule R183). -/
inductive SameFilter : State → State → Prop where
  | refl (s : State) : SameFilter s s
  | tail {s t u : State} : SameFilter s t → ¬ endsFilter t → step t = .next u → SameFilter s u

/-! ### What a host can observe -/

/-- The part of a state that any access or command can depend on: BITARRAY counts only where a filter shows it, and
LATCH only while BUSY = 1 (`10_state.md` rules R48 and R51). -/
def visible (s : State) : State :=
  { s with
    bits := if s.status.active then s.bits.filter (fun c => c.1 < s.nbytes.toNat) else []
    latch := if s.status.busy then s.latch else 0 }

/-- An outcome with the unobservable part of its next state taken out. -/
def visibleOutcome : Host.Outcome State Fault Refusal → Host.Outcome State Fault Refusal
  | .next t => .next (visible t)
  | .fault r => .fault r
  | .refused r => .refused r

/-- The registers in the order of their offsets (`10_state.md` rule R21). -/
def allRegs : List Reg :=
  [ .id, .param, .maxBits, .mult, .cmd, .status, .irqEn, .seed, .keyLen, .h1, .h2, .dcount, .result, .errInfo,
    .cfgN, .cfgM, .cfgK, .cfgP, .n, .m, .k, .p, .nbytes, .inserted ]

/-- The observation at the end of a run (`70_reset_and_hazards.md` rule R274). -/
structure Observation where
  regs : List Word
  keyBuf : Memory
  dval : List Word
  bitArray : Option Memory
  active : Bool
  irq : Bool
deriving DecidableEq, Repr

/-- What rule R274 observes of a state. -/
def observe (s : State) : Observation where
  regs := allRegs.map (regRead s)
  keyBuf := s.keyBuf
  dval := s.dval
  bitArray := if s.status.active then some (visible s).bits else none
  active := s.status.active
  irq := irq s

/-- The host whose access an event is, be it one that a reset abandons (rule R262). -/
def Event.issuer : Event → Option Nat
  | .access host _ => some host
  | .engine => none
  | .reset (some (host, _)) => some host
  | .reset none => none

/-- A host has made the last access of its program: no event to come is an access of its own. -/
def lastAccessMade (host : Nat) (s : State) : Prop := ∀ e ∈ s.schedule, e.issuer ≠ some host

/-- The program of `host` has ended: it has made its last access and BUSY = 0, whatever other hosts and the platform
have still to do (rule R274). -/
def finished (host : Nat) (s : State) : Prop := lastAccessMade host s ∧ s.status.busy = false

/-- The run of the program of `host` that is launched in the first state ends in the second: the first point where it
is finished. A faulted run has no end, since every step of it answers a next state (rule R274; log 10). -/
inductive RunEnds (host : Nat) : State → State → Prop where
  | here {s : State} : finished host s → RunEnds host s s
  | later {s t u : State} : ¬ finished host s → step s = .next t → RunEnds host t u → RunEnds host s u

/-- The second state is a state of the run of the program of `host` that is launched in the first: no state before it
on the way is one where the run has ended (rule R274). -/
inductive InRun (host : Nat) : State → State → Prop where
  | refl (s : State) : InRun host s s
  | tail {s t u : State} : InRun host s t → ¬ finished host t → step t = .next u → InRun host s u

/-- The second state follows the first by steps that all answer next states. -/
inductive Reaches : State → State → Prop where
  | refl (s : State) : Reaches s s
  | tail {s t u : State} : Reaches s t → step t = .next u → Reaches s u

/-! ### Launch premises (rule R275) -/

/-- `no_fault`: no BUSERR has been recorded since `start`. A BUSERR is an outcome without a next state, so this is that
the steps from `start` to here answered next states (log 10). -/
def noFault (start s : State) : Prop := Reaches start s

/-- `idle` -/
def idle (s : State) : Prop := s.status.busy = false

/-- `clean_status` -/
def cleanStatus (s : State) : Prop := s.status.done = false ∧ s.status.wbusy = false

/-- `after_reset`: the state of rule R261, whatever is scheduled and whatever the model's own fields and the
unobservable part hold. -/
def afterReset (s : State) : Prop :=
  visible { s with schedule := [], response := none, draws := 0 } = State.resetOf s.build

/-- `sole_host`: no other host accesses the block during the run that is launched here. What other hosts do after the
end of the run is free. -/
def soleHost (host : Nat) (s : State) : Prop :=
  ∀ t, InRun host s t → ¬ finished host t → ∀ other, (nextEvent t).issuer = some other → other = host

/-- `filter(n, m, k, p)` -/
def filterIs (n m k p : Word) (s : State) : Prop :=
  s.status.active = true ∧ s.n = n ∧ s.m = m ∧ s.k = k ∧ s.p = p

end Sys2Proof.Machine
end

