-- ==== Sys2Proof/Certificates/Slice0/Obligations.lean ====
section
/-! DEFINITION. The statements for the provers. Each docstring names the rule of the spec it formalises, and says so
where a clause is the model's own choice (a log entry). -/

open Sys2Proof Sys2Proof.Machine

/-! ### Encoding -/

/-- The word of a well-formed command decodes to that command, with its count (`30_encoding.md` rules R90 to R92). -/
def Obligations.DecodeOfEncode : Prop := ∀ i : Instr, i.wellFormed = true → decode (encode i) = some i

/-- A word that decodes to a command is that command's word, and no other: each command has exactly one word
(`30_encoding.md` rules R90 to R92). -/
def Obligations.EncodeOfDecode : Prop :=
  ∀ (w : Word) (i : Instr), decode w = some i → i.wellFormed = true ∧ encode i = w

/-- The decoder gives a row's command exactly for the row's words (`opcode_table.json`). -/
def Obligations.DecodeMatchesOpcodeTable : Prop :=
  ∀ (w : Word), ∀ row ∈ opcodeTable,
    (∃ i, decode w = some i ∧ i.mnemonic = row.mnemonic) ↔ w &&& row.mask = row.pattern

/-- ILLEGAL words (`30_encoding.md` rule R94): the three kinds; their CMD write is accepted; and their completion sets
ERR, LASTOP, ERRINFO and DONE and changes nothing else. The engine's turn is the schedule's (log 7). -/
def Obligations.IllegalWordCompletes : Prop :=
  (∀ w : Word,
      decode w = none ↔
        (w.extractLsb' 0 8 = 0x00 ∨ 0x07 ≤ (w.extractLsb' 0 8).toNat) ∨
          (w.extractLsb' 8 8 ≠ 0 ∧ w.extractLsb' 0 8 ≠ 0x02) ∨ w.extractLsb' 16 48 ≠ 0) ∧
    (∀ (s : State) (host : Nat) (w : Word), s.status.busy = false → decode w = none →
      ∃ t, busAccess host (stReg s.build .cmd w) s = .next t ∧ t.latch = w ∧ t.status.busy = true) ∧
    ∀ s : State, completesNext s → decode s.latch = none →
      ∃ t, step s = .next t ∧ completed (s.latch.extractLsb' 0 8) .opcode s.latch s.status.active s t ∧
        (regRead t .status).extractLsb' 8 8 = 5 ∧
        regsKept [.status, .errInfo] s t ∧ keyBufKept s t ∧ dvalKept s t ∧ bitsKept s t ∧
        blockKept (afterEvent s) t ∧ portKept s t

/-- Words written out from `30_encoding.md` rules R90 and R93 and `95_test_vectors.md` section 3.7. -/
def Obligations.SpecWordsDecode : Prop :=
  decode 0x0000000000000001 = some .hash128 ∧ decode 0x000000000000FF02 = some (.derive 255) ∧
    decode 0x0000000000000003 = some .configure ∧ decode 0x0000000000000004 = some .add ∧
    decode 0x0000000000000005 = some .test ∧ decode 0x0000000000000006 = some .release ∧
    decode 0x0000000000000000 = none ∧ decode 0x0000000000000007 = none ∧ decode 0x0000000000000101 = none ∧
    decode 0x0000000000010002 = none ∧ decode 0x8000000000000004 = none

/-! ### Steps -/

/-- A step that completes runs the command its latched word decodes to (`70_reset_and_hazards.md` rule R266). What the
step adds is that the event is taken off the schedule (log 7). -/
def Obligations.StepRunsDecodedCommand : Prop :=
  ∀ (s : State) (i : Instr), completesInstr s i → step s = exec i (afterEvent s)

/-- A step whose event is a host access performs it; with BUSY = 0 the engine's turn changes nothing
(`20_memory.md` rule R78, `70_reset_and_hazards.md` rule R263). What the step adds is that the event is taken off the
schedule (log 7). -/
def Obligations.StepPerformsAccess : Prop :=
  (∀ (s : State) (host : Nat) (a : Access), nextEvent s = .access host a →
      step s = busAccess host a (afterEvent s)) ∧
    ∀ s : State, nextEvent s = .engine → s.status.busy = false → step s = .next (afterEvent s)

/-- After a well-formed command's word is put where the next step takes it, the next step runs it, in the state with
the word latched and BUSY = 1 (the model's choice, log 15). -/
def Obligations.FetchedWordRuns : Prop :=
  ∀ (s : State) (i : Instr), i.wellFormed = true →
    step (s.withFetchWord 64 (encode i).toNat) =
      exec i { s with latch := encode i, status := { s.status with busy := true } }

/-- Every command completes, whether it succeeds or fails (`60_exceptions.md` rule R222): BUSY falls, DONE is set,
LASTOP names it, WBUSY, LATCH, the interrupt enable and the CFG registers stay, and ERRINFO is 0 on success
(`10_state.md` rule R35). -/
def Obligations.EveryCommandCompletes : Prop :=
  ∀ (i : Instr) (s : State),
    ∃ t, exec i s = .next t ∧ t.status.busy = false ∧ t.status.done = true ∧ t.status.lastOp = i.opcode ∧
      t.status.wbusy = s.status.wbusy ∧ (t.status.err = .ok → t.errInfo = 0) ∧
      regsKept
        [ .keyLen, .h1, .h2, .dcount, .result, .errInfo, .n, .m, .k, .p, .nbytes, .inserted, .status ] s t ∧
      blockKept s t ∧ portKept s t

/-- Every wait on BUSY ends: once the events to come have been handled, one more step leaves BUSY = 0, every host's
program finished, and each host's run with an end; a run has one end, at which it is finished
(`70_reset_and_hazards.md` rules R267 and R274). That the engine moves when no event is to come is the
model's choice (log 7). -/
def Obligations.RunFinishesAfterSchedule : Prop :=
  (∀ s t : State, Host.Core.run Sys2Proof.core (s.schedule.length + 1) s = .next t →
      t.schedule = [] ∧ ∀ host, finished host t ∧ ∃ u, RunEnds host s u) ∧
    ∀ (host : Nat) (s t u : State), RunEnds host s t → finished host t ∧ (RunEnds host s u → u = t)

/-- The events of a launched host program keep pace with BUSY, wherever its completions fall (`30_encoding.md`
rule R99, `70_reset_and_hazards.md` rule R267): after each access the rest of the program stands with `running` as BUSY
is, and a `wait` ends with a poll that shows BUSY = 0, the polls before it showing BUSY = 1. That a list of turns places
the completions is the model's choice (log 16). -/
def Obligations.LaunchedProgramTracksBusy : Prop :=
  (∀ (s t : State) (host : Nat) (turns : List Bool) (a : Access) (rest : List HostMove),
      s.schedule = moveEvents s.build host s.status.busy turns (.access a :: rest) →
      Host.Core.run Sys2Proof.core (if turns.headD false then 2 else 1) s = .next t →
      t.schedule = moveEvents t.build host t.status.busy turns.tail rest) ∧
    (∀ (s : State) (host polls : Nat) (turns : List Bool) (rest : List HostMove),
      s.schedule = moveEvents s.build host s.status.busy turns (.wait polls :: rest) →
      ∃ (k : Nat) (t : State) (v : Word), Host.Core.run Sys2Proof.core k s = .next t ∧ t.status.busy = false ∧
        t.response = some (.readData host 8 v) ∧ v.getLsbD 0 = false ∧
        t.schedule = moveEvents t.build host false turns.tail rest) ∧
    ∀ (s : State) (host polls j : Nat) (turns : List Bool) (rest : List HostMove),
      s.schedule = moveEvents s.build host s.status.busy turns (.wait polls :: rest) → s.status.busy = true →
      turns.headD false = false → j < polls →
      ∃ (t : State) (v : Word), Host.Core.run Sys2Proof.core (j + 1) s = .next t ∧ t.status.busy = true ∧
        t.response = some (.readData host 8 v) ∧ v.getLsbD 0 = true

/-! ### HASH128 and DERIVE -/

/-- HASH128 (`40_hash_engine.md` rule R140): its encoding, the key it takes (`10_state.md` rule R47: the bytes of
KEYBUF below KEYLEN, in order), its result and frame, its error, the empty key under seed 0, the bytes it ignores, the zero bits of SEED, the rule's example, and the published digest of a key of two blocks
and a tail (`95_test_vectors.md` part 2). -/
def Obligations.Hash128Computes : Prop :=
  encode .hash128 = 0x0000000000000001 ∧
    (∀ s : State, (keyBytes s).length = s.keyLen.toNat ∧
      ∀ j, j < s.keyLen.toNat → (keyBytes s)[j]? = some (s.keyBuf.read j)) ∧
    (∀ s : State, s.keyLen.toNat ≤ s.build.keyMax →
      ∃ t, exec .hash128 s = .next t ∧ t.h1 = (createHash (keyBytes s) s.seed).h1 ∧
        t.h2 = (createHash (keyBytes s) s.seed).h2 ∧ keyCleared t ∧ completed 0x01 .ok 0 s.status.active s t ∧
        regsKept [.h1, .h2, .keyLen, .status, .errInfo] s t ∧ dvalKept s t ∧ bitsKept s t ∧ blockKept s t ∧
        portKept s t) ∧
    (∀ s : State, s.build.keyMax < s.keyLen.toNat →
      ∃ t, exec .hash128 s = .next t ∧ keyCleared t ∧ completed 0x01 .arg 1 s.status.active s t ∧
        regsKept [.keyLen, .status, .errInfo] s t ∧ dvalKept s t ∧ bitsKept s t ∧ blockKept s t ∧ portKept s t) ∧
    (∀ (s : State) (buf : Memory), (∀ j, j < s.keyLen.toNat → buf.read j = s.keyBuf.read j) →
      exec .hash128 { s with keyBuf := buf } = exec .hash128 s) ∧
    (∀ s : State, (regRead s .seed).extractLsb' 32 32 = 0) ∧
    createHash [] 0 = { h1 := 0, h2 := 0 } ∧
    createHash
        [ 0x54, 0x68, 0x65, 0x20, 0x71, 0x75, 0x69, 0x63, 0x6B, 0x20, 0x62, 0x72, 0x6F, 0x77, 0x6E, 0x20, 0x66, 0x6F,
          0x78, 0x20, 0x6A, 0x75, 0x6D, 0x70, 0x73, 0x20, 0x6F, 0x76, 0x65, 0x72, 0x20, 0x74, 0x68, 0x65, 0x20, 0x6C,
          0x61, 0x7A, 0x79, 0x20, 0x64, 0x6F, 0x67 ] 0 =
      { h1 := 0xe34bbc7bbc071b6c, h2 := 0x7a433ca9c49a9347 } ∧
    createHash [0x47, 0x6F, 0x6F, 0x6E, 0x65, 0x79, 0x47, 0x6F, 0x6F, 0x47, 0x6F, 0x6F] 42 =
      { h1 := 0x9668550ca6f44c48, h2 := 0x73ef1cf36e5dc3f2 }

/-- DERIVE (`40_hash_engine.md` rules R135 and R141): its encoding, its values and frame, its errors in order, and
value 0, which does not depend on `DERIVE_MULT` (`00_scope.md` rule R7), with rule R141's example. -/
def Obligations.DeriveComputes : Prop :=
  (∀ c, c ≤ 255 → (encode (.derive c)).toNat = 256 * c + 2) ∧
    (∀ (mult mult' : Word) (h : HashPair), derivedValue mult h 0 = derivedValue mult' h 0) ∧
    (∀ mult : Word,
      deriveHashes mult [0x61, 0x70, 0x70, 0x6C, 0x65, 0x73] 1 = [(0x1ac96df17d6e5c4b : Word)]) ∧
    (∀ (s : State) (c : Nat), c ≤ s.build.kMax → s.build.kMax ≤ 480 → s.keyLen.toNat ≤ s.build.keyMax →
      ∃ t, exec (.derive c) s = .next t ∧
        t.dcount.toNat = (if s.keyLen = 0 then 0 else c) ∧
        t.dval.length = s.build.kMax ∧
        (∀ i, t.dval.getD i 0 =
          if s.keyLen ≠ 0 ∧ i < c then
            fmix64 ((createHash (keyBytes s) 0).h1 + BitVec.ofNat 64 i) ^^^
              fmix64 ((createHash (keyBytes s) 0).h2 + BitVec.ofNat 64 i * s.build.deriveMult)
          else 0) ∧
        keyCleared t ∧ completed 0x02 .ok 0 s.status.active s t ∧
        regsKept [.dcount, .keyLen, .status, .errInfo] s t ∧ bitsKept s t ∧ blockKept s t ∧ portKept s t) ∧
    (∀ (s : State) (c : Nat), s.build.kMax < c ∨ s.build.keyMax < s.keyLen.toNat →
      ∃ t, exec (.derive c) s = .next t ∧ keyCleared t ∧
        completed 0x02 .arg (if s.build.kMax < c then 2 else 1) s.status.active s t ∧
        regsKept [.keyLen, .status, .errInfo] s t ∧ dvalKept s t ∧ bitsKept s t ∧ blockKept s t ∧ portKept s t)

/-- DeriveHashes gives exactly `k` values for a non-empty key, and none for the empty key or for `k = 0`
(`40_hash_engine.md` rule R136). -/
def Obligations.DeriveHashesCounts : Prop :=
  ∀ (mult : Word) (key : List Byte) (k : Nat),
    (deriveHashes mult key k).length = (if key = [] then 0 else k) ∧ deriveHashes mult [] k = [] ∧
      deriveHashes mult key 0 = []

/-- The body takes whole 16-byte blocks from the front, in increasing address order, each as two little-endian words,
and nothing else; the steps of one block (`40_hash_engine.md` rule R125). -/
def Obligations.HashBodyBlockByBlock : Prop :=
  (∀ (h : HashPair) (k1 k2 : Word),
      (blockStep h k1 k2).h1 = (rotl64 (h.h1 ^^^ mixK1 k1) 27 + h.h2) * 5 + 0x52dce729 ∧
        (blockStep h k1 k2).h2 = (rotl64 (h.h2 ^^^ mixK2 k2) 31 + (blockStep h k1 k2).h1) * 5 + 0x38495ab5) ∧
    (∀ (data : List Byte) (first : Nat),
      dataWord data first 8 =
        (List.range 8).foldl (fun sum t => sum + (data.getD (first + t) 0).setWidth 64 <<< (8 * t)) 0) ∧
    (∀ (data : List Byte) (h : HashPair), data.length < 16 → hashBody data h = h) ∧
    ∀ (block rest : List Byte) (h : HashPair), block.length = 16 →
      hashBody (block ++ rest) h = hashBody rest (blockStep h (dataWord block 0 8) (dataWord block 8 8))

/-- The steps of the hash that are no loop: the scrambles, the start, the finalisation, FMix64, and their order in
CreateHash (`40_hash_engine.md` rules R122 to R124 and R127 to R129), with the 17-byte vector of `95_test_vectors.md`
section 3.2, which has one block and a tail. -/
def Obligations.HashStepsAreTheSpecs : Prop :=
  (∀ k : Word, mixK1 k = rotl64 (k * 0x87c37b91114253d5) 31 * 0x4cf5ad432745937f) ∧
    (∀ k : Word, mixK2 k = rotl64 (k * 0x4cf5ad432745937f) 33 * 0x87c37b91114253d5) ∧
    (∀ seed : BitVec 32, (hashInit seed).h1.toNat = seed.toNat ∧ (hashInit seed).h2.toNat = seed.toNat) ∧
    (∀ (len : Word) (h : HashPair),
      let c1 := fmix64 ((h.h1 ^^^ len) + (h.h2 ^^^ len))
      let c2 := fmix64 ((h.h2 ^^^ len) + ((h.h1 ^^^ len) + (h.h2 ^^^ len)))
      (hashFinish len h).h1 = c1 + c2 ∧ (hashFinish len h).h2 = c2 + (c1 + c2)) ∧
    (∀ k : Word,
      let k1 := (k ^^^ (k >>> 33)) * 0xff51afd7ed558ccd
      let k2 := (k1 ^^^ (k1 >>> 33)) * 0xc4ceb9fe1a85ec53
      fmix64 k = k2 ^^^ (k2 >>> 33)) ∧
    (∀ (data : List Byte) (seed : BitVec 32),
      createHash data seed =
        hashFinish (BitVec.ofNat 64 data.length) (hashTail data (hashBody data (hashInit seed)))) ∧
    createHash
        [ 0x61, 0x62, 0x63, 0x64, 0x65, 0x66, 0x67, 0x68, 0x69, 0x6A, 0x6B, 0x6C, 0x6D, 0x6E, 0x6F, 0x70, 0x71 ] 0 =
      { h1 := 0x7564747f88bda657, h2 := 0xecda499da1110de4 }

/-- The tail is the last `len mod 16` bytes: bytes 8 to 14 go to `h2` and bytes 0 to 7 to `h1`, packed little-endian,
each by an XOR alone (`40_hash_engine.md` rule R126). -/
def Obligations.HashTailTakesLastBytes : Prop :=
  (∀ (data : List Byte) (first count : Nat), count ≤ 8 →
      dataWord data first count =
        (List.range count).foldl (fun sum t => sum + (data.getD (first + t) 0).setWidth 64 <<< (8 * t)) 0) ∧
    ∀ (blocks tail : List Byte) (h : HashPair), blocks.length % 16 = 0 → tail.length < 16 →
      hashTail (blocks ++ tail) h =
        { h1 := if tail = [] then h.h1 else h.h1 ^^^ mixK1 (dataWord (tail.take 8) 0 (tail.take 8).length)
          h2 := if tail.length ≤ 8 then h.h2 else h.h2 ^^^ mixK2 (dataWord (tail.drop 8) 0 (tail.drop 8).length) }

/-- `rotl64` is the left rotation of the 64 bits (`00_scope.md` rule R9). -/
def Obligations.RotlIsRotation : Prop :=
  ∀ (x : Word) (r : Nat), 0 < r → r < 64 → rotl64 x r = x.rotateLeft r

/-! ### CONFIGURE and RELEASE -/

/-- CONFIGURE checks the staged parameters in order and reports the first that fails; a failed CONFIGURE changes
nothing but STATUS and ERRINFO (`41_bloom_filter.md` rules R175 and R176). -/
def Obligations.ConfigureReportsFirstReason : Prop :=
  ∀ s : State,
    (s.cfgN = 0 ∨ ¬ legalP s.cfgP ∨ s.cfgM = 0 ∨ s.build.maxBits < s.cfgM.toNat ∨ s.cfgK = 0 ∨
        s.build.kMax < s.cfgK.toNat) →
      ∃ t, exec .configure s = .next t ∧
        completed 0x03 .config
          (if s.cfgN = 0 then 1 else if ¬ legalP s.cfgP then 2 else if s.cfgM = 0 then 3
            else if s.build.maxBits < s.cfgM.toNat then 4 else 5)
          s.status.active s t ∧
        regsKept [.status, .errInfo] s t ∧ keyBufKept s t ∧ dvalKept s t ∧ bitsKept s t ∧ blockKept s t ∧ portKept s t

/-- The integer compare of CONFIGURE's second check holds exactly for the binary64 values `p` with `0 < p < 1`
(`41_bloom_filter.md` rule R175). -/
def Obligations.LegalPIsOpenUnitInterval : Prop :=
  ∀ p : Word, legalP p ↔ ∃ q : ℚ, binary64Value p = some q ∧ 0 < q ∧ q < 1

/-- A CONFIGURE whose checks hold builds a new, empty filter, whatever stood before
(`41_bloom_filter.md` rule R176). -/
def Obligations.ConfigureBuildsFilter : Prop :=
  ∀ s : State, s.bits.wf → s.cfgN ≠ 0 → legalP s.cfgP → 1 ≤ s.cfgM.toNat → s.cfgM.toNat ≤ s.build.maxBits →
    1 ≤ s.cfgK.toNat → s.cfgK.toNat ≤ s.build.kMax →
    ∃ t, exec .configure s = .next t ∧ t.n = s.cfgN ∧ t.m = s.cfgM ∧ t.k = s.cfgK ∧ t.p = s.cfgP ∧
      t.nbytes.toNat = (s.cfgM.toNat + 7) / 8 ∧ t.inserted = 0 ∧
      (∀ b, b < t.nbytes.toNat → t.bits.read b = 0) ∧
      (∀ b, t.nbytes.toNat ≤ b → t.bits.read b = s.bits.read b) ∧ completed 0x03 .ok 0 true s t ∧
      regsKept [.n, .m, .k, .p, .nbytes, .inserted, .status, .errInfo] s t ∧ keyBufKept s t ∧ dvalKept s t ∧
      blockKept s t ∧ portKept s t

/-- RELEASE drops the filter, and succeeds with none (`41_bloom_filter.md` rule R177). -/
def Obligations.ReleaseDropsFilter : Prop :=
  encode .release = 0x0000000000000006 ∧
    ∀ s : State,
      ∃ t, exec .release s = .next t ∧ t.n = 0 ∧ t.m = 0 ∧ t.k = 0 ∧ t.p = 0 ∧ t.nbytes = 0 ∧ t.inserted = 0 ∧
        completed 0x06 .ok 0 false s t ∧
        regsKept [.n, .m, .k, .p, .nbytes, .inserted, .status, .errInfo] s t ∧ keyBufKept s t ∧ dvalKept s t ∧
        bitsKept s t ∧ blockKept s t ∧ portKept s t

/-! ### ADD and TEST -/

/-- The bit index is the non-negative residue of the s64 modulo `m`, computed as `41_bloom_filter.md` rule R171 says
the hardware computes it, with the rule's corner cases. -/
def Obligations.BitIndexIsResidue : Prop :=
  ∀ v m : Word, 1 ≤ m.toNat →
    bitIndex v m < m.toNat ∧ (m.toNat : Int) ∣ v.toInt - bitIndex v m ∧
      (0 ≤ v.toInt → bitIndex v m = v.toNat % m.toNat) ∧
      (v.toInt < 0 → bitIndex v m = (m.toNat - (2 ^ 64 - v.toNat) % m.toNat) % m.toNat) ∧
      bitIndex (-1) m = m.toNat - 1 ∧ (bitIndex (BitVec.intMin 64) m : Int) = (-2 ^ 63 : Int) % (m.toNat : Int) ∧
      (∀ e, m.toNat = 2 ^ e → bitIndex v m = (v &&& (m - 1)).toNat) ∧
      bitIndex (-1) 1438 ≠ (-1 : Word).toNat % 1438

/-- A non-empty key has exactly K positions, each below M and each the bit index of its derived value; the empty key
has none (`41_bloom_filter.md` rule R173). -/
def Obligations.PositionsOfKey : Prop :=
  ∀ s : State, 1 ≤ s.m.toNat →
    (s.keyLen = 0 → positions s = []) ∧
      (s.keyLen ≠ 0 → (positions s).length = s.k.toNat ∧
        ∀ i, i < s.k.toNat →
          (positions s).getD i 0 =
            bitIndex (derivedValue s.build.deriveMult (createHash (keyBytes s) 0) i) s.m) ∧
      ∀ x ∈ positions s, x < s.m.toNat

/-- ADD (`41_bloom_filter.md` rule R178): with a filter and a key that fits it sets exactly the key's positions,
reports NEW, counts, and clears the key; an empty key sets nothing; with no filter it completes with ERR_STATE, and with
a key that is too long with ERR_ARG 1, and each error clears the key and changes nothing else. -/
def Obligations.AddInserts : Prop :=
  encode .add = 0x0000000000000004 ∧
    (∀ s : State, Inv s → s.status.active = true → s.keyLen.toNat ≤ s.build.keyMax →
      ∃ t, exec .add s = .next t ∧
        (∀ y, bitGet t.bits y = (bitGet s.bits y || decide (y ∈ positions s))) ∧
        (∀ b, (∀ x ∈ positions s, x / 8 ≠ b) → t.bits.read b = s.bits.read b) ∧
        t.result.found = false ∧ (t.result.isNew = true ↔ ∃ x ∈ positions s, bitGet s.bits x = false) ∧
        (s.keyLen = 0 → t.result.isNew = false ∧ bitsKept s t) ∧
        t.inserted.toNat =
          (if t.result.isNew = true then min (s.inserted.toNat + 1) (2 ^ 64 - 1) else s.inserted.toNat) ∧
        keyCleared t ∧ completed 0x04 .ok 0 true s t ∧
        regsKept [.inserted, .result, .keyLen, .status, .errInfo] s t ∧ dvalKept s t ∧ blockKept s t ∧ portKept s t) ∧
    (∀ s : State, s.status.active = false →
      ∃ t, exec .add s = .next t ∧ keyCleared t ∧ completed 0x04 .state 0 false s t ∧
        regsKept [.keyLen, .status, .errInfo] s t ∧ dvalKept s t ∧ bitsKept s t ∧ blockKept s t ∧ portKept s t) ∧
    ∀ s : State, s.status.active = true → s.build.keyMax < s.keyLen.toNat →
      ∃ t, exec .add s = .next t ∧ keyCleared t ∧ completed 0x04 .arg 1 true s t ∧
        regsKept [.keyLen, .status, .errInfo] s t ∧ dvalKept s t ∧ bitsKept s t ∧ blockKept s t ∧ portKept s t

/-- TEST (`41_bloom_filter.md` rule R179): with a filter and a key that fits it answers whether every position of the
key is set, changes no bit and no counter, and clears the key; the empty key is found; with no filter it completes with
ERR_STATE, and with a key that is too long with ERR_ARG 1, and each error clears the key and changes nothing else. -/
def Obligations.TestAnswers : Prop :=
  encode .test = 0x0000000000000005 ∧
    (∀ s : State, Inv s → s.status.active = true → s.keyLen.toNat ≤ s.build.keyMax →
      ∃ t, exec .test s = .next t ∧ (t.result.found = true ↔ ∀ x ∈ positions s, bitGet s.bits x = true) ∧
        t.result.isNew = false ∧ (s.keyLen = 0 → t.result.found = true) ∧ keyCleared t ∧
        completed 0x05 .ok 0 true s t ∧ regsKept [.result, .keyLen, .status, .errInfo] s t ∧ dvalKept s t ∧
        bitsKept s t ∧ blockKept s t ∧ portKept s t) ∧
    (∀ s : State, s.status.active = false →
      ∃ t, exec .test s = .next t ∧ keyCleared t ∧ completed 0x05 .state 0 false s t ∧
        regsKept [.keyLen, .status, .errInfo] s t ∧ dvalKept s t ∧ bitsKept s t ∧ blockKept s t ∧ portKept s t) ∧
    ∀ s : State, s.status.active = true → s.build.keyMax < s.keyLen.toNat →
      ∃ t, exec .test s = .next t ∧ keyCleared t ∧ completed 0x05 .arg 1 true s t ∧
        regsKept [.keyLen, .status, .errInfo] s t ∧ dvalKept s t ∧ bitsKept s t ∧ blockKept s t ∧ portKept s t

/-- The index check (`41_bloom_filter.md` rule R172): it never fails where the invariants hold, and where it does, in
states no run reaches, ADD raises ERR_INDEX with the first index that fails and changes no bit; so does TEST, if it
reaches that index (log 12). -/
def Obligations.IndexCheck : Prop :=
  (∀ s : State, Inv s → s.status.active = true →
      ∀ x ∈ positions s, x < s.m.toNat ∧ x / 8 < s.nbytes.toNat) ∧
    (∀ (s : State) (i : Instr), Inv s → ∃ t, exec i s = .next t ∧ t.status.err ≠ .index) ∧
    ∀ (s : State) (before after : List Nat) (x : Nat), s.status.active = true → s.keyLen.toNat ≤ s.build.keyMax →
      positions s = before ++ x :: after → (∀ y ∈ before, y < s.m.toNat ∧ y / 8 < s.nbytes.toNat) →
      (s.m.toNat ≤ x ∨ s.nbytes.toNat ≤ x / 8) →
      (∃ t, exec .add s = .next t ∧ keyCleared t ∧ completed 0x04 .index (BitVec.ofNat 64 x) true s t ∧
          bitsKept s t ∧ regsKept [.keyLen, .status, .errInfo] s t) ∧
        ((∀ y ∈ before, bitGet s.bits y = true) →
          ∃ t, exec .test s = .next t ∧ keyCleared t ∧ completed 0x05 .index (BitVec.ofNat 64 x) true s t ∧
            bitsKept s t ∧ regsKept [.keyLen, .status, .errInfo] s t)

/-! ### The key, the seed and errors -/

/-- HASH128, DERIVE, ADD and TEST read the key `KEYBUF[0 .. KEYLEN)` alone and clear it on every exit; CONFIGURE,
RELEASE and ILLEGAL words do not read it and leave it (`40_hash_engine.md` rule R138). -/
def Obligations.KeyClearedExactlyByKeyCommands : Prop :=
  (∀ (s : State) (i : Instr), consumesKey i → ∃ t, exec i s = .next t ∧ keyCleared t) ∧
    (∀ (s : State) (buf : Memory) (i : Instr), consumesKey i →
      (∀ j, j < s.keyLen.toNat → buf.read j = s.keyBuf.read j) → exec i { s with keyBuf := buf } = exec i s) ∧
    (∀ (s : State) (i : Instr), i = .configure ∨ i = .release →
      ∃ t, exec i s = .next t ∧ keyBufKept s t ∧ t.keyLen = s.keyLen ∧
        ∀ (buf : Memory) (len : Word),
          exec i { s with keyBuf := buf, keyLen := len } = .next { t with keyBuf := buf, keyLen := len }) ∧
    ∀ s : State, completesNext s → decode s.latch = none →
      ∃ t, step s = .next t ∧ keyBufKept s t ∧ t.keyLen = s.keyLen ∧
        ∀ (buf : Memory) (len : Word),
          step { s with keyBuf := buf, keyLen := len } = .next { t with keyBuf := buf, keyLen := len }

/-- A command that completes with an error changes STATUS.ERR, LASTOP, DONE, BUSY and ERRINFO and, for HASH128,
DERIVE, ADD and TEST, clears the key; it writes nothing else and leaves the filter as it was
(`60_exceptions.md` rule R223). -/
def Obligations.ErrorLeavesTheRest : Prop :=
  ∀ s t : State, completesNext s → step s = .next t → t.status.err ≠ .ok →
    regsKept [.status, .errInfo, .keyLen] s t ∧ t.status.active = s.status.active ∧
      t.status.wbusy = s.status.wbusy ∧ t.status.done = true ∧ t.status.busy = false ∧ dvalKept s t ∧ bitsKept s t ∧
      ((∃ i, decode s.latch = some i ∧ consumesKey i) → keyCleared t) ∧
      ((¬ ∃ i, decode s.latch = some i ∧ consumesKey i) → keyBufKept s t ∧ t.keyLen = s.keyLen) ∧
      t.latch = s.latch ∧ t.build = s.build

/-- One command reports one error, the first check that fails in the order of `60_exceptions.md` rule R224; with the
invariants the index check does not fail. -/
def Obligations.FirstErrorInOrder : Prop :=
  ∀ s : State, Inv s →
    (completesNext s → decode s.latch = none →
      ∃ t, step s = .next t ∧ t.status.err = .opcode ∧ t.errInfo = s.latch) ∧
    (∃ t, exec .hash128 s = .next t ∧
      (t.status.err, t.errInfo) = (if s.build.keyMax < s.keyLen.toNat then (.arg, 1) else (.ok, 0))) ∧
    (∀ c, ∃ t, exec (.derive c) s = .next t ∧
      (t.status.err, t.errInfo) =
        (if s.build.kMax < c then (.arg, 2) else if s.build.keyMax < s.keyLen.toNat then (.arg, 1) else (.ok, 0))) ∧
    (∀ i, i = .add ∨ i = .test → ∃ t, exec i s = .next t ∧
      (t.status.err, t.errInfo) =
        (if s.status.active = false then (.state, 0)
          else if s.build.keyMax < s.keyLen.toNat then (.arg, 1) else (.ok, 0))) ∧
    (∃ t, exec .release s = .next t ∧ (t.status.err, t.errInfo) = (.ok, 0)) ∧
    ∃ t, exec .configure s = .next t ∧
      (t.status.err, t.errInfo) =
        (if s.cfgN = 0 then (.config, 1) else if ¬ legalP s.cfgP then (.config, 2)
          else if s.cfgM = 0 then (.config, 3) else if s.build.maxBits < s.cfgM.toNat then (.config, 4)
          else if s.cfgK = 0 ∨ s.build.kMax < s.cfgK.toNat then (.config, 5) else (.ok, 0))

/-- SEED matters to HASH128 alone, and no command writes it (`10_state.md` rule R29): every other command does the
same under any seed. -/
def Obligations.SeedMattersToHash128Alone : Prop :=
  (∀ (s : State) (i : Instr), ∃ t, exec i s = .next t ∧ t.seed = s.seed) ∧
    ∀ (s t : State) (seed : BitVec 32) (i : Instr), i ≠ .hash128 → exec i s = .next t →
      exec i { s with seed := seed } = .next { t with seed := seed }

/-! ### The registers and the bus -/

/-- What each register reads as. The fields of ID, PARAM, STATUS, IRQEN, SEED and RESULT, each bit in its place and the
reserved bits 0; every other register whole (`10_state.md` rules R22 to R45); and the numbers of the error codes
(`60_exceptions.md` rule R221). -/
def Obligations.RegisterFields : Prop :=
  (ErrCode.ok.code = 0 ∧ ErrCode.config.code = 1 ∧ ErrCode.index.code = 2 ∧ ErrCode.state.code = 3 ∧
      ErrCode.arg.code = 4 ∧ ErrCode.opcode.code = 5) ∧
    ∀ s : State,
      (regRead s .id).toNat = 0x000000014642334D ∧
        ((regRead s .param).extractLsb' 0 16 = BitVec.ofNat 16 s.build.kMax ∧
          (regRead s .param).extractLsb' 16 32 = BitVec.ofNat 32 s.build.keyMax ∧
          (regRead s .param).extractLsb' 48 16 = 0) ∧
        ((regRead s .status).getLsbD 0 = s.status.busy ∧ (regRead s .status).getLsbD 1 = s.status.done ∧
          (regRead s .status).getLsbD 2 = s.status.wbusy ∧ (regRead s .status).getLsbD 3 = s.status.active ∧
          (regRead s .status).extractLsb' 4 4 = 0 ∧ (regRead s .status).extractLsb' 8 8 = s.status.err.code ∧
          (regRead s .status).extractLsb' 16 8 = s.status.lastOp ∧ (regRead s .status).extractLsb' 24 40 = 0) ∧
        ((regRead s .irqEn).getLsbD 0 = s.irqEnable ∧ (regRead s .irqEn).extractLsb' 1 63 = 0) ∧
        ((regRead s .seed).extractLsb' 0 32 = s.seed ∧ (regRead s .seed).extractLsb' 32 32 = 0) ∧
        ((regRead s .result).getLsbD 0 = s.result.found ∧ (regRead s .result).getLsbD 1 = s.result.isNew ∧
          (regRead s .result).extractLsb' 2 62 = 0) ∧
        (regRead s .maxBits = BitVec.ofNat 64 s.build.maxBits ∧ regRead s .mult = s.build.deriveMult ∧
          regRead s .cmd = 0) ∧
        (regRead s .keyLen = s.keyLen ∧ regRead s .h1 = s.h1 ∧ regRead s .h2 = s.h2 ∧
          regRead s .dcount = s.dcount ∧ regRead s .errInfo = s.errInfo) ∧
        (regRead s .cfgN = s.cfgN ∧ regRead s .cfgM = s.cfgM ∧ regRead s .cfgK = s.cfgK ∧
          regRead s .cfgP = s.cfgP) ∧
        regRead s .n = s.n ∧ regRead s .m = s.m ∧ regRead s .k = s.k ∧ regRead s .p = s.p ∧
          regRead s .nbytes = s.nbytes ∧ regRead s .inserted = s.inserted

/-- The offsets of the registers (`10_state.md` rule R21); an 8-byte read at a register's offset answers the register,
exactly, unless BUSY = 1 and the register is drawn; it changes nothing else (`20_memory.md` rules R66 and R70). -/
def Obligations.RegisterReads : Prop :=
  (∀ r : Reg, (r, r.offset) ∈
      [ (Reg.id, 0x000), (Reg.param, 0x008), (Reg.maxBits, 0x010), (Reg.mult, 0x018), (Reg.cmd, 0x020),
        (Reg.status, 0x028), (Reg.irqEn, 0x030), (Reg.seed, 0x038), (Reg.keyLen, 0x040), (Reg.h1, 0x048),
        (Reg.h2, 0x050), (Reg.dcount, 0x058), (Reg.result, 0x060), (Reg.errInfo, 0x068), (Reg.cfgN, 0x070),
        (Reg.cfgM, 0x078), (Reg.cfgK, 0x080), (Reg.cfgP, 0x088), (Reg.n, 0x090), (Reg.m, 0x098), (Reg.k, 0x0A0),
        (Reg.p, 0x0A8), (Reg.nbytes, 0x0B0), (Reg.inserted, 0x0B8) ]) ∧
    ∀ (s : State) (host : Nat) (r : Reg),
      s.status.busy = false ∨
          r ∈ [Reg.id, .param, .maxBits, .mult, .cmd, .status, .irqEn, .seed, .cfgN, .cfgM, .cfgK, .cfgP] →
        ∃ t, busAccess host (.read (s.build.regBase + r.offset) 8) s = .next t ∧
          t.response = some (.readData host 8 (if r = .cmd then 0 else regRead s r)) ∧ regsKept [] s t ∧
          keyBufKept s t ∧ dvalKept s t ∧ bitsKept s t ∧ blockKept s t ∧ t.draws = s.draws

/-- With BUSY = 0, legal reads of DVAL, KEYBUF and BITS answer the entry and the bytes (`20_memory.md` rule R66). -/
def Obligations.ArrayReads : Prop :=
  ∀ (s : State) (host : Nat), s.status.busy = false →
    (∀ i, i < s.build.kMax → s.build.kMax ≤ 480 →
      ∃ t, busAccess host (.read (s.build.regBase + 0x100 + 8 * i) 8) s = .next t ∧
        t.response = some (.readData host 8 (s.dval.getD i 0)) ∧ t.draws = s.draws) ∧
    (∀ (width : Width) (j : Nat), j % width.bytes = 0 → j + width.bytes ≤ s.build.keyMax →
      ∃ (t : State) (v : Word),
        busAccess host (.read (s.build.regBase + 0x1000 + j) width.bytes) s = .next t ∧
          t.response = some (.readData host width.bytes v) ∧ t.draws = s.draws ∧
          ∀ q, q < 8 → v.extractLsb' (8 * q) 8 = if q < width.bytes then s.keyBuf.read (j + q) else 0) ∧
    ∀ (width : Width) (b : Nat), legalBuild s.build → s.status.active = true → b % width.bytes = 0 →
      b + width.bytes ≤ s.nbytes.toNat → s.nbytes.toNat ≤ bitsSize s.build →
      ∃ (t : State) (v : Word),
        busAccess host (.read (s.build.bitsBase + b) width.bytes) s = .next t ∧
          t.response = some (.readData host width.bytes v) ∧ t.draws = s.draws ∧
          ∀ q, q < 8 → v.extractLsb' (8 * q) 8 = if q < width.bytes then s.bits.read (b + q) else 0

/-- A 64-bit BITS read at offset `8w` returns bit index `64w + j` in bit `j` of the value
(`20_memory.md` rule R62). -/
def Obligations.BitsReadShowsBitIndices : Prop :=
  ∀ (s : State) (host w : Nat), Inv s → s.status.busy = false → s.status.active = true →
    8 * w + 8 ≤ s.nbytes.toNat →
    ∃ (t : State) (v : Word),
      busAccess host (ldBits s.build .d (8 * w)) s = .next t ∧ t.response = some (.readData host 8 v) ∧
        ∀ j, j < 64 → v.getLsbD j = bitGet s.bits (64 * w + j)

/-- While BUSY = 1, reads of the drawn registers, of DVAL, of KEYBUF and of BITS answer a free value, of which nothing
is known, cut to the width of the access, and the other registers read exactly; a read changes nothing else
(`20_memory.md` rule R71). That the n-th draw is a free function of n is the model's choice (log 9), and so are the
response and the count of draws (logs 8 and 9). -/
def Obligations.BusyReadsAreDrawn : Prop :=
  ∀ (s : State) (host : Nat), s.status.busy = true →
    ∃ value : Nat → Word,
      (∀ width, (value width).toNat = (Config.freeDraw s.draws).toNat % 2 ^ (8 * width)) ∧
        (∀ r ∈ [Reg.keyLen, .h1, .h2, .dcount, .result, .errInfo, .n, .m, .k, .p, .nbytes, .inserted],
          busAccess host (.read (s.build.regBase + r.offset) 8) s =
            .next { s with response := some (.readData host 8 (value 8)), draws := s.draws + 1 }) ∧
        (∀ r ∈ [Reg.id, .param, .maxBits, .mult, .cmd, .status, .irqEn, .seed, .cfgN, .cfgM, .cfgK, .cfgP],
          busAccess host (.read (s.build.regBase + r.offset) 8) s =
            .next { s with response := some (.readData host 8 (regRead s r)) }) ∧
        (∀ i, i < s.build.kMax → s.build.kMax ≤ 480 →
          busAccess host (.read (s.build.regBase + 0x100 + 8 * i) 8) s =
            .next { s with response := some (.readData host 8 (value 8)), draws := s.draws + 1 }) ∧
        (∀ (width : Width) (j : Nat), j % width.bytes = 0 → j + width.bytes ≤ s.build.keyMax →
          busAccess host (.read (s.build.regBase + 0x1000 + j) width.bytes) s =
            .next
              { s with
                response := some (.readData host width.bytes (value width.bytes))
                draws := s.draws + 1 }) ∧
        ∀ (width : Width) (b : Nat), legalBuild s.build → s.status.active = true → b % width.bytes = 0 →
          b + width.bytes ≤ s.nbytes.toNat → s.nbytes.toNat ≤ bitsSize s.build →
          busAccess host (.read (s.build.bitsBase + b) width.bytes) s =
            .next
              { s with
                response := some (.readData host width.bytes (value width.bytes))
                draws := s.draws + 1 }

/-- No read has a side effect on the block; two reads of one location with only reads between them answer alike,
unless the location is drawn; a repeated write to STATUS or IRQEN changes nothing more (`20_memory.md` rule R70). -/
def Obligations.ReadsChangeNothing : Prop :=
  (∀ (s t : State) (host addr width : Nat), busAccess host (.read addr width) s = .next t →
      t = { s with response := t.response, draws := t.draws } ∧
        (s.status.busy = false → t.draws = s.draws) ∧
        (t.draws = s.draws → ∀ (r : Option Response) (d : Nat),
          busAccess host (.read addr width) { s with response := r, draws := d } = .next { t with draws := d })) ∧
    ∀ (s t : State) (host : Nat) (v : Word) (r : Reg), r = .status ∨ r = .irqEn →
      busAccess host (stReg s.build r v) s = .next t → busAccess host (stReg s.build r v) t = .next t

/-- A register-window access gives BUSERR exactly in the cases of `20_memory.md` rule R68, and goes through in every
other. -/
def Obligations.RegWindowBusErrors : Prop :=
  ∀ (s : State) (host o width : Nat) (v : Word), o < regSize s.build →
    (if (o < 0x1000 ∧ (width ≠ 8 ∨ o % 8 ≠ 0)) ∨ (0x0C0 ≤ o ∧ o < 0x100) ∨
          (0x100 ≤ o ∧ o < 0x1000 ∧ s.build.kMax ≤ (o - 0x100) / 8) ∨
          (0x1000 ≤ o ∧
            (width ∉ [1, 2, 4, 8] ∨ o % width ≠ 0 ∨ s.build.keyMax < o - 0x1000 + width))
      then
        busAccess host (.read (s.build.regBase + o) width) s =
          .fault (.busError host (.read (s.build.regBase + o) width))
      else ∃ t, busAccess host (.read (s.build.regBase + o) width) s = .next t) ∧
    if (o < 0x1000 ∧ (width ≠ 8 ∨ o % 8 ≠ 0)) ∨ (0x0C0 ≤ o ∧ o < 0x1000) ∨
        o ∈ [0x000, 0x008, 0x010, 0x018, 0x048, 0x050, 0x058, 0x060, 0x068, 0x090, 0x098, 0x0A0, 0x0A8, 0x0B0, 0x0B8] ∨
        (0x1000 ≤ o ∧ (width ∉ [1, 2, 4, 8] ∨ o % width ≠ 0 ∨ s.build.keyMax < o - 0x1000 + width))
    then
      busAccess host (.write (s.build.regBase + o) width v) s =
        .fault (.busError host (.write (s.build.regBase + o) width v))
    else ∃ t, busAccess host (.write (s.build.regBase + o) width v) s = .next t

/-- A BITS-window access gives BUSERR exactly in the cases of `20_memory.md` rule R69, and goes through in every
other. -/
def Obligations.BitsWindowBusErrors : Prop :=
  ∀ (s : State) (host o width : Nat) (v : Word), legalBuild s.build → o < bitsSize s.build →
    (if width ∉ [1, 2, 4, 8] ∨ o % width ≠ 0 ∨ s.status.active = false ∨ s.nbytes.toNat < o + width then
        busAccess host (.read (s.build.bitsBase + o) width) s =
          .fault (.busError host (.read (s.build.bitsBase + o) width))
      else ∃ t, busAccess host (.read (s.build.bitsBase + o) width) s = .next t) ∧
    busAccess host (.write (s.build.bitsBase + o) width v) s =
      .fault (.busError host (.write (s.build.bitsBase + o) width v))

/-- The sizes of the two windows, with their values by default (`20_memory.md` rule R60). An address outside both is not
the block's; that the model refuses the access is its choice (log 11). -/
def Obligations.OutsideWindowsRefused : Prop :=
  (∀ b : Config.Build,
      smallestPowerOfTwo (0x1000 + b.keyMax) (regSize b) ∧ smallestPowerOfTwo ((b.maxBits + 7) / 8) (bitsSize b) ∧
        (b.keyMax = 4096 → regSize b = 0x2000) ∧ (b.maxBits = 2 ^ 33 → bitsSize b = 2 ^ 30)) ∧
    ∀ (s : State) (host addr width : Nat) (v : Word),
      (addr < s.build.regBase ∨ s.build.regBase + regSize s.build ≤ addr) →
      (addr < s.build.bitsBase ∨ s.build.bitsBase + bitsSize s.build ≤ addr) →
      busAccess host (.read addr width) s = .refused (.outsideWindows host (.read addr width)) ∧
        busAccess host (.write addr width v) s = .refused (.outsideWindows host (.write addr width v))

/-- A write to CMD while BUSY = 0 is accepted, whatever the word: it latches the word and sets BUSY and does nothing
else; an illegal word completes with ERR_OPCODE; and a STATUS read returns BUSY = 1 until the completion, unless a reset
abandons the command (`20_memory.md` rule R72). -/
def Obligations.CommandAccepted : Prop :=
  (∀ (s : State) (host : Nat) (w : Word), s.status.busy = false →
      ∃ t, busAccess host (stReg s.build .cmd w) s = .next t ∧ t.latch = w ∧
        t.status = { s.status with busy := true } ∧ regsKept [.status] s t ∧ keyBufKept s t ∧ dvalKept s t ∧
        bitsKept s t ∧ t.schedule = s.schedule ∧ t.build = s.build) ∧
    (∀ s : State, completesNext s → decode s.latch = none → ∃ t, step s = .next t ∧ t.status.err = .opcode) ∧
    (∀ s t : State, s.status.busy = true → step s = .next t →
      t.status.busy = true ∨ completesNext s ∨ resetsNext s) ∧
    ∀ (s : State) (reader : Nat), s.status.busy = true →
      ∃ (t : State) (v : Word), busAccess reader (ldReg s.build .status) s = .next t ∧
        t.response = some (.readData reader 8 v) ∧ v.getLsbD 0 = true

/-- While BUSY = 1, a write to CMD, SEED, KEYLEN, CFG_N, CFG_M, CFG_K, CFG_P or KEYBUF is discarded: it changes no
state except WBUSY (`20_memory.md` rule R73). -/
def Obligations.BusyWritesDiscarded : Prop :=
  ∀ (s : State) (host : Nat) (v : Word), s.status.busy = true →
    (∀ r ∈ [Reg.cmd, .seed, .keyLen, .cfgN, .cfgM, .cfgK, .cfgP],
      ∃ t, busAccess host (stReg s.build r v) s = .next t ∧
        t = { s with status := { s.status with wbusy := true }, response := t.response }) ∧
    ∀ (width : Width) (j : Nat), j % width.bytes = 0 → j + width.bytes ≤ s.build.keyMax →
      ∃ t, busAccess host (stKey s.build width j v) s = .next t ∧
        t = { s with status := { s.status with wbusy := true }, response := t.response }

/-- A write to STATUS clears DONE and WBUSY by their bits, a write to IRQEN sets IE, both whether BUSY is 0 or 1, and
both change nothing else (`20_memory.md` rule R74). -/
def Obligations.StatusAndIrqenWritesPerformed : Prop :=
  ∀ (s : State) (host : Nat) (v : Word),
    (∃ t, busAccess host (stReg s.build .status v) s = .next t ∧
      t = { s with
            status :=
              { s.status with
                done := if v.getLsbD 1 = true then false else s.status.done
                wbusy := if v.getLsbD 2 = true then false else s.status.wbusy }
            response := t.response }) ∧
    ∃ t, busAccess host (stReg s.build .irqEn v) s = .next t ∧
      t = { s with irqEnable := v.getLsbD 0, response := t.response } ∧
      (regRead t .irqEn).toNat = if v.getLsbD 0 = true then 1 else 0

/-- With BUSY = 0, a write to a staging register stores what the register holds, SEED its low 32 bits, and changes
nothing else (`20_memory.md` rule R67, `10_state.md` rules R29, R30 and R36 to R39). -/
def Obligations.StagingWritesStore : Prop :=
  ∀ (s : State) (host : Nat) (v : Word), s.status.busy = false →
    ∀ r o, (r, o) ∈ [(Reg.seed, 0x038), (.keyLen, 0x040), (.cfgN, 0x070), (.cfgM, 0x078), (.cfgK, 0x080),
        (.cfgP, 0x088)] →
      ∃ t, busAccess host (.write (s.build.regBase + o) 8 v) s = .next t ∧
        (regRead t r).toNat = (if r = .seed then v.toNat % 2 ^ 32 else v.toNat) ∧ regsKept [r] s t ∧
        keyBufKept s t ∧ dvalKept s t ∧ bitsKept s t ∧ blockKept s t ∧ t.status = s.status ∧ t.draws = s.draws

/-- With BUSY = 0, a legal write to KEYBUF stores the same bytes as the narrow writes that cover it, least significant
byte at the lowest offset, and leaves every other byte (`20_memory.md` rules R62, R63 and R67). -/
def Obligations.KeyBufWriteStoresBytes : Prop :=
  ∀ (s : State) (host j : Nat) (width : Width) (v : Word), s.keyBuf.wf → s.status.busy = false →
    j % width.bytes = 0 → j + width.bytes ≤ s.build.keyMax →
    ∃ t, busAccess host (.write (s.build.regBase + 0x1000 + j) width.bytes v) s = .next t ∧
      (∀ q, q < width.bytes → t.keyBuf.read (j + q) = v.extractLsb' (8 * q) 8) ∧
      (∀ x, x < j ∨ j + width.bytes ≤ x → t.keyBuf.read x = s.keyBuf.read x) ∧ regsKept [] s t ∧ dvalKept s t ∧
      bitsKept s t ∧ blockKept s t ∧ t.status = s.status ∧ t.draws = s.draws

/-! ### The whole machine -/

/-- Every step from a state that meets the invariants of `10_state.md` rules R49 and R53 leads to one that does,
memory's canonical form among them. -/
def Obligations.StepKeepsInvariants : Prop := ∀ s t : State, Inv s → step s = .next t → Inv t

/-- The invariants hold right after reset, for every legal build and for the build of `State.reset`, whatever its free
multiplier and window places are (logs 3 and 4). -/
def Obligations.ResetMeetsInvariants : Prop :=
  Inv State.reset ∧ ∀ b : Config.Build, legalBuild b → Inv (State.resetOf b)

/-- Between a CONFIGURE and the next CONFIGURE, RELEASE or reset, no bit of the filter goes from 1 to 0, and its
parameters stay (`10_state.md` rules R40 and R54). -/
def Obligations.BitsOnlySet : Prop :=
  ∀ s t : State, Inv s → ¬ endsFilter s → step s = .next t →
    (∀ x, x < 8 * s.nbytes.toNat → bitGet s.bits x = true → bitGet t.bits x = true) ∧
      t.status.active = s.status.active ∧ t.n = s.n ∧ t.m = s.m ∧ t.k = s.k ∧ t.p = s.p ∧ t.nbytes = s.nbytes ∧
      t.build = s.build

/-- No false negatives: after an ADD of a key that completed with ERR = 0, every TEST of that key in the same filter
completes with RESULT = 0x1 (`41_bloom_filter.md` rule R183). -/
def Obligations.NoFalseNegatives : Prop :=
  ∀ s added later : State, Inv s → exec .add s = .next added → added.status.err = .ok → SameFilter added later →
    keyBytes later = keyBytes s →
    ∃ t, exec .test later = .next t ∧ t.status.err = .ok ∧ (regRead t .result).toNat = 1

/-- What no access can observe never matters: a step does the same, in everything observable, whatever BITARRAY holds
outside the active filter and whatever LATCH holds while BUSY = 0 (`10_state.md` rules R48 and R51). -/
def Obligations.UnobservableStateNeverMatters : Prop :=
  ∀ s : State, Inv s → visibleOutcome (step s) = visibleOutcome (step (visible s))

/-- Only ADD, CONFIGURE and reset change BITARRAY; TEST, HASH128, DERIVE, RELEASE, ILLEGAL words and host accesses
leave every byte as it was (`41_bloom_filter.md` rule R184). -/
def Obligations.BitArrayWriters : Prop :=
  ∀ s t : State, step s = .next t → ¬ bitsKept s t →
    completesInstr s .add ∨ completesInstr s .configure ∨ resetsNext s

/-- Who writes each register: results have one owner, the filter's registers CONFIGURE, RELEASE and ADD, the staging
registers their host writes, and DVAL DERIVE (`10_state.md` rules R28 to R34 and R36 to R46). That LATCH changes only at
a CMD write, and so keeps its word after the completion, is deduced from rules R51 and R72 (log 13). -/
def Obligations.RegisterWriters : Prop :=
  ∀ s t : State, step s = .next t → ¬ resetsNext s →
    ((t.h1 ≠ s.h1 ∨ t.h2 ≠ s.h2) → completesInstr s .hash128) ∧
      ((t.dcount ≠ s.dcount ∨ t.dval ≠ s.dval) → ∃ c, completesInstr s (.derive c)) ∧
      (t.result ≠ s.result → completesInstr s .add ∨ completesInstr s .test) ∧
      ((t.n ≠ s.n ∨ t.m ≠ s.m ∨ t.k ≠ s.k ∨ t.p ≠ s.p ∨ t.nbytes ≠ s.nbytes) →
        completesInstr s .configure ∨ completesInstr s .release) ∧
      (t.inserted ≠ s.inserted →
        completesInstr s .add ∨ completesInstr s .configure ∨ completesInstr s .release) ∧
      (t.keyLen ≠ s.keyLen → (∃ v, writesReg s .keyLen v) ∨ ∃ i, consumesKey i ∧ completesInstr s i) ∧
      (t.seed ≠ s.seed → ∃ v, writesReg s .seed v) ∧ (t.irqEnable ≠ s.irqEnable → ∃ v, writesReg s .irqEn v) ∧
      (t.cfgN ≠ s.cfgN → ∃ v, writesReg s .cfgN v) ∧ (t.cfgM ≠ s.cfgM → ∃ v, writesReg s .cfgM v) ∧
      (t.cfgK ≠ s.cfgK → ∃ v, writesReg s .cfgK v) ∧ (t.cfgP ≠ s.cfgP → ∃ v, writesReg s .cfgP v) ∧
      (t.latch ≠ s.latch → ∃ v, writesReg s .cmd v)

/-- When the fields of STATUS and ERRINFO change (`10_state.md` rules R27 and R35): ERR, LASTOP and ERRINFO only at a
completion, ACTIVE only at the completion of CONFIGURE or RELEASE, BUSY only at an acceptance and a completion, and
each at a reset. -/
def Obligations.StatusChangesOnlyAt : Prop :=
  ∀ s t : State, step s = .next t → ¬ resetsNext s →
    ((t.status.err ≠ s.status.err ∨ t.status.lastOp ≠ s.status.lastOp ∨ t.errInfo ≠ s.errInfo) → completesNext s) ∧
      (t.status.active ≠ s.status.active → completesInstr s .configure ∨ completesInstr s .release) ∧
      (s.status.busy = false → t.status.busy = true → ∃ w, writesReg s .cmd w) ∧
      (s.status.busy = true → (t.status.busy = false ↔ completesNext s))

/-- DONE is sticky: every completion sets it, nothing else does, and only a W1C write or reset clears it. It counts
nothing, and ERR, LASTOP and ERRINFO describe the latest completion, whatever the one before left
(`60_exceptions.md` rule R230). -/
def Obligations.DoneIsSticky : Prop :=
  (∀ s t : State, step s = .next t →
      (completesNext s → t.status.done = true ∧ t.status.lastOp = s.latch.extractLsb' 0 8) ∧
        (t.status.done = true → s.status.done = true ∨ completesNext s) ∧
        (s.status.done = true → t.status.done = false →
          resetsNext s ∨ ∃ v : Word, writesReg s .status v ∧ v.getLsbD 1 = true)) ∧
    ∀ (s : State) (done : Bool) (err : ErrCode) (op : Byte) (info : Word), completesNext s →
      step { s with status := { s.status with done := done, err := err, lastOp := op }, errInfo := info } = step s

/-- WBUSY is sticky: a write that BUSY = 1 discards sets it, nothing else does, and only a W1C write or reset clears
it (`60_exceptions.md` rule R231). -/
def Obligations.WbusyIsSticky : Prop :=
  ∀ s t : State, step s = .next t →
    (s.status.busy = true →
      (∃ r ∈ [Reg.cmd, .seed, .keyLen, .cfgN, .cfgM, .cfgK, .cfgP], ∃ v, writesReg s r v) ∨
          (∃ host j width v, nextEvent s = .access host (.write (s.build.regBase + 0x1000 + j) width v) ∧
            j + width ≤ s.build.keyMax) →
        t.status.wbusy = true) ∧
      (s.status.wbusy = false → t.status.wbusy = true →
        s.status.busy = true ∧
          ((∃ r ∈ [Reg.cmd, .seed, .keyLen, .cfgN, .cfgM, .cfgK, .cfgP], ∃ v, writesReg s r v) ∨
            ∃ host j width v, nextEvent s = .access host (.write (s.build.regBase + 0x1000 + j) width v) ∧
              j + width ≤ s.build.keyMax)) ∧
      (s.status.wbusy = true → t.status.wbusy = false →
        resetsNext s ∨ ∃ v : Word, writesReg s .status v ∧ v.getLsbD 2 = true)

/-- IRQ is the level DONE AND IE (`60_exceptions.md` rule R229): a completion raises it exactly while IE = 1, a write
to IRQEN or STATUS moves it by the bits it writes, and nothing else but a reset changes it. -/
def Obligations.IrqIsLevel : Prop :=
  (∀ s : State, irq s = true ↔ s.status.done = true ∧ s.irqEnable = true) ∧
    ∀ s t : State, step s = .next t →
      (completesNext s → irq t = s.irqEnable) ∧
        (∀ v : Word, writesReg s .irqEn v → irq t = (s.status.done && v.getLsbD 0)) ∧
        (∀ v : Word, writesReg s .status v → irq t = (irq s && !v.getLsbD 1)) ∧
        (irq s = false → irq t = true →
          (completesNext s ∧ s.irqEnable = true) ∨
            ∃ v : Word, writesReg s .irqEn v ∧ v.getLsbD 0 = true ∧ s.status.done = true) ∧
        (irq s = true → irq t = false →
          resetsNext s ∨ (∃ v : Word, writesReg s .status v ∧ v.getLsbD 1 = true) ∨
            ∃ v : Word, writesReg s .irqEn v ∧ v.getLsbD 0 = false)

/-- ID, PARAM, MAXBITS and MULT are constant: no step changes them, a reset neither. In a legal build ID is its
constant, PARAM and MAXBITS hold `K_MAX`, `KEY_MAX` and `MAX_BITS`, and MULT holds `DERIVE_MULT`, which is odd
(`10_state.md` rules R22 to R25). -/
def Obligations.ConstantRegisters : Prop :=
  (∀ s t : State, step s = .next t →
      t.build = s.build ∧ ∀ r ∈ [Reg.id, .param, .maxBits, .mult], regRead t r = regRead s r) ∧
    ∀ s : State, legalBuild s.build →
      regRead s .id = 0x000000014642334D ∧ regRead s .mult = s.build.deriveMult ∧
        (regRead s .mult).getLsbD 0 = true ∧ (regRead s .maxBits).toNat = s.build.maxBits ∧
        ((regRead s .param).extractLsb' 0 16).toNat = s.build.kMax ∧
        ((regRead s .param).extractLsb' 16 32).toNat = s.build.keyMax

/-- Reset at any time, a command running or not, leaves every register but the constants 0, every entry of DVAL and
byte of KEYBUF 0, no filter, IRQ 0, and every BITS read a BUSERR; so does `State.reset`
(`70_reset_and_hazards.md` rules R261 and R262). What BITARRAY and LATCH hold is not said (logs 5 and 6). -/
def Obligations.ResetClears : Prop :=
  (∀ (s : State) (inFlight : Option (Nat × Access)), nextEvent s = .reset inFlight →
      ∃ t, step s = .next t ∧ t.build = s.build ∧
        (∀ r, r ∉ [Reg.id, .param, .maxBits, .mult] → regRead t r = 0) ∧
        t.dval = List.replicate s.build.kMax 0 ∧ (∀ j, t.keyBuf.read j = 0) ∧ t.status.active = false ∧
        irq t = false ∧
        ∀ host o width, legalBuild s.build → o < bitsSize s.build →
          busAccess host (.read (s.build.bitsBase + o) width) t =
            .fault (.busError host (.read (s.build.bitsBase + o) width))) ∧
    (∀ r, r ∉ [Reg.id, .param, .maxBits, .mult] → regRead State.reset r = 0) ∧
    State.reset.dval = List.replicate State.reset.build.kMax 0 ∧ (∀ j, State.reset.keyBuf.read j = 0) ∧
    irq State.reset = false

/-- Between acceptance and completion, no architectural state changes except by STATUS and IRQEN writes and WBUSY: a
host access while BUSY = 1 leaves everything else (`70_reset_and_hazards.md` rule R266). -/
def Obligations.NothingChangesWhileBusy : Prop :=
  ∀ (s t : State) (host : Nat) (a : Access), s.status.busy = true → nextEvent s = .access host a → step s = .next t →
    t = { afterEvent s with
          status := { s.status with done := t.status.done, wbusy := t.status.wbusy }
          irqEnable := t.irqEnable
          response := t.response
          draws := t.draws }

/-- INSERTED never falls in one filter's life, rises by at most 1, only at an ADD that reports NEW, and never wraps
(`41_bloom_filter.md` rule R182). -/
def Obligations.InsertedNeverFalls : Prop :=
  ∀ s t : State, Inv s → ¬ endsFilter s → step s = .next t →
    s.inserted.toNat ≤ t.inserted.toNat ∧ t.inserted.toNat ≤ s.inserted.toNat + 1 ∧
      (t.inserted ≠ s.inserted → completesInstr s .add ∧ t.result.isNew = true) ∧
      (completesInstr s .add → t.status.err = .ok → t.result.isNew = true → s.inserted.toNat < 2 ^ 64 - 1 →
        t.inserted.toNat = s.inserted.toNat + 1)
end

