-- ==== Sys2Proof/Laws/Memory.lean ====
section
/-! SUPPORT. The laws of memory: reads after writes, and that every memory operation keeps the canonical form. -/

namespace Sys2Proof.Machine.Memory

/-! ### Reads -/

@[simp] theorem read_nil (x : Nat) : Memory.read [] x = 0 := rfl

theorem read_cons_lt {a : Nat} {b : Byte} {rest : Memory} {x : Nat} (h : x < a) :
    Memory.read ((a, b) :: rest) x = 0 := by simp [Memory.read, h]

theorem read_cons_self {a : Nat} {b : Byte} {rest : Memory} : Memory.read ((a, b) :: rest) a = b := by
  simp [Memory.read]

theorem read_cons_gt {a : Nat} {b : Byte} {rest : Memory} {x : Nat} (h : a < x) :
    Memory.read ((a, b) :: rest) x = Memory.read rest x := by
  simp [Memory.read, Nat.not_lt.mpr h.le, h.ne']

/-- A memory listed only above `x` reads 0 at `x`. -/
theorem read_eq_zero_of_below {mem : Memory} {x : Nat} (h : ∀ c ∈ mem, x < c.1) : mem.read x = 0 := by
  cases mem with
  | nil => rfl
  | cons c rest => exact read_cons_lt (h c (by simp))

/-! ### The canonical form -/

theorem wf_nil : Memory.wf [] := by simp [Memory.wf]

theorem wf_cons {a : Nat} {b : Byte} {rest : Memory} :
    Memory.wf ((a, b) :: rest) ↔ (∀ c ∈ rest, a < c.1) ∧ b ≠ 0 ∧ Memory.wf rest := by
  simp only [Memory.wf, List.pairwise_cons, List.forall_mem_cons]
  tauto

/-- `Memory.cons` adds at most the cell it is given. -/
theorem mem_cons_imp {x : Nat} {v : Byte} {mem : Memory} {c : Host.Cell} (h : c ∈ Memory.cons x v mem) :
    c = (x, v) ∨ c ∈ mem := by
  unfold Memory.cons at h
  split at h <;> simp_all

theorem cons_wf {x : Nat} {v : Byte} {mem : Memory} (hx : ∀ c ∈ mem, x < c.1) (h : mem.wf) :
    Memory.wf (Memory.cons x v mem) := by
  unfold Memory.cons
  split
  · exact h
  · exact wf_cons.mpr ⟨hx, by assumption, h⟩

/-- Every cell after a write is the written one or was there before. -/
theorem mem_write_imp {mem : Memory} {x : Nat} {v : Byte} {c : Host.Cell} (h : c ∈ mem.write x v) :
    c = (x, v) ∨ c ∈ mem := by
  induction mem with
  | nil => exact mem_cons_imp h
  | cons d rest ih =>
    obtain ⟨a, b⟩ := d
    simp only [Memory.write] at h
    split at h
    · exact mem_cons_imp h
    · split at h
      · rcases mem_cons_imp h with h | h <;> simp [h]
      · rcases List.mem_cons.mp h with h | h
        · simp [h]
        · rcases ih h with h | h <;> simp [h]

/-- A write keeps the canonical form. -/
theorem write_wf {mem : Memory} (h : mem.wf) (x : Nat) (v : Byte) : (mem.write x v).wf := by
  induction mem with
  | nil => exact cons_wf (by simp) wf_nil
  | cons d rest ih =>
    obtain ⟨a, b⟩ := d
    obtain ⟨ha, hb, hr⟩ := wf_cons.mp h
    simp only [Memory.write]
    split
    next hlt =>
      refine cons_wf ?_ h
      rintro c hc
      rcases List.mem_cons.mp hc with rfl | hc
      · exact hlt
      · exact hlt.trans (ha c hc)
    next hge =>
      split
      next heq => exact cons_wf (heq ▸ ha) hr
      next hne =>
        refine wf_cons.mpr ⟨?_, hb, ih hr⟩
        intro c hc
        rcases mem_write_imp hc with rfl | hc
        · exact lt_of_le_of_ne (Nat.not_lt.mp hge) (Ne.symm hne)
        · exact ha c hc

/-- A write inside a range keeps every listed byte inside it. -/
theorem write_within {mem : Memory} {size x : Nat} (h : mem.within size) (hx : x < size) (v : Byte) :
    (mem.write x v).within size := by
  intro c hc
  rcases mem_write_imp hc with rfl | hc
  · exact hx
  · exact h c hc

/-! ### Reads after writes -/

theorem read_cons_other {x y : Nat} {v : Byte} {mem : Memory} (hx : ∀ c ∈ mem, x < c.1) (h : y ≠ x) :
    (Memory.cons x v mem).read y = mem.read y := by
  unfold Memory.cons
  split
  · rfl
  · rcases Nat.lt_or_gt_of_ne h with h | h
    · rw [read_cons_lt h, read_eq_zero_of_below fun c hc => h.trans (hx c hc)]
    · exact read_cons_gt h

theorem read_memory_cons_self {x : Nat} {v : Byte} {mem : Memory} (hx : ∀ c ∈ mem, x < c.1) :
    (Memory.cons x v mem).read x = v := by
  unfold Memory.cons
  split
  next h => rw [h, read_eq_zero_of_below hx]
  · exact read_cons_self

/-- A read after a write to the same byte gives what was written. -/
theorem read_write_same {mem : Memory} (h : mem.wf) (x : Nat) (v : Byte) : (mem.write x v).read x = v := by
  induction mem with
  | nil => exact read_memory_cons_self (by simp)
  | cons d rest ih =>
    obtain ⟨a, b⟩ := d
    obtain ⟨ha, _, hr⟩ := wf_cons.mp h
    simp only [Memory.write]
    split
    next hlt =>
      refine read_memory_cons_self ?_
      rintro c hc
      rcases List.mem_cons.mp hc with rfl | hc
      · exact hlt
      · exact hlt.trans (ha c hc)
    next hge =>
      split
      next heq => exact read_memory_cons_self (heq ▸ ha)
      next hne => rw [read_cons_gt (lt_of_le_of_ne (Nat.not_lt.mp hge) (Ne.symm hne)), ih hr]

/-- A write leaves every other byte alone. -/
theorem read_write_other {mem : Memory} (h : mem.wf) {x y : Nat} (v : Byte) (hne : y ≠ x) :
    (mem.write x v).read y = mem.read y := by
  induction mem with
  | nil => exact read_cons_other (by simp) hne
  | cons d rest ih =>
    obtain ⟨a, b⟩ := d
    obtain ⟨ha, _, hr⟩ := wf_cons.mp h
    simp only [Memory.write]
    split
    next hlt =>
      refine read_cons_other ?_ hne
      rintro c hc
      rcases List.mem_cons.mp hc with rfl | hc
      · exact hlt
      · exact hlt.trans (ha c hc)
    next hge =>
      split
      next heq =>
        subst heq
        rw [read_cons_other ha hne]
        rcases Nat.lt_or_gt_of_ne hne with hlt | hgt
        · rw [read_cons_lt hlt, read_eq_zero_of_below fun c hc => hlt.trans (ha c hc)]
        · rw [read_cons_gt hgt]
      next hne' =>
        simp only [Memory.read]
        split
        · rfl
        · split
          · rfl
          · exact ih hr

/-- A read after a write, in one line. -/
theorem read_write {mem : Memory} (h : mem.wf) (x y : Nat) (v : Byte) :
    (mem.write x v).read y = if y = x then v else mem.read y := by
  split
  next heq => rw [heq, read_write_same h]
  next hne => exact read_write_other h v hne

/-! ### Wide accesses -/

theorem writeWide_wf {mem : Memory} (h : mem.wf) (x : Nat) (v : Word) (width : Nat) :
    (mem.writeWide x v width).wf := by
  induction width with
  | zero => exact h
  | succ t ih => exact write_wf ih _ _

theorem writeWide_within {mem : Memory} {size x : Nat} (h : mem.within size) (v : Word) {width : Nat}
    (hx : x + width ≤ size) : (mem.writeWide x v width).within size := by
  induction width with
  | zero => exact h
  | succ t ih => exact write_within (ih (by omega)) (by omega) _

/-- What a wide write leaves: its own bytes, and every other byte as it was. -/
theorem read_writeWide {mem : Memory} (h : mem.wf) (x : Nat) (v : Word) (width y : Nat) :
    (mem.writeWide x v width).read y =
      if x ≤ y ∧ y < x + width then leByte v (y - x) else mem.read y := by
  induction width with
  | zero => simp [Memory.writeWide]
  | succ t ih =>
    rw [Memory.writeWide, read_write (writeWide_wf h x v t), ih]
    by_cases hy : y = x + t
    · subst hy; simp
    · rw [if_neg hy]
      congr 1
      simp only [eq_iff_iff]
      omega

/-! ### Clearing and building -/

theorem filter_wf {mem : Memory} (h : mem.wf) (keep : Host.Cell → Bool) : Memory.wf (mem.filter keep) :=
  ⟨h.1.filter keep, fun c hc => h.2 c (List.mem_of_mem_filter hc)⟩

/-- A memory filtered by address reads as before where the address is kept, and 0 elsewhere. -/
theorem read_filter {mem : Memory} (h : mem.wf) (keep : Nat → Bool) (x : Nat) :
    Memory.read (mem.filter (fun c => keep c.1)) x = if keep x then mem.read x else 0 := by
  induction mem with
  | nil => simp
  | cons d rest ih =>
    obtain ⟨a, b⟩ := d
    obtain ⟨ha, _, hr⟩ := wf_cons.mp h
    have ih := ih hr
    rw [List.filter_cons]
    rcases lt_trichotomy x a with hlt | rfl | hgt
    · rw [read_eq_zero_of_below (mem := ite _ _ _), read_cons_lt hlt, ite_self]
      intro c hc
      split at hc
      · rcases List.mem_cons.mp hc with rfl | hc
        · exact hlt
        · exact hlt.trans (ha c (List.mem_of_mem_filter hc))
      · exact hlt.trans (ha c (List.mem_of_mem_filter hc))
    · by_cases hk : keep x = true
      · simp [hk, read_cons_self]
      · rw [if_neg hk, if_neg hk, ih, if_neg hk]
    · rw [read_cons_gt hgt, ← ih]
      split
      · rw [read_cons_gt hgt]
      · rfl

theorem zeroBelow_wf {mem : Memory} (h : mem.wf) (size : Nat) : (mem.zeroBelow size).wf := filter_wf h _

/-- CONFIGURE's clearing: 0 below `size`, and every other byte as it was. -/
theorem read_zeroBelow {mem : Memory} (h : mem.wf) (size x : Nat) :
    (mem.zeroBelow size).read x = if size ≤ x then mem.read x else 0 := by
  simpa [Memory.zeroBelow] using read_filter h (fun a => decide (size ≤ a)) x

theorem zeroBelow_within {mem : Memory} {size : Nat} (h : mem.within size) (below : Nat) :
    (mem.zeroBelow below).within size := fun c hc => h c (List.mem_of_mem_filter hc)

theorem foldl_write_keeps {size : Nat} (cells : List Host.Cell) (hc : ∀ c ∈ cells, c.1 < size) (mem : Memory)
    (h : mem.wf ∧ mem.within size) :
    Memory.wf (cells.foldl (fun mem c => Memory.write mem c.1 c.2) mem) ∧
      Memory.within size (cells.foldl (fun mem c => Memory.write mem c.1 c.2) mem) := by
  induction cells generalizing mem with
  | nil => exact h
  | cons c rest ih =>
    exact ih (fun d hd => hc d (by simp [hd])) _ ⟨write_wf h.1 _ _, write_within h.2 (hc c (by simp)) _⟩

/-- The memory of a list of cells is canonical and lies below its size. -/
theorem ofCells_keeps (size : Nat) (cells : List Host.Cell) :
    (Memory.ofCells size cells).wf ∧ (Memory.ofCells size cells).within size :=
  foldl_write_keeps _ (fun c hc => by simpa using (List.mem_filter.mp hc).2) [] ⟨wf_nil, by simp⟩

/-! ### Equal memories are equal data -/

/-- Two canonical memories that read alike are the same. -/
theorem ext_read {a b : Memory} (ha : a.wf) (hb : b.wf) (h : ∀ x, a.read x = b.read x) : a = b := by
  induction a generalizing b with
  | nil =>
    cases b with
    | nil => rfl
    | cons d q =>
      have h0 := h d.1
      rw [read_cons_self] at h0
      exact absurd h0.symm (wf_cons.mp hb).2.1
  | cons c r ih =>
    obtain ⟨x, v⟩ := c
    obtain ⟨h1, h2, h3⟩ := wf_cons.mp ha
    cases b with
    | nil =>
      have h0 := h x
      rw [read_cons_self] at h0
      exact absurd h0 h2
    | cons d q =>
      obtain ⟨y, w⟩ := d
      obtain ⟨k1, k2, k3⟩ := wf_cons.mp hb
      obtain rfl : x = y := by
        rcases lt_trichotomy x y with hl | rfl | hl
        · have h0 := h x
          rw [read_cons_self, read_cons_lt hl] at h0
          exact absurd h0 h2
        · rfl
        · have h0 := h y
          rw [read_cons_self, read_cons_lt hl] at h0
          exact absurd h0.symm k2
      have hv := h x
      rw [read_cons_self, read_cons_self] at hv
      rw [hv, ih h3 k3]
      intro z
      rcases lt_or_ge x z with hl | hl
      · have hz := h z
        rwa [read_cons_gt hl, read_cons_gt hl] at hz
      · rw [read_eq_zero_of_below fun c hc => hl.trans_lt (h1 c hc),
          read_eq_zero_of_below fun c hc => hl.trans_lt (k1 c hc)]

end Sys2Proof.Machine.Memory
end

