-- ==== Sys2Proof/Laws/Bits.lean ====
section
/-! SUPPORT. The laws of bytes within words and of bits within bytes. -/

namespace Sys2Proof.Machine

/-- The bit that `bitSet` sets, and no other. -/
theorem bitGet_bitSet {mem : Memory} (h : mem.wf) (x y : Nat) :
    bitGet (bitSet mem x) y = (decide (y = x) || bitGet mem y) := by
  unfold bitGet bitSet
  rw [Memory.read_write h]
  simp only [Nat.shiftRight_eq_div_pow]
  by_cases hd : y / 2 ^ 3 = x / 2 ^ 3
  · rw [if_pos hd, BitVec.getLsbD_or, hd, Bool.or_comm]
    congr 1
    have hy : y % 8 < 8 := Nat.mod_lt _ (by decide)
    by_cases hxy : y = x
    · subst hxy; simp [hy]
    · have : y % 8 ≠ x % 8 := by omega
      have hone : (1#8).getLsbD (y % 8 - x % 8) = decide (y % 8 - x % 8 = 0) := by
        rw [BitVec.getLsbD_one]; simp
      simp only [BitVec.getLsbD_shiftLeft, hone]
      simp [hxy, hy]
      omega
  · rw [if_neg hd]
    have : y ≠ x := by rintro rfl; exact hd rfl
    simp [this]

theorem bitSet_wf {mem : Memory} (h : mem.wf) (x : Nat) : (bitSet mem x).wf := Memory.write_wf h _ _

/-- Bit `i` of a little-endian sum is bit `i % 8` of byte `i / 8`. -/
theorem getLsbD_leSum (byte : Nat → Byte) {width : Nat} (hw : width ≤ 8) (i : Nat) :
    (leSum byte width).getLsbD i = (decide (i < 8 * width) && (byte (i / 8)).getLsbD (i % 8)) := by
  induction width generalizing i with
  | zero => simp [leSum]
  | succ t ih =>
    have ih := ih (by omega)
    have hdisjoint : leSum byte t &&& (byte t).setWidth 64 <<< (8 * t) = 0 := by
      ext j hj
      simp only [BitVec.getElem_and, BitVec.getElem_shiftLeft]
      rw [← BitVec.getLsbD_eq_getElem hj, ih j]
      by_cases hjt : j < 8 * t <;> simp [hjt]
    rw [leSum, BitVec.add_eq_or_of_and_eq_zero _ _ hdisjoint, BitVec.getLsbD_or, ih i, BitVec.getLsbD_shiftLeft,
      BitVec.getLsbD_setWidth]
    by_cases h64 : i < 64
    · by_cases hit : i < 8 * t
      · have : i < 8 * (t + 1) := by omega
        simp [hit, this]
      · by_cases hit' : i < 8 * (t + 1)
        · have h1 : i / 8 = t := by omega
          have h2 : i % 8 = i - 8 * t := by omega
          have h3 : i - 8 * t < 64 := by omega
          simp [hit, hit', h64, h1, h2, h3]
        · have : ¬ i - 8 * t < 8 := by omega
          simp [hit, hit', BitVec.getLsbD_of_ge _ _ (Nat.not_lt.mp this)]
    · have h1 : ¬ i < 8 * t := by omega
      have h2 : ¬ i < 8 * (t + 1) := by omega
      simp [h64, h1, h2]

/-- Byte `t` of a little-endian sum is the byte it was made of. -/
theorem leByte_leSum (byte : Nat → Byte) {width t : Nat} (hw : width ≤ 8) (ht : t < width) :
    leByte (leSum byte width) t = byte t := by
  ext j hj
  have h1 : 8 * t + j < 8 * width := by omega
  have h2 : (8 * t + j) / 8 = t := by omega
  have h3 : (8 * t + j) % 8 = j := by omega
  rw [← BitVec.getLsbD_eq_getElem hj, leByte, BitVec.getLsbD_extractLsb', getLsbD_leSum byte hw]
  simp [hj, h1, h2, h3]

end Sys2Proof.Machine
end

