-- ==== Sys2Proof/Laws/State.lean ====
section
/-! SUPPORT. One lemma per field per named update of State, so that no proof unfolds a record update. -/

namespace Sys2Proof.Machine

variable (s : State)

/-! ### `complete`: Complete (`60_exceptions.md` rule R222) -/

@[simp] theorem complete_build (op : Byte) (code : ErrCode) (info : Word) :
    (complete op code info s).build = s.build := rfl
@[simp] theorem complete_status (op : Byte) (code : ErrCode) (info : Word) :
    (complete op code info s).status = { s.status with err := code, lastOp := op, done := true, busy := false } := rfl
@[simp] theorem complete_irqEnable (op : Byte) (code : ErrCode) (info : Word) :
    (complete op code info s).irqEnable = s.irqEnable := rfl
@[simp] theorem complete_seed (op : Byte) (code : ErrCode) (info : Word) :
    (complete op code info s).seed = s.seed := rfl
@[simp] theorem complete_keyLen (op : Byte) (code : ErrCode) (info : Word) :
    (complete op code info s).keyLen = s.keyLen := rfl
@[simp] theorem complete_h1 (op : Byte) (code : ErrCode) (info : Word) : (complete op code info s).h1 = s.h1 := rfl
@[simp] theorem complete_h2 (op : Byte) (code : ErrCode) (info : Word) : (complete op code info s).h2 = s.h2 := rfl
@[simp] theorem complete_dcount (op : Byte) (code : ErrCode) (info : Word) :
    (complete op code info s).dcount = s.dcount := rfl
@[simp] theorem complete_result (op : Byte) (code : ErrCode) (info : Word) :
    (complete op code info s).result = s.result := rfl
@[simp] theorem complete_errInfo (op : Byte) (code : ErrCode) (info : Word) :
    (complete op code info s).errInfo = info := rfl
@[simp] theorem complete_cfgN (op : Byte) (code : ErrCode) (info : Word) :
    (complete op code info s).cfgN = s.cfgN := rfl
@[simp] theorem complete_cfgM (op : Byte) (code : ErrCode) (info : Word) :
    (complete op code info s).cfgM = s.cfgM := rfl
@[simp] theorem complete_cfgK (op : Byte) (code : ErrCode) (info : Word) :
    (complete op code info s).cfgK = s.cfgK := rfl
@[simp] theorem complete_cfgP (op : Byte) (code : ErrCode) (info : Word) :
    (complete op code info s).cfgP = s.cfgP := rfl
@[simp] theorem complete_n (op : Byte) (code : ErrCode) (info : Word) : (complete op code info s).n = s.n := rfl
@[simp] theorem complete_m (op : Byte) (code : ErrCode) (info : Word) : (complete op code info s).m = s.m := rfl
@[simp] theorem complete_k (op : Byte) (code : ErrCode) (info : Word) : (complete op code info s).k = s.k := rfl
@[simp] theorem complete_p (op : Byte) (code : ErrCode) (info : Word) : (complete op code info s).p = s.p := rfl
@[simp] theorem complete_nbytes (op : Byte) (code : ErrCode) (info : Word) :
    (complete op code info s).nbytes = s.nbytes := rfl
@[simp] theorem complete_inserted (op : Byte) (code : ErrCode) (info : Word) :
    (complete op code info s).inserted = s.inserted := rfl
@[simp] theorem complete_dval (op : Byte) (code : ErrCode) (info : Word) :
    (complete op code info s).dval = s.dval := rfl
@[simp] theorem complete_keyBuf (op : Byte) (code : ErrCode) (info : Word) :
    (complete op code info s).keyBuf = s.keyBuf := rfl
@[simp] theorem complete_bits (op : Byte) (code : ErrCode) (info : Word) :
    (complete op code info s).bits = s.bits := rfl
@[simp] theorem complete_latch (op : Byte) (code : ErrCode) (info : Word) :
    (complete op code info s).latch = s.latch := rfl
@[simp] theorem complete_schedule (op : Byte) (code : ErrCode) (info : Word) :
    (complete op code info s).schedule = s.schedule := rfl
@[simp] theorem complete_response (op : Byte) (code : ErrCode) (info : Word) :
    (complete op code info s).response = s.response := rfl
@[simp] theorem complete_draws (op : Byte) (code : ErrCode) (info : Word) :
    (complete op code info s).draws = s.draws := rfl

/-! ### `clearKey`: ClearKey (`40_hash_engine.md` rule R138) -/

@[simp] theorem clearKey_build : (clearKey s).build = s.build := rfl
@[simp] theorem clearKey_status : (clearKey s).status = s.status := rfl
@[simp] theorem clearKey_irqEnable : (clearKey s).irqEnable = s.irqEnable := rfl
@[simp] theorem clearKey_seed : (clearKey s).seed = s.seed := rfl
@[simp] theorem clearKey_keyLen : (clearKey s).keyLen = 0 := rfl
@[simp] theorem clearKey_h1 : (clearKey s).h1 = s.h1 := rfl
@[simp] theorem clearKey_h2 : (clearKey s).h2 = s.h2 := rfl
@[simp] theorem clearKey_dcount : (clearKey s).dcount = s.dcount := rfl
@[simp] theorem clearKey_result : (clearKey s).result = s.result := rfl
@[simp] theorem clearKey_errInfo : (clearKey s).errInfo = s.errInfo := rfl
@[simp] theorem clearKey_cfgN : (clearKey s).cfgN = s.cfgN := rfl
@[simp] theorem clearKey_cfgM : (clearKey s).cfgM = s.cfgM := rfl
@[simp] theorem clearKey_cfgK : (clearKey s).cfgK = s.cfgK := rfl
@[simp] theorem clearKey_cfgP : (clearKey s).cfgP = s.cfgP := rfl
@[simp] theorem clearKey_n : (clearKey s).n = s.n := rfl
@[simp] theorem clearKey_m : (clearKey s).m = s.m := rfl
@[simp] theorem clearKey_k : (clearKey s).k = s.k := rfl
@[simp] theorem clearKey_p : (clearKey s).p = s.p := rfl
@[simp] theorem clearKey_nbytes : (clearKey s).nbytes = s.nbytes := rfl
@[simp] theorem clearKey_inserted : (clearKey s).inserted = s.inserted := rfl
@[simp] theorem clearKey_dval : (clearKey s).dval = s.dval := rfl
@[simp] theorem clearKey_keyBuf : (clearKey s).keyBuf = [] := rfl
@[simp] theorem clearKey_bits : (clearKey s).bits = s.bits := rfl
@[simp] theorem clearKey_latch : (clearKey s).latch = s.latch := rfl
@[simp] theorem clearKey_schedule : (clearKey s).schedule = s.schedule := rfl
@[simp] theorem clearKey_response : (clearKey s).response = s.response := rfl
@[simp] theorem clearKey_draws : (clearKey s).draws = s.draws := rfl

/-! ### `respond`: the end of a read -/

@[simp] theorem respond_build (host width : Nat) (v : Word) : (respond host width v s).build = s.build := rfl
@[simp] theorem respond_status (host width : Nat) (v : Word) : (respond host width v s).status = s.status := rfl
@[simp] theorem respond_irqEnable (host width : Nat) (v : Word) :
    (respond host width v s).irqEnable = s.irqEnable := rfl
@[simp] theorem respond_seed (host width : Nat) (v : Word) : (respond host width v s).seed = s.seed := rfl
@[simp] theorem respond_keyLen (host width : Nat) (v : Word) : (respond host width v s).keyLen = s.keyLen := rfl
@[simp] theorem respond_h1 (host width : Nat) (v : Word) : (respond host width v s).h1 = s.h1 := rfl
@[simp] theorem respond_h2 (host width : Nat) (v : Word) : (respond host width v s).h2 = s.h2 := rfl
@[simp] theorem respond_dcount (host width : Nat) (v : Word) : (respond host width v s).dcount = s.dcount := rfl
@[simp] theorem respond_result (host width : Nat) (v : Word) : (respond host width v s).result = s.result := rfl
@[simp] theorem respond_errInfo (host width : Nat) (v : Word) : (respond host width v s).errInfo = s.errInfo := rfl
@[simp] theorem respond_cfgN (host width : Nat) (v : Word) : (respond host width v s).cfgN = s.cfgN := rfl
@[simp] theorem respond_cfgM (host width : Nat) (v : Word) : (respond host width v s).cfgM = s.cfgM := rfl
@[simp] theorem respond_cfgK (host width : Nat) (v : Word) : (respond host width v s).cfgK = s.cfgK := rfl
@[simp] theorem respond_cfgP (host width : Nat) (v : Word) : (respond host width v s).cfgP = s.cfgP := rfl
@[simp] theorem respond_n (host width : Nat) (v : Word) : (respond host width v s).n = s.n := rfl
@[simp] theorem respond_m (host width : Nat) (v : Word) : (respond host width v s).m = s.m := rfl
@[simp] theorem respond_k (host width : Nat) (v : Word) : (respond host width v s).k = s.k := rfl
@[simp] theorem respond_p (host width : Nat) (v : Word) : (respond host width v s).p = s.p := rfl
@[simp] theorem respond_nbytes (host width : Nat) (v : Word) : (respond host width v s).nbytes = s.nbytes := rfl
@[simp] theorem respond_inserted (host width : Nat) (v : Word) : (respond host width v s).inserted = s.inserted := rfl
@[simp] theorem respond_dval (host width : Nat) (v : Word) : (respond host width v s).dval = s.dval := rfl
@[simp] theorem respond_keyBuf (host width : Nat) (v : Word) : (respond host width v s).keyBuf = s.keyBuf := rfl
@[simp] theorem respond_bits (host width : Nat) (v : Word) : (respond host width v s).bits = s.bits := rfl
@[simp] theorem respond_latch (host width : Nat) (v : Word) : (respond host width v s).latch = s.latch := rfl
@[simp] theorem respond_schedule (host width : Nat) (v : Word) : (respond host width v s).schedule = s.schedule := rfl
@[simp] theorem respond_response (host width : Nat) (v : Word) :
    (respond host width v s).response = some (.readData host width v) := rfl
@[simp] theorem respond_draws (host width : Nat) (v : Word) : (respond host width v s).draws = s.draws := rfl

/-! ### `respondDraw`: the end of a drawn read -/

@[simp] theorem respondDraw_build (host width : Nat) : (respondDraw host width s).build = s.build := rfl
@[simp] theorem respondDraw_status (host width : Nat) : (respondDraw host width s).status = s.status := rfl
@[simp] theorem respondDraw_irqEnable (host width : Nat) : (respondDraw host width s).irqEnable = s.irqEnable := rfl
@[simp] theorem respondDraw_seed (host width : Nat) : (respondDraw host width s).seed = s.seed := rfl
@[simp] theorem respondDraw_keyLen (host width : Nat) : (respondDraw host width s).keyLen = s.keyLen := rfl
@[simp] theorem respondDraw_h1 (host width : Nat) : (respondDraw host width s).h1 = s.h1 := rfl
@[simp] theorem respondDraw_h2 (host width : Nat) : (respondDraw host width s).h2 = s.h2 := rfl
@[simp] theorem respondDraw_dcount (host width : Nat) : (respondDraw host width s).dcount = s.dcount := rfl
@[simp] theorem respondDraw_result (host width : Nat) : (respondDraw host width s).result = s.result := rfl
@[simp] theorem respondDraw_errInfo (host width : Nat) : (respondDraw host width s).errInfo = s.errInfo := rfl
@[simp] theorem respondDraw_cfgN (host width : Nat) : (respondDraw host width s).cfgN = s.cfgN := rfl
@[simp] theorem respondDraw_cfgM (host width : Nat) : (respondDraw host width s).cfgM = s.cfgM := rfl
@[simp] theorem respondDraw_cfgK (host width : Nat) : (respondDraw host width s).cfgK = s.cfgK := rfl
@[simp] theorem respondDraw_cfgP (host width : Nat) : (respondDraw host width s).cfgP = s.cfgP := rfl
@[simp] theorem respondDraw_n (host width : Nat) : (respondDraw host width s).n = s.n := rfl
@[simp] theorem respondDraw_m (host width : Nat) : (respondDraw host width s).m = s.m := rfl
@[simp] theorem respondDraw_k (host width : Nat) : (respondDraw host width s).k = s.k := rfl
@[simp] theorem respondDraw_p (host width : Nat) : (respondDraw host width s).p = s.p := rfl
@[simp] theorem respondDraw_nbytes (host width : Nat) : (respondDraw host width s).nbytes = s.nbytes := rfl
@[simp] theorem respondDraw_inserted (host width : Nat) : (respondDraw host width s).inserted = s.inserted := rfl
@[simp] theorem respondDraw_dval (host width : Nat) : (respondDraw host width s).dval = s.dval := rfl
@[simp] theorem respondDraw_keyBuf (host width : Nat) : (respondDraw host width s).keyBuf = s.keyBuf := rfl
@[simp] theorem respondDraw_bits (host width : Nat) : (respondDraw host width s).bits = s.bits := rfl
@[simp] theorem respondDraw_latch (host width : Nat) : (respondDraw host width s).latch = s.latch := rfl
@[simp] theorem respondDraw_schedule (host width : Nat) : (respondDraw host width s).schedule = s.schedule := rfl
@[simp] theorem respondDraw_response (host width : Nat) :
    (respondDraw host width s).response = some (.readData host width (lowBytes width (Config.freeDraw s.draws))) := rfl
@[simp] theorem respondDraw_draws (host width : Nat) : (respondDraw host width s).draws = s.draws + 1 := rfl

/-! ### `acknowledge`: the end of a write -/

@[simp] theorem acknowledge_build (host : Nat) : (acknowledge host s).build = s.build := rfl
@[simp] theorem acknowledge_status (host : Nat) : (acknowledge host s).status = s.status := rfl
@[simp] theorem acknowledge_irqEnable (host : Nat) : (acknowledge host s).irqEnable = s.irqEnable := rfl
@[simp] theorem acknowledge_seed (host : Nat) : (acknowledge host s).seed = s.seed := rfl
@[simp] theorem acknowledge_keyLen (host : Nat) : (acknowledge host s).keyLen = s.keyLen := rfl
@[simp] theorem acknowledge_h1 (host : Nat) : (acknowledge host s).h1 = s.h1 := rfl
@[simp] theorem acknowledge_h2 (host : Nat) : (acknowledge host s).h2 = s.h2 := rfl
@[simp] theorem acknowledge_dcount (host : Nat) : (acknowledge host s).dcount = s.dcount := rfl
@[simp] theorem acknowledge_result (host : Nat) : (acknowledge host s).result = s.result := rfl
@[simp] theorem acknowledge_errInfo (host : Nat) : (acknowledge host s).errInfo = s.errInfo := rfl
@[simp] theorem acknowledge_cfgN (host : Nat) : (acknowledge host s).cfgN = s.cfgN := rfl
@[simp] theorem acknowledge_cfgM (host : Nat) : (acknowledge host s).cfgM = s.cfgM := rfl
@[simp] theorem acknowledge_cfgK (host : Nat) : (acknowledge host s).cfgK = s.cfgK := rfl
@[simp] theorem acknowledge_cfgP (host : Nat) : (acknowledge host s).cfgP = s.cfgP := rfl
@[simp] theorem acknowledge_n (host : Nat) : (acknowledge host s).n = s.n := rfl
@[simp] theorem acknowledge_m (host : Nat) : (acknowledge host s).m = s.m := rfl
@[simp] theorem acknowledge_k (host : Nat) : (acknowledge host s).k = s.k := rfl
@[simp] theorem acknowledge_p (host : Nat) : (acknowledge host s).p = s.p := rfl
@[simp] theorem acknowledge_nbytes (host : Nat) : (acknowledge host s).nbytes = s.nbytes := rfl
@[simp] theorem acknowledge_inserted (host : Nat) : (acknowledge host s).inserted = s.inserted := rfl
@[simp] theorem acknowledge_dval (host : Nat) : (acknowledge host s).dval = s.dval := rfl
@[simp] theorem acknowledge_keyBuf (host : Nat) : (acknowledge host s).keyBuf = s.keyBuf := rfl
@[simp] theorem acknowledge_bits (host : Nat) : (acknowledge host s).bits = s.bits := rfl
@[simp] theorem acknowledge_latch (host : Nat) : (acknowledge host s).latch = s.latch := rfl
@[simp] theorem acknowledge_schedule (host : Nat) : (acknowledge host s).schedule = s.schedule := rfl
@[simp] theorem acknowledge_response (host : Nat) : (acknowledge host s).response = some (.writeDone host) := rfl
@[simp] theorem acknowledge_draws (host : Nat) : (acknowledge host s).draws = s.draws := rfl

/-! ### `discardWrite`: a discarded write (`20_memory.md` rule R73) -/

@[simp] theorem discardWrite_build : (discardWrite s).build = s.build := rfl
@[simp] theorem discardWrite_status : (discardWrite s).status = { s.status with wbusy := true } := rfl
@[simp] theorem discardWrite_irqEnable : (discardWrite s).irqEnable = s.irqEnable := rfl
@[simp] theorem discardWrite_seed : (discardWrite s).seed = s.seed := rfl
@[simp] theorem discardWrite_keyLen : (discardWrite s).keyLen = s.keyLen := rfl
@[simp] theorem discardWrite_h1 : (discardWrite s).h1 = s.h1 := rfl
@[simp] theorem discardWrite_h2 : (discardWrite s).h2 = s.h2 := rfl
@[simp] theorem discardWrite_dcount : (discardWrite s).dcount = s.dcount := rfl
@[simp] theorem discardWrite_result : (discardWrite s).result = s.result := rfl
@[simp] theorem discardWrite_errInfo : (discardWrite s).errInfo = s.errInfo := rfl
@[simp] theorem discardWrite_cfgN : (discardWrite s).cfgN = s.cfgN := rfl
@[simp] theorem discardWrite_cfgM : (discardWrite s).cfgM = s.cfgM := rfl
@[simp] theorem discardWrite_cfgK : (discardWrite s).cfgK = s.cfgK := rfl
@[simp] theorem discardWrite_cfgP : (discardWrite s).cfgP = s.cfgP := rfl
@[simp] theorem discardWrite_n : (discardWrite s).n = s.n := rfl
@[simp] theorem discardWrite_m : (discardWrite s).m = s.m := rfl
@[simp] theorem discardWrite_k : (discardWrite s).k = s.k := rfl
@[simp] theorem discardWrite_p : (discardWrite s).p = s.p := rfl
@[simp] theorem discardWrite_nbytes : (discardWrite s).nbytes = s.nbytes := rfl
@[simp] theorem discardWrite_inserted : (discardWrite s).inserted = s.inserted := rfl
@[simp] theorem discardWrite_dval : (discardWrite s).dval = s.dval := rfl
@[simp] theorem discardWrite_keyBuf : (discardWrite s).keyBuf = s.keyBuf := rfl
@[simp] theorem discardWrite_bits : (discardWrite s).bits = s.bits := rfl
@[simp] theorem discardWrite_latch : (discardWrite s).latch = s.latch := rfl
@[simp] theorem discardWrite_schedule : (discardWrite s).schedule = s.schedule := rfl
@[simp] theorem discardWrite_response : (discardWrite s).response = s.response := rfl
@[simp] theorem discardWrite_draws : (discardWrite s).draws = s.draws := rfl

/-! ### `acceptCommand`: an accepted command word (`20_memory.md` rule R72) -/

@[simp] theorem acceptCommand_build (w : Word) : (acceptCommand w s).build = s.build := rfl
@[simp] theorem acceptCommand_status (w : Word) : (acceptCommand w s).status = { s.status with busy := true } := rfl
@[simp] theorem acceptCommand_irqEnable (w : Word) : (acceptCommand w s).irqEnable = s.irqEnable := rfl
@[simp] theorem acceptCommand_seed (w : Word) : (acceptCommand w s).seed = s.seed := rfl
@[simp] theorem acceptCommand_keyLen (w : Word) : (acceptCommand w s).keyLen = s.keyLen := rfl
@[simp] theorem acceptCommand_h1 (w : Word) : (acceptCommand w s).h1 = s.h1 := rfl
@[simp] theorem acceptCommand_h2 (w : Word) : (acceptCommand w s).h2 = s.h2 := rfl
@[simp] theorem acceptCommand_dcount (w : Word) : (acceptCommand w s).dcount = s.dcount := rfl
@[simp] theorem acceptCommand_result (w : Word) : (acceptCommand w s).result = s.result := rfl
@[simp] theorem acceptCommand_errInfo (w : Word) : (acceptCommand w s).errInfo = s.errInfo := rfl
@[simp] theorem acceptCommand_cfgN (w : Word) : (acceptCommand w s).cfgN = s.cfgN := rfl
@[simp] theorem acceptCommand_cfgM (w : Word) : (acceptCommand w s).cfgM = s.cfgM := rfl
@[simp] theorem acceptCommand_cfgK (w : Word) : (acceptCommand w s).cfgK = s.cfgK := rfl
@[simp] theorem acceptCommand_cfgP (w : Word) : (acceptCommand w s).cfgP = s.cfgP := rfl
@[simp] theorem acceptCommand_n (w : Word) : (acceptCommand w s).n = s.n := rfl
@[simp] theorem acceptCommand_m (w : Word) : (acceptCommand w s).m = s.m := rfl
@[simp] theorem acceptCommand_k (w : Word) : (acceptCommand w s).k = s.k := rfl
@[simp] theorem acceptCommand_p (w : Word) : (acceptCommand w s).p = s.p := rfl
@[simp] theorem acceptCommand_nbytes (w : Word) : (acceptCommand w s).nbytes = s.nbytes := rfl
@[simp] theorem acceptCommand_inserted (w : Word) : (acceptCommand w s).inserted = s.inserted := rfl
@[simp] theorem acceptCommand_dval (w : Word) : (acceptCommand w s).dval = s.dval := rfl
@[simp] theorem acceptCommand_keyBuf (w : Word) : (acceptCommand w s).keyBuf = s.keyBuf := rfl
@[simp] theorem acceptCommand_bits (w : Word) : (acceptCommand w s).bits = s.bits := rfl
@[simp] theorem acceptCommand_latch (w : Word) : (acceptCommand w s).latch = w := rfl
@[simp] theorem acceptCommand_schedule (w : Word) : (acceptCommand w s).schedule = s.schedule := rfl
@[simp] theorem acceptCommand_response (w : Word) : (acceptCommand w s).response = s.response := rfl
@[simp] theorem acceptCommand_draws (w : Word) : (acceptCommand w s).draws = s.draws := rfl

@[simp] theorem raiseErr_eq_complete (op : Byte) (code : ErrCode) (info : Word) :
    raiseErr op code info s = complete op code info s := rfl

end Sys2Proof.Machine
end

