-- ==== Sys2Proof/Laws/Step.lean ====
section
/-! SUPPORT. Everything a shared operation, an access and a step can do, said once. -/

namespace Sys2Proof.Machine

/-! ### The answers of the bus port -/

/-- A read that is answered, or drawn while BUSY = 1. -/
theorem answerUnlessBusy_next {host width : Nat} {v : Word} {s t : State}
    (h : answerUnlessBusy host width v s = .next t) :
    t = respond host width v s ∨ (s.status.busy = true ∧ t = respondDraw host width s) := by
  unfold answerUnlessBusy at h
  split at h
  next hb => exact .inr ⟨hb, by injection h with h; exact h.symm⟩
  · exact .inl (by injection h with h; exact h.symm)

/-- A write that is performed, or discarded while BUSY = 1. -/
theorem storeUnlessBusy_next {host : Nat} {store : State → State} {s t : State}
    (h : storeUnlessBusy host store s = .next t) :
    (s.status.busy = true ∧ t = acknowledge host (discardWrite s)) ∨
      (s.status.busy = false ∧ t = acknowledge host (store s)) := by
  unfold storeUnlessBusy at h
  split at h
  next hb => exact .inl ⟨hb, by injection h with h; exact h.symm⟩
  next hb => exact .inr ⟨by simpa using hb, by injection h with h; exact h.symm⟩

/-- A read that is not rejected changes nothing but the answer and the count of draws. -/
theorem memRead_next {host addr width : Nat} {s t : State} (h : memRead host addr width s = .next t) :
    (∃ v, t = respond host width v s) ∨ (s.status.busy = true ∧ t = respondDraw host width s) := by
  have answer {v : Word} (h : answerUnlessBusy host width v s = .next t) := answerUnlessBusy_next h
  unfold memRead at h
  split at h
  · unfold readRegWindow at h
    split at h
    · unfold readRegister at h
      split at h
      · split at h
        · split at h
          · exact (answer h).imp_left fun e => ⟨_, e⟩
          · exact .inl ⟨_, by injection h with h; exact h.symm⟩
        · cases h
      · cases h
    · split at h
      · cases h
      · split at h
        · unfold readDval at h
          split at h
          · exact (answer h).imp_left fun e => ⟨_, e⟩
          · cases h
        · unfold readKeyBuf at h
          split at h
          · exact (answer h).imp_left fun e => ⟨_, e⟩
          · cases h
  · split at h
    · unfold readBitsWindow at h
      split at h
      · exact (answer h).imp_left fun e => ⟨_, e⟩
      · cases h
    · cases h

theorem ofOffset_offset (r : Reg) : Reg.ofOffset r.offset = some r := by cases r <;> rfl

/-- `REGMAP` names a register at its own offset only. -/
theorem offset_of_ofOffset {o : Nat} {r : Reg} (h : Reg.ofOffset o = some r) : o = r.offset := by
  unfold Reg.ofOffset at h
  split at h <;> first | (injection h with h; subst h; rfl) | cases h

/-- The stores a host write can make while BUSY = 0, each with its access (`20_memory.md` rule R67). -/
inductive HostStore (s : State) : Access → State → Prop where
  | command (w : Word) : HostStore s (stReg s.build .cmd w) (acceptCommand w s)
  | seed (v : Word) : HostStore s (stReg s.build .seed v) { s with seed := v.setWidth 32 }
  | keyLen (v : Word) : HostStore s (stReg s.build .keyLen v) { s with keyLen := v }
  | cfgN (v : Word) : HostStore s (stReg s.build .cfgN v) { s with cfgN := v }
  | cfgM (v : Word) : HostStore s (stReg s.build .cfgM v) { s with cfgM := v }
  | cfgK (v : Word) : HostStore s (stReg s.build .cfgK v) { s with cfgK := v }
  | cfgP (v : Word) : HostStore s (stReg s.build .cfgP v) { s with cfgP := v }
  | keyBuf (j width : Nat) (v : Word) (h : j + width ≤ s.build.keyMax) :
      HostStore s (.write (s.build.regBase + keyBufOffset + j) width v)
        { s with keyBuf := s.keyBuf.writeWide j v width }

/-- What a host write that is not rejected does, before its acknowledgement. -/
inductive WriteEffect (s : State) : Access → State → Prop where
  | status (v : Word) : WriteEffect s (stReg s.build .status v) { s with status := s.status.writeOneToClear v }
  | irqEn (v : Word) : WriteEffect s (stReg s.build .irqEn v) { s with irqEnable := v.getLsbD 0 }
  | discarded (h : s.status.busy = true) {a : Access} {u : State} (hu : HostStore s a u) :
      WriteEffect s a (discardWrite s)
  | stored (h : s.status.busy = false) {a : Access} {u : State} (hu : HostStore s a u) : WriteEffect s a u

theorem storeUnlessBusy_effect {host : Nat} {a : Access} {store : State → State} {s t : State}
    (h : storeUnlessBusy host store s = .next t) (hs : HostStore s a (store s)) :
    ∃ u, WriteEffect s a u ∧ t = acknowledge host u := by
  rcases storeUnlessBusy_next h with ⟨hb, rfl⟩ | ⟨hb, rfl⟩
  · exact ⟨_, .discarded hb hs, rfl⟩
  · exact ⟨_, .stored hb hs, rfl⟩

theorem regWrite_next {host : Nat} {v : Word} {r : Reg} {s t : State}
    (h : regWrite host (s.build.regBase + r.offset) 8 v r s = .next t) :
    ∃ u, WriteEffect s (stReg s.build r v) u ∧ t = acknowledge host u := by
  cases r <;> simp only [regWrite, busError, reduceCtorEq] at h
  case status => exact ⟨_, .status v, by injection h with h; exact h.symm⟩
  case irqEn => exact ⟨_, .irqEn v, by injection h with h; exact h.symm⟩
  case cmd => exact storeUnlessBusy_effect h (.command v)
  case seed => exact storeUnlessBusy_effect h (.seed v)
  case keyLen => exact storeUnlessBusy_effect h (.keyLen v)
  case cfgN => exact storeUnlessBusy_effect h (.cfgN v)
  case cfgM => exact storeUnlessBusy_effect h (.cfgM v)
  case cfgK => exact storeUnlessBusy_effect h (.cfgK v)
  case cfgP => exact storeUnlessBusy_effect h (.cfgP v)

/-- Everything a host write that is not rejected can do. -/
theorem memWrite_next {host addr width : Nat} {v : Word} {s t : State} (h : memWrite host addr width v s = .next t) :
    ∃ u, WriteEffect s (.write addr width v) u ∧ t = acknowledge host u := by
  unfold memWrite at h
  split at h
  next hin =>
    unfold writeRegWindow at h
    split at h
    · unfold writeRegister at h
      split at h
      next hw =>
        split at h
        next r hr =>
          obtain ⟨rfl, _⟩ := hw
          have haddr : addr = s.build.regBase + r.offset := by
            have := offset_of_ofOffset hr
            omega
          subst haddr
          exact regWrite_next h
        · cases h
      · cases h
    · split at h
      · cases h
      next hlo =>
        unfold writeKeyBuf at h
        split at h
        next hk =>
          have haddr : addr = s.build.regBase + keyBufOffset + (addr - s.build.regBase - keyBufOffset) := by omega
          have hstore := HostStore.keyBuf (s := s) (addr - s.build.regBase - keyBufOffset) width v hk.2
          rw [← haddr] at hstore
          exact storeUnlessBusy_effect h hstore
        · cases h
  · split at h <;> cases h

/-! ### The engine and the step -/

/-- Every command completes: `exec` answers a next state. -/
theorem exec_next (i : Instr) (s : State) : ∃ t, exec i s = .next t := by
  cases i <;> exact ⟨_, rfl⟩

/-- Everything the engine's turn can do. -/
theorem engineTurn_next {s t : State} (h : engineTurn s = .next t) :
    (s.status.busy = false ∧ t = s) ∨
      (s.status.busy = true ∧ decode s.latch = none ∧ t = completeIllegal s) ∨
      (s.status.busy = true ∧ ∃ i, decode s.latch = some i ∧ exec i s = .next t) := by
  unfold engineTurn at h
  split at h
  next hb =>
    unfold completeLatched at h
    split at h
    next i hi => exact .inr (.inr ⟨hb, i, hi, h⟩)
    next hn => exact .inr (.inl ⟨hb, hn, by injection h with h; exact h.symm⟩)
  next hb => exact .inl ⟨by simpa using hb, by injection h with h; exact h.symm⟩

/-- A step is its event handled in the state whose event has been taken off the schedule. -/
theorem step_eq_handleEvent (s : State) : step s = handleEvent (nextEvent s) (afterEvent s) := by
  obtain ⟨⟩ := s
  rename_i schedule _ _
  cases schedule <;> rfl

@[simp] theorem afterEvent_latch (s : State) : (afterEvent s).latch = s.latch := rfl
@[simp] theorem afterEvent_status (s : State) : (afterEvent s).status = s.status := rfl
@[simp] theorem afterEvent_build (s : State) : (afterEvent s).build = s.build := rfl

/-- Everything a step can do: the one inversion that invariants are derived from. -/
theorem step_next {s t : State} (h : step s = .next t) :
    (nextEvent s = .engine ∧ s.status.busy = false ∧ t = afterEvent s) ∨
      (completesNext s ∧ decode s.latch = none ∧ t = completeIllegal (afterEvent s)) ∨
      (∃ i, completesInstr s i ∧ exec i (afterEvent s) = .next t) ∨
      (∃ host addr width, nextEvent s = .access host (.read addr width) ∧
        ((∃ v, t = respond host width v (afterEvent s)) ∨
          (s.status.busy = true ∧ t = respondDraw host width (afterEvent s)))) ∨
      (∃ host addr width v u, nextEvent s = .access host (.write addr width v) ∧
        WriteEffect (afterEvent s) (.write addr width v) u ∧ t = acknowledge host u) ∨
      ∃ inFlight, nextEvent s = .reset inFlight ∧ t = resetBlock inFlight (afterEvent s) := by
  rw [step_eq_handleEvent] at h
  cases he : nextEvent s with
  | engine =>
    rw [he] at h
    rcases engineTurn_next h with ⟨hb, rfl⟩ | ⟨hb, hd, rfl⟩ | ⟨hb, i, hi, hx⟩
    · exact .inl ⟨rfl, hb, rfl⟩
    · exact .inr (.inl ⟨⟨he, hb⟩, hd, rfl⟩)
    · exact .inr (.inr (.inl ⟨i, ⟨⟨he, hb⟩, hi⟩, hx⟩))
  | access host a =>
    rw [he] at h
    cases a with
    | read addr width => exact .inr (.inr (.inr (.inl ⟨host, addr, width, rfl, memRead_next h⟩)))
    | write addr width v =>
      obtain ⟨u, hu, rfl⟩ := memWrite_next h
      exact .inr (.inr (.inr (.inr (.inl ⟨host, addr, width, v, u, rfl, hu, rfl⟩))))
  | reset inFlight =>
    rw [he] at h
    injection h with h
    exact .inr (.inr (.inr (.inr (.inr ⟨inFlight, rfl, h.symm⟩))))

end Sys2Proof.Machine
end

