-- ==== Sys2Proof/Laws/Windows.lean ====
section
/-! SUPPORT. The laws of the window sizes. -/

namespace Sys2Proof.Machine

open Config (Build)

/-- The power of two is at least what it is asked to be. -/
theorem le_powerOfTwoAtLeast (x : Nat) : x ≤ powerOfTwoAtLeast x := by
  unfold powerOfTwoAtLeast
  split
  · assumption
  · have := Nat.lt_log2_self (n := x - 1)
    omega

/-- The register window holds every byte of the key buffer. -/
theorem keyBuf_in_regSize (b : Config.Build) : 0x1000 + b.keyMax ≤ regSize b := le_powerOfTwoAtLeast _

/-- The bit-array window holds every byte of BITARRAY. -/
theorem bitArray_in_bitsSize (b : Config.Build) : bitArrayBytes b ≤ bitsSize b := le_powerOfTwoAtLeast _

theorem regSize_unplaced (regSlot bitsSlot : Nat) : regSize (placeWindows unplacedBuild regSlot bitsSlot) = 8192 := by
  change powerOfTwoAtLeast 8192 = 8192
  decide

theorem bitsSize_unplaced (regSlot bitsSlot : Nat) :
    bitsSize (placeWindows unplacedBuild regSlot bitsSlot) = 1073741824 := by
  change powerOfTwoAtLeast (ceilDiv8 (2 ^ 33)) = 1073741824
  decide

theorem powerOfTwoAtLeast_eq (x : Nat) : ∃ e, powerOfTwoAtLeast x = 2 ^ e := by
  unfold powerOfTwoAtLeast
  split
  · exact ⟨0, rfl⟩
  · exact ⟨_, rfl⟩

/-- The two window sizes are powers of two. -/
theorem windowSizes_eq (b : Build) : ∃ e f, bitsSize b = 2 ^ e ∧ regSize b = 2 ^ f := by
  obtain ⟨e, he⟩ := powerOfTwoAtLeast_eq (bitArrayBytes b)
  obtain ⟨f, hf⟩ := powerOfTwoAtLeast_eq (keyBufOffset + b.keyMax)
  exact ⟨e, f, he, hf⟩

/-- A multiple of `g` below another multiple plus at most `g` is at most that multiple. -/
theorem multiple_le_multiple {g i j w : Nat} (h : g * i < g * j + w) (hw : w ≤ g) : g * i ≤ g * j := by
  by_contra hn
  have h1 : j + 1 ≤ i := Nat.lt_of_mul_lt_mul_left (Nat.not_le.mp hn)
  have h2 := Nat.mul_le_mul_left g h1
  rw [Nat.mul_add, Nat.mul_one] at h2
  omega

/-- The placed windows share no address. -/
theorem placeWindows_disjoint (b : Build) (x y : Nat) :
    disjointRanges (x * regSize b) (regSize b) (placeWindows b x y).bitsBase (bitsSize b) := by
  unfold placeWindows
  dsimp only
  split
  · assumption
  next h =>
    obtain ⟨e, f, he, hf⟩ := windowSizes_eq b
    simp only [disjointRanges, he, hf, not_or, Nat.not_le] at h ⊢
    left
    rcases le_total e f with hl | hl
    · obtain ⟨d, rfl⟩ := Nat.exists_eq_add_of_le hl
      have hle : 2 ^ e ≤ 2 ^ (e + d) := Nat.pow_le_pow_right (by decide) hl
      have hmul : x * 2 ^ (e + d) = 2 ^ e * (2 ^ d * x) := by rw [pow_add]; ring
      have := multiple_le_multiple (g := 2 ^ e) (i := 2 ^ d * x) (j := y) (w := 2 ^ e)
        (by rw [← hmul, Nat.mul_comm _ y]; exact h.2) le_rfl
      rw [← hmul, Nat.mul_comm _ y] at this
      rw [max_eq_left hle]
      omega
    · obtain ⟨d, rfl⟩ := Nat.exists_eq_add_of_le hl
      have hle : 2 ^ f ≤ 2 ^ (f + d) := Nat.pow_le_pow_right (by decide) hl
      have hmul : y * 2 ^ (f + d) + 2 ^ (f + d) = 2 ^ f * (2 ^ d * (y + 1)) := by rw [pow_add]; ring
      have hx : x * 2 ^ f + 2 ^ f = 2 ^ f * (x + 1) := by ring
      have := multiple_le_multiple (g := 2 ^ f) (i := x + 1) (j := 2 ^ d * (y + 1)) (w := 2 ^ f)
        (by rw [← hmul, ← hx]; have := h.2; omega) le_rfl
      rw [← hmul, ← hx] at this
      rw [max_eq_right hle]
      omega

/-- The distance by which `placeWindows` moves the bit-array window up keeps it aligned. -/
theorem bitsSize_dvd_max (b : Build) : bitsSize b ∣ max (regSize b) (bitsSize b) := by
  rcases max_choice (regSize b) (bitsSize b) with hmax | hmax
  · obtain ⟨e, f, he, hf⟩ := windowSizes_eq b
    have hle : 2 ^ e ≤ 2 ^ f := by rw [← he, ← hf]; exact max_eq_left_iff.mp hmax
    rw [hmax, he, hf]
    exact pow_dvd_pow 2 ((Nat.pow_le_pow_iff_right (by decide)).mp hle)
  · rw [hmax]

/-- Placing the windows of a build with legal parameters gives a legal build. -/
theorem placeWindows_legal (b : Build) (x y : Nat) (hk : 1 ≤ b.kMax ∧ b.kMax ≤ 480)
    (hkey : 1 ≤ b.keyMax ∧ b.keyMax < 2 ^ 32) (hbits : 1 ≤ b.maxBits ∧ b.maxBits ≤ 2 ^ 63)
    (hmult : b.deriveMult.getLsbD 0 = true) (h8 : 8 ∣ bitsSize b) : legalBuild (placeWindows b x y) := by
  have haligned : bitsSize b ∣ (placeWindows b x y).bitsBase := by
    unfold placeWindows
    dsimp only
    split
    · exact Dvd.intro_left _ rfl
    · exact (Nat.dvd_add_right (Dvd.intro_left _ rfl)).mpr (bitsSize_dvd_max b)
  exact ⟨hk, hkey, hbits, hmult, Dvd.intro_left _ rfl, ⟨haligned, h8.trans haligned⟩, placeWindows_disjoint b x y⟩

end Sys2Proof.Machine
end

