-- ==== Sys2Proof/Laws/Bus.lean ====
section
/-! SUPPORT. What each access of the host-program notation comes to at the bus port: the window and width checks done
once, so that no later proof unfolds `busAccess`. -/

namespace Sys2Proof.Machine

theorem offset_lt_reserved (r : Reg) : r.offset < reservedOffset ∧ r.offset % 8 = 0 := by cases r <;> decide

theorem inWindow_reg (b : Config.Build) {o : Nat} (h : o < 0x1000 + b.keyMax) :
    inWindow b.regBase (regSize b) (b.regBase + o) := by
  have := keyBuf_in_regSize b
  exact ⟨Nat.le_add_right _ _, by omega⟩

/-- A read at an offset of the register window. -/
theorem busAccess_read_reg (s : State) (host width : Nat) {o : Nat}
    (h : inWindow s.build.regBase (regSize s.build) (s.build.regBase + o)) :
    busAccess host (.read (s.build.regBase + o) width) s = readRegWindow host (s.build.regBase + o) width o s := by
  simp only [busAccess, memRead, if_pos h, Nat.add_sub_cancel_left]

/-- A write at an offset of the register window. -/
theorem busAccess_write_reg (s : State) (host width : Nat) (v : Word) {o : Nat}
    (h : inWindow s.build.regBase (regSize s.build) (s.build.regBase + o)) :
    busAccess host (.write (s.build.regBase + o) width v) s =
      writeRegWindow host (s.build.regBase + o) width v o s := by
  simp only [busAccess, memWrite, if_pos h, Nat.add_sub_cancel_left]

/-- `ld.d REG` -/
theorem busAccess_ldReg (s : State) (host : Nat) (r : Reg) :
    busAccess host (ldReg s.build r) s =
      if r.busyDraw then answerUnlessBusy host 8 (regRead s r) s else .next (respond host 8 (regRead s r) s) := by
  obtain ⟨hlt, hal⟩ := offset_lt_reserved r
  rw [ldReg, busAccess_read_reg s host 8 (inWindow_reg s.build (by simp only [reservedOffset] at hlt; omega)),
    readRegWindow, if_pos hlt, readRegister,
    if_pos ⟨rfl, hal⟩, ofOffset_offset]

/-- `st.d REG` -/
theorem busAccess_stReg (s : State) (host : Nat) (r : Reg) (v : Word) :
    busAccess host (stReg s.build r v) s = regWrite host (s.build.regBase + r.offset) 8 v r s := by
  obtain ⟨hlt, hal⟩ := offset_lt_reserved r
  rw [stReg, busAccess_write_reg s host 8 v (inWindow_reg s.build (by simp only [reservedOffset] at hlt; omega)),
    writeRegWindow, if_pos hlt, writeRegister, if_pos ⟨rfl, hal⟩, ofOffset_offset]

/-- `ld.d DVAL` of an entry the file has. -/
theorem busAccess_ldDval (s : State) (host : Nat) {i : Nat} (h : i < s.build.kMax) (hk : s.build.kMax ≤ 480) :
    busAccess host (ldDval s.build i) s = answerUnlessBusy host 8 (s.dval.getD i 0) s := by
  have hi : (dvalOffset + 8 * i - dvalOffset) / 8 = i := by omega
  rw [ldDval, Nat.add_assoc, busAccess_read_reg s host 8 (inWindow_reg s.build (by simp only [dvalOffset]; omega)),
    readRegWindow, if_neg (by simp only [dvalOffset, reservedOffset]; omega), if_neg (by omega),
    if_pos (by simp only [dvalOffset, keyBufOffset]; omega), readDval,
    if_pos ⟨⟨rfl, by simp only [dvalOffset]; omega⟩, by omega⟩, hi]

theorem byteAccess_of_width {o : Nat} {width : Width} (h : o % width.bytes = 0) : byteAccess o width.bytes := by
  cases width <;> exact ⟨by decide, h⟩

theorem width_dvd_keyBufOffset (width : Width) (j : Nat) :
    (keyBufOffset + j) % width.bytes = j % width.bytes := by
  cases width <;> simp only [keyBufOffset, Width.bytes] <;> omega

theorem width_pos (width : Width) : 0 < width.bytes ∧ width.bytes ≤ 8 := by cases width <;> decide

/-- A legal read of KEYBUF. -/
theorem busAccess_ldKey (s : State) (host : Nat) (width : Width) {j : Nat} (hal : j % width.bytes = 0)
    (hj : j + width.bytes ≤ s.build.keyMax) :
    busAccess host (.read (s.build.regBase + keyBufOffset + j) width.bytes) s =
      answerUnlessBusy host width.bytes (s.keyBuf.readWide j width.bytes) s := by
  have := width_pos width
  rw [Nat.add_assoc, busAccess_read_reg s host _ (inWindow_reg s.build (by simp only [keyBufOffset]; omega)),
    readRegWindow, if_neg (by simp only [keyBufOffset, reservedOffset]; omega),
    if_neg (by simp only [keyBufOffset, dvalOffset]; omega), if_neg (by omega), readKeyBuf, Nat.add_sub_cancel_left,
    if_pos ⟨byteAccess_of_width (by rw [width_dvd_keyBufOffset]; exact hal), hj⟩]

/-- `st.b KEY+j` and its wider forms, inside the buffer. -/
theorem busAccess_stKey (s : State) (host : Nat) (width : Width) {j : Nat} (v : Word) (hal : j % width.bytes = 0)
    (hj : j + width.bytes ≤ s.build.keyMax) :
    busAccess host (stKey s.build width j v) s =
      storeUnlessBusy host (fun s => { s with keyBuf := s.keyBuf.writeWide j v width.bytes }) s := by
  have := width_pos width
  rw [stKey, Nat.add_assoc,
    busAccess_write_reg s host _ v (inWindow_reg s.build (by simp only [keyBufOffset]; omega)), writeRegWindow,
    if_neg (by simp only [keyBufOffset, reservedOffset]; omega), if_neg (by omega), writeKeyBuf,
    Nat.add_sub_cancel_left, if_pos ⟨byteAccess_of_width (by rw [width_dvd_keyBufOffset]; exact hal), hj⟩]

/-- In a legal build, an address of the bit-array window is in no other. -/
theorem not_inWindow_reg_of_bits {b : Config.Build} (h : legalBuild b) {o : Nat} (ho : o < bitsSize b) :
    ¬ inWindow b.regBase (regSize b) (b.bitsBase + o) := by
  rcases h.2.2.2.2.2.2 with hd | hd <;> (rintro ⟨h1, h2⟩; omega)

/-- A read at an offset of the bit-array window. -/
theorem busAccess_read_bits (s : State) (host width : Nat) (h : legalBuild s.build) {o : Nat}
    (ho : o < bitsSize s.build) :
    busAccess host (.read (s.build.bitsBase + o) width) s =
      readBitsWindow host (s.build.bitsBase + o) width o s := by
  simp only [busAccess, memRead, if_neg (not_inWindow_reg_of_bits h ho), Nat.add_sub_cancel_left]
  rw [if_pos ⟨Nat.le_add_right _ _, by omega⟩]

/-- A write at an offset of the bit-array window. -/
theorem busAccess_write_bits (s : State) (host width : Nat) (v : Word) (h : legalBuild s.build) {o : Nat}
    (ho : o < bitsSize s.build) :
    busAccess host (.write (s.build.bitsBase + o) width v) s =
      busError host (.write (s.build.bitsBase + o) width v) := by
  simp only [busAccess, memWrite, if_neg (not_inWindow_reg_of_bits h ho)]
  rw [if_pos ⟨Nat.le_add_right _ _, by omega⟩]

/-- `ld.b BITS+b` and its wider forms, inside the filter. -/
theorem busAccess_ldBits (s : State) (host : Nat) (width : Width) {o : Nat} (h : legalBuild s.build)
    (ha : s.status.active = true) (hal : o % width.bytes = 0) (ho : o + width.bytes ≤ s.nbytes.toNat)
    (hn : s.nbytes.toNat ≤ bitsSize s.build) :
    busAccess host (ldBits s.build width o) s =
      answerUnlessBusy host width.bytes (s.bits.readWide o width.bytes) s := by
  have := width_pos width
  rw [ldBits, busAccess_read_bits s host _ h (by omega), readBitsWindow,
    if_pos ⟨byteAccess_of_width hal, ha, ho⟩]

/-- The engine's completion, as a step. -/
theorem step_of_completesNext {s : State} (h : completesNext s) : step s = completeLatched (afterEvent s) := by
  rw [step_eq_handleEvent, h.1]
  simp [handleEvent, engineTurn, h.2]

end Sys2Proof.Machine
end

