-- ==== Sys2Proof/Laws/Filter.lean ====
section
/-! SUPPORT. The laws of the filter controller's loops over the positions of a key. -/

namespace Sys2Proof.Machine

theorem bitIndex_lt {m : Word} (hm : 1 ≤ m.toNat) (v : Word) : bitIndex v m < m.toNat := by
  have h := Int.emod_lt_of_pos v.toInt (b := (m.toNat : Int)) (by omega)
  have h' := Int.emod_nonneg v.toInt (b := (m.toNat : Int)) (by omega)
  unfold bitIndex
  omega

theorem mem_positions_lt {s : State} (hm : 1 ≤ s.m.toNat) {x : Nat} (hx : x ∈ positions s) : x < s.m.toNat := by
  obtain ⟨v, _, rfl⟩ := List.mem_map.mp hx
  exact bitIndex_lt hm v

/-- With the invariants, the check before each bit access never fails. -/
theorem indexBad_positions {s : State} (h : Inv s) (ha : s.status.active = true) :
    ∀ x ∈ positions s, indexBad s x = false := by
  intro x hx
  have hlt := mem_positions_lt (h.active_iff.mp ha) hx
  have hn := h.nbytes_eq
  simp only [indexBad, Nat.shiftRight_eq_div_pow, Bool.or_eq_false_iff, decide_eq_false_iff_not, ceilDiv8] at *
  omega

/-- Everything ADD's loop does to the bits where no check fails. -/
theorem setPositions_ok {bad : Nat → Bool} {l : List Nat} (hbad : ∀ x ∈ l, bad x = false) {bits : Memory}
    (h : bits.wf) (new : Bool) :
    ∃ bits' new', setPositions bad l bits new = .ok (bits', new') ∧ bits'.wf ∧
      (∀ y, bitGet bits' y = (decide (y ∈ l) || bitGet bits y)) ∧
      (∀ b, (∀ x ∈ l, x >>> 3 ≠ b) → bits'.read b = bits.read b) ∧
      (∀ size, bits.within size → (∀ x ∈ l, x >>> 3 < size) → bits'.within size) ∧
      (new' = true ↔ new = true ∨ ∃ x ∈ l, bitGet bits x = false) := by
  induction l generalizing bits new with
  | nil => exact ⟨bits, new, rfl, h, by simp, by simp, fun _ hw _ => hw, by simp⟩
  | cons x rest ih =>
    obtain ⟨bits', new', heq, hwf, hget, hread, hwithin, hnew⟩ :=
      ih (fun y hy => hbad y (by simp [hy])) (bitSet_wf h x) (new || !bitGet bits x)
    refine ⟨bits', new', ?_, hwf, ?_, ?_, ?_, ?_⟩
    · simp [setPositions, hbad x (by simp), heq]
    · intro y
      rw [hget, bitGet_bitSet h]
      by_cases hyx : y = x <;> simp [hyx]
    · intro b hb
      rw [hread b fun y hy => hb y (by simp [hy])]
      exact Memory.read_write_other h _ (hb x (by simp)).symm
    · intro size hw hb
      exact hwithin size (Memory.write_within hw (hb x (by simp)) _) fun y hy => hb y (by simp [hy])
    · rw [hnew]
      simp only [bitGet_bitSet h, List.exists_mem_cons_iff, Bool.or_eq_true, Bool.not_eq_true']
      constructor
      · rintro ((h1 | h1) | ⟨y, hy, h1⟩)
        · exact .inl h1
        · exact .inr (.inl h1)
        · exact .inr (.inr ⟨y, hy, by simp_all⟩)
      · rintro (h1 | h1 | ⟨y, hy, h1⟩)
        · exact .inl (.inl h1)
        · exact .inl (.inr h1)
        · by_cases hyx : y = x
          · exact .inl (.inr (hyx ▸ h1))
          · exact .inr ⟨y, hy, by simp [hyx, h1]⟩

/-- TEST's loop, where no check fails: whether every position's bit is set. -/
theorem testPositions_ok {bad : Nat → Bool} {bits : Memory} {l : List Nat} (hbad : ∀ x ∈ l, bad x = false) :
    testPositions bad bits l = .ok (l.all (bitGet bits)) := by
  induction l with
  | nil => rfl
  | cons x rest ih =>
    rw [testPositions, hbad x (by simp), ih fun y hy => hbad y (by simp [hy])]
    cases hb : bitGet bits x <;> simp [hb]

/-- The loop of ADD with a failing check stops at the first one. -/
theorem setPositions_error {bad : Nat → Bool} {before after : List Nat} {x : Nat}
    (hbefore : ∀ y ∈ before, bad y = false) (hx : bad x = true) (bits : Memory) (new : Bool) :
    setPositions bad (before ++ x :: after) bits new = .error x := by
  induction before generalizing bits new with
  | nil => simp [setPositions, hx]
  | cons y rest ih =>
    simp [setPositions, hbefore y (by simp), ih fun z hz => hbefore z (by simp [hz])]

end Sys2Proof.Machine
end

