-- ==== Sys2Proof/Laws/Exec.lean ====
section
/-! SUPPORT. Everything each command can do, said once: the states its completion can be. -/

namespace Sys2Proof.Machine

/-- HASH128: the key is too long, or the digest is written. -/
theorem hash128Completion_cases (s : State) :
    (keyTooLong s = true ∧ hash128Completion s = raiseErr 0x01 .arg 1 (clearKey s)) ∨
      (keyTooLong s = false ∧
        hash128Completion s =
          complete 0x01 .ok 0
            (clearKey
              { s with h1 := (createHash (keyBytes s) s.seed).h1, h2 := (createHash (keyBytes s) s.seed).h2 })) := by
  unfold hash128Completion
  split
  next h => exact .inl ⟨h, rfl⟩
  next h => exact .inr ⟨by simpa using h, rfl⟩

/-- DERIVE: the count is too large, or the key too long, or the values are written. -/
theorem deriveCompletion_cases (c : Nat) (s : State) :
    (s.build.kMax < c ∧ deriveCompletion c s = raiseErr 0x02 .arg 2 (clearKey s)) ∨
      (c ≤ s.build.kMax ∧ keyTooLong s = true ∧ deriveCompletion c s = raiseErr 0x02 .arg 1 (clearKey s)) ∨
      (c ≤ s.build.kMax ∧ keyTooLong s = false ∧ ∃ v, v = deriveHashes s.build.deriveMult (keyBytes s) c ∧
        deriveCompletion c s =
          complete 0x02 .ok 0
            (clearKey
              { s with
                dval := v ++ List.replicate (s.build.kMax - v.length) 0
                dcount := BitVec.ofNat 64 v.length })) := by
  unfold deriveCompletion
  split
  next h => exact .inl ⟨h, rfl⟩
  next h =>
    split
    next hk => exact .inr (.inl ⟨Nat.not_lt.mp h, hk, rfl⟩)
    next hk => exact .inr (.inr ⟨Nat.not_lt.mp h, by simpa using hk, _, rfl, rfl⟩)

/-- CONFIGURE: a parameter is rejected, or a new filter is built. -/
theorem configureCompletion_cases (s : State) :
    (∃ reason, configReason s = some reason ∧ configureCompletion s = raiseErr 0x03 .config reason s) ∨
      (configReason s = none ∧
        configureCompletion s =
          complete 0x03 .ok 0
            { s with
              n := s.cfgN
              m := s.cfgM
              k := s.cfgK
              p := s.cfgP
              nbytes := BitVec.ofNat 64 (ceilDiv8 s.cfgM.toNat)
              bits := s.bits.zeroBelow (ceilDiv8 s.cfgM.toNat)
              inserted := 0
              status := { s.status with active := true } }) := by
  unfold configureCompletion
  split
  next reason h => exact .inl ⟨reason, h, rfl⟩
  next h => exact .inr ⟨h, rfl⟩

/-- ADD: there is no filter, or the key is too long, or a position fails the check, or the positions are set. -/
theorem addCompletion_cases (s : State) :
    (s.status.active = false ∧ addCompletion s = raiseErr 0x04 .state 0 (clearKey s)) ∨
      (s.status.active = true ∧ keyTooLong s = true ∧ addCompletion s = raiseErr 0x04 .arg 1 (clearKey s)) ∨
      (s.status.active = true ∧ keyTooLong s = false ∧ ∃ x,
        setPositions (indexBad s) (positions s) s.bits false = .error x ∧
          addCompletion s = raiseErr 0x04 .index (BitVec.ofNat 64 x) (clearKey s)) ∨
      (s.status.active = true ∧ keyTooLong s = false ∧ ∃ bits new,
        setPositions (indexBad s) (positions s) s.bits false = .ok (bits, new) ∧
          addCompletion s =
            complete 0x04 .ok 0
              (clearKey
                { s with
                  bits := bits
                  inserted := insertedAfter new s.inserted
                  result := { found := false, isNew := new } })) := by
  unfold addCompletion
  split
  next h => exact .inl ⟨h, rfl⟩
  next h =>
    have h : s.status.active = true := by simpa using h
    split
    next hk => exact .inr (.inl ⟨h, hk, rfl⟩)
    next hk =>
      have hk : keyTooLong s = false := by simpa using hk
      split
      next x he => exact .inr (.inr (.inl ⟨h, hk, x, he, rfl⟩))
      next bits new he => exact .inr (.inr (.inr ⟨h, hk, bits, new, he, rfl⟩))

/-- TEST: there is no filter, or the key is too long, or a position fails the check, or the answer is written. -/
theorem testCompletion_cases (s : State) :
    (s.status.active = false ∧ testCompletion s = raiseErr 0x05 .state 0 (clearKey s)) ∨
      (s.status.active = true ∧ keyTooLong s = true ∧ testCompletion s = raiseErr 0x05 .arg 1 (clearKey s)) ∨
      (s.status.active = true ∧ keyTooLong s = false ∧ ∃ x,
        testPositions (indexBad s) s.bits (positions s) = .error x ∧
          testCompletion s = raiseErr 0x05 .index (BitVec.ofNat 64 x) (clearKey s)) ∨
      (s.status.active = true ∧ keyTooLong s = false ∧ ∃ found,
        testPositions (indexBad s) s.bits (positions s) = .ok found ∧
          testCompletion s =
            complete 0x05 .ok 0 (clearKey { s with result := { found := found, isNew := false } })) := by
  unfold testCompletion
  split
  next h => exact .inl ⟨h, rfl⟩
  next h =>
    have h : s.status.active = true := by simpa using h
    split
    next hk => exact .inr (.inl ⟨h, hk, rfl⟩)
    next hk =>
      have hk : keyTooLong s = false := by simpa using hk
      split
      next x he => exact .inr (.inr (.inl ⟨h, hk, x, he, rfl⟩))
      next found he => exact .inr (.inr (.inr ⟨h, hk, found, he, rfl⟩))

end Sys2Proof.Machine
end

