-- ==== Sys2Proof/Laws/PerInstr.lean ====
section
/-! SUPPORT. Statements made for each command: the fields of its word (`30_encoding.md` rules R90 and R93). -/

namespace Sys2Proof.Laws.WordFields

/-- A well-formed command's word has RSV = 0, its opcode in OP and its count in CNT. -/
def Statement (i : Instr) : Prop :=
  i.wellFormed = true →
    rsvField (encode i) = 0 ∧ opField (encode i) = i.opcode ∧ (cntField (encode i)).toNat = i.count

theorem hash128 : Statement .hash128 := fun _ => by decide

theorem derive (count : Nat) : Statement (.derive count) := by
  intro h
  have hlt : count < 2 ^ 8 := by simp [Instr.wellFormed] at h; omega
  obtain ⟨c, rfl⟩ : ∃ c : BitVec 8, c.toNat = count := ⟨BitVec.ofNat 8 count, Nat.mod_eq_of_lt hlt⟩
  revert c
  decide

theorem configure : Statement .configure := fun _ => by decide

theorem add : Statement .add := fun _ => by decide

theorem test : Statement .test := fun _ => by decide

theorem release : Statement .release := fun _ => by decide

end Sys2Proof.Laws.WordFields
end

