-- ==== Sys2Proof/Laws/Run.lean ====
section
/-! SUPPORT. What every step does to the schedule and to BUSY, how runs compose, and where they end. -/

namespace Sys2Proof.Machine

/-- What every command leaves alike, whatever its outcome: BUSY = 0, the build and the schedule. -/
theorem exec_end {i : Instr} {s t : State} (h : exec i s = .next t) :
    t.status.busy = false ∧ t.build = s.build ∧ t.schedule = s.schedule := by
  cases i <;> injection h with h <;> subst h
  · rcases hash128Completion_cases s with ⟨_, h⟩ | ⟨_, h⟩ <;> rw [h] <;> exact ⟨rfl, rfl, rfl⟩
  · rcases deriveCompletion_cases _ s with ⟨_, h⟩ | ⟨_, _, h⟩ | ⟨_, _, _, _, h⟩ <;> rw [h] <;> exact ⟨rfl, rfl, rfl⟩
  · rcases configureCompletion_cases s with ⟨_, _, h⟩ | ⟨_, h⟩ <;> rw [h] <;> exact ⟨rfl, rfl, rfl⟩
  · rcases addCompletion_cases s with ⟨_, h⟩ | ⟨_, _, h⟩ | ⟨_, _, _, _, h⟩ | ⟨_, _, _, _, _, h⟩ <;> rw [h] <;>
      exact ⟨rfl, rfl, rfl⟩
  · rcases testCompletion_cases s with ⟨_, h⟩ | ⟨_, _, h⟩ | ⟨_, _, _, _, h⟩ | ⟨_, _, _, _, h⟩ <;> rw [h] <;>
      exact ⟨rfl, rfl, rfl⟩
  · exact ⟨rfl, rfl, rfl⟩

/-- A step takes one event off the schedule. -/
theorem step_schedule {s t : State} (h : step s = .next t) : t.schedule = s.schedule.tail := by
  rcases step_next h with ⟨_, _, rfl⟩ | ⟨_, _, rfl⟩ | ⟨i, _, hx⟩ | ⟨_, _, _, _, ⟨_, rfl⟩ | ⟨_, rfl⟩⟩ |
    ⟨_, _, _, _, _, _, hu, rfl⟩ | ⟨_, _, rfl⟩
  · rfl
  · rfl
  · exact (exec_end hx).2.2
  · rfl
  · rfl
  · cases hu with
    | stored _ h => cases h <;> rfl
    | _ => rfl
  · rfl

/-- The engine's turn always answers a next state, with BUSY = 0. -/
theorem step_engine {s : State} (h : nextEvent s = .engine) :
    ∃ t, step s = .next t ∧ t.status.busy = false ∧ t.build = s.build := by
  rw [step_eq_handleEvent, h]
  simp only [handleEvent, engineTurn, completeLatched]
  split
  · split
    next i _ =>
      obtain ⟨t, ht⟩ := exec_next i (afterEvent s)
      exact ⟨t, ht, (exec_end ht).1, (exec_end ht).2.1⟩
    · exact ⟨_, rfl, rfl, rfl⟩
  next hb => exact ⟨_, rfl, by simpa using hb, rfl⟩

/-- A run of one more step. -/
theorem run_succ {k : Nat} {s t : State} (h : step s = .next t) :
    Host.Core.run Sys2Proof.core (k + 1) s = Host.Core.run Sys2Proof.core k t := by
  have h : Sys2Proof.core.step s = .next t := h
  simp only [Host.Core.run, h]

/-- A run goes on from where its first part got to. -/
theorem run_add {k l : Nat} {s t : State} (h : Host.Core.run Sys2Proof.core k s = .next t) :
    Host.Core.run Sys2Proof.core (k + l) s = Host.Core.run Sys2Proof.core l t := by
  induction k generalizing s with
  | zero =>
    injection h with h
    rw [h, Nat.zero_add]
  | succ k ih =>
    rw [Nat.succ_add]
    simp only [Host.Core.run] at h ⊢
    split at h
    · exact ih h
    · cases h
    · cases h

/-! ### The run of a host program and its premises -/

/-- What the next step handles is an event to come, or the engine's turn. -/
theorem nextEvent_mem (s : State) : nextEvent s ∈ s.schedule ∨ nextEvent s = .engine := by
  unfold nextEvent
  split
  · exact .inr rfl
  next h => exact .inl (by rw [h]; exact .head _)

/-- A run that has not ended goes on from its first step. -/
theorem InRun.head {host : Nat} {s t u : State} (hn : ¬ finished host s) (h : step s = .next t)
    (hr : InRun host t u) : InRun host s u := by
  induction hr with
  | refl => exact .tail (.refl s) hn h
  | tail _ hf hs ih => exact .tail ih hf hs

/-- A run ends at its state where the host's program has ended. -/
theorem runEnds_iff {host : Nat} {s t : State} : RunEnds host s t ↔ InRun host s t ∧ finished host t := by
  constructor
  · intro h
    induction h with
    | here hf => exact ⟨.refl _, hf⟩
    | later hn hs _ ih => exact ⟨ih.1.head hn hs, ih.2⟩
  · rintro ⟨h, hf⟩
    suffices ∀ u, RunEnds host t u → RunEnds host s u from this t (.here hf)
    clear hf
    induction h with
    | refl => exact fun _ => id
    | tail _ hn hs ih => exact fun u hu => ih u (.later hn hs hu)

/-- A run brings no event that was not to come at its launch. -/
theorem InRun.schedule_subset {host : Nat} {s t : State} (h : InRun host s t) : ∀ e ∈ t.schedule, e ∈ s.schedule := by
  induction h with
  | refl => exact fun _ => id
  | tail _ _ hs ih => exact fun e he => ih e (List.mem_of_mem_tail (step_schedule hs ▸ he))

/-- A host is alone during its run if it is alone in the schedule. -/
theorem soleHost_of_schedule {host : Nat} {s : State}
    (h : ∀ e ∈ s.schedule, ∀ other, e.issuer = some other → other = host) : soleHost host s := by
  intro t ht _ other ho
  rcases nextEvent_mem t with hm | he
  · exact h _ (ht.schedule_subset _ hm) other ho
  · rw [he] at ho
    cases ho

/-- A state of a run is the launch state, or a state of the run that goes on after its first step. -/
theorem InRun.cases_head {host : Nat} {s u : State} (h : InRun host s u) :
    u = s ∨ ∃ t, ¬ finished host s ∧ step s = .next t ∧ InRun host t u := by
  induction h with
  | refl => exact .inl rfl
  | tail _ hn hs ih =>
    rcases ih with rfl | ⟨t, hf, ht, hr⟩
    · exact .inr ⟨_, hn, hs, .refl _⟩
    · exact .inr ⟨t, hf, ht, .tail hr hn hs⟩

/-- Where a host's program has ended, nothing of the run is left for another host to access. -/
theorem soleHost_here {host : Nat} {s : State} (hf : finished host s) : soleHost host s := by
  intro u hu hn
  rcases hu.cases_head with rfl | ⟨_, hn', _⟩
  · exact absurd hf hn
  · exact absurd hf hn'

/-- A host is alone during its run if no other host makes the first step and it is alone in the rest of the run. -/
theorem soleHost_later {host : Nat} {s t : State} (ho : ∀ other, (nextEvent s).issuer = some other → other = host)
    (hs : step s = .next t) (h : soleHost host t) : soleHost host s := by
  intro u hu hn
  rcases hu.cases_head with rfl | ⟨t', _, ht', hr⟩
  · exact ho
  · rw [hs] at ht'
    cases ht'
    exact h u hr hn

/-- `after_reset` implies `idle` and `clean_status` (`70_reset_and_hazards.md` rule R275). -/
theorem afterReset_idle_clean {s : State} (h : afterReset s) : idle s ∧ cleanStatus s := by
  unfold afterReset at h
  have hs := congrArg State.status h
  change s.status = (State.resetOf s.build).status at hs
  exact ⟨by rw [idle, hs]; rfl, by rw [hs]; rfl, by rw [hs]; rfl⟩

end Sys2Proof.Machine
end

