-- ==== Sys2Proof/Tests/Slice0.lean ====
section
/-! SUPPORT. The model's own tests. Expected values come from `95_test_vectors.md` (the section is named at each
test) or from the rule it names; the tests marked [MULT] there use its illustration multiplier. Then a witness for
every statement that has hypotheses. -/

namespace Sys2Proof.Tests

open Sys2Proof Sys2Proof.Machine

/-! ### Helpers -/

/-- A small legal build, with the illustration multiplier of `95_test_vectors.md`. -/
def build : Config.Build where
  kMax := 16
  keyMax := 32
  maxBits := 2048
  deriveMult := 0x9E3779B97F4A7C15
  regBase := 0
  bitsBase := 0x2000

/-- A block of that build after reset. -/
def blank : State := State.resetOf build

/-- The bytes of an ASCII text. -/
def ascii (text : String) : List Byte := text.toList.map (fun c => BitVec.ofNat 8 c.toNat)

/-- `s` with a key staged. -/
def withKey (text : String) (s : State) : State :=
  { s with
    keyBuf := (ascii text).zipIdx.foldl (fun mem c => mem.write c.2 c.1) []
    keyLen := BitVec.ofNat 64 text.length }

/-- `blank` with an empty filter of `m` bits and `k` hashes, `n = 1` and `p = 0.5`. -/
def filter (m k : Nat) : State :=
  { blank with
    n := 1
    m := BitVec.ofNat 64 m
    k := BitVec.ofNat 64 k
    p := 0x3FE0000000000000
    nbytes := BitVec.ofNat 64 (ceilDiv8 m)
    status := { blank.status with active := true } }

/-- `s` with the command word `w` latched, and the engine next. -/
def latched (w : Word) (s : State) : State := latchWord w s

/-- `s` with one event to come. -/
def next (e : Event) (s : State) : State := { s with schedule := [e] }

/-- `s` with BUSY = 1. -/
def busy (s : State) : State := { s with status := { s.status with busy := true } }

/-- The state an outcome goes to. -/
def after : Host.Outcome State Fault Refusal → State
  | .next t => t
  | .fault _ => State.reset
  | .refused _ => State.reset

/-- An outcome is a next state. -/
def isNext : Host.Outcome State Fault Refusal → Bool
  | .next _ => true
  | .fault _ => false
  | .refused _ => false

theorem eq_after {o : Host.Outcome State Fault Refusal} (h : isNext o = true) : o = .next (after o) := by
  cases o
  · rfl
  · cases h
  · cases h

/-- The answer an outcome's state holds. -/
def answer (o : Host.Outcome State Fault Refusal) : Option Word :=
  match (after o).response with
  | some (.readData _ _ v) => some v
  | _ => none

/-! ### WellFormed: each check refuses an ill-formed term -/

theorem test_wellFormed_derive_count : (Instr.derive 256).wellFormed = false := by decide

theorem test_wellFormed_stReg : (HostOp.stReg .seed (2 ^ 64)).wellFormed = false := by decide

theorem test_wellFormed_stKey : (HostOp.stKey .b 0 256).wellFormed = false := by decide

theorem test_wellFormed_cmd : (HostOp.cmd (.derive 256)).wellFormed = false := by decide

theorem test_wellFormed_config_n : (HostOp.config (2 ^ 64) 1 1 1).wellFormed = false := by decide

theorem test_wellFormed_config_m : (HostOp.config 1 (2 ^ 64) 1 1).wellFormed = false := by decide

theorem test_wellFormed_config_k : (HostOp.config 1 1 (2 ^ 64) 1).wellFormed = false := by decide

theorem test_wellFormed_config_p : (HostOp.config 1 1 1 (2 ^ 64)).wellFormed = false := by decide

/-! ### Decoding: words written from `30_encoding.md` rules R90 and R93, bit by bit: RSV, CNT, OP -/

theorem test_decode_hash128 : decode (0#48 ++ 0b00000000#8 ++ 0b00000001#8) = some .hash128 := by decide

theorem test_decode_derive : decode (0#48 ++ 0b00000011#8 ++ 0b00000010#8) = some (.derive 3) := by decide

theorem test_decode_configure : decode (0#48 ++ 0b00000000#8 ++ 0b00000011#8) = some .configure := by decide

theorem test_decode_add : decode (0#48 ++ 0b00000000#8 ++ 0b00000100#8) = some .add := by decide

theorem test_decode_test : decode (0#48 ++ 0b00000000#8 ++ 0b00000101#8) = some .test := by decide

theorem test_decode_release : decode (0#48 ++ 0b00000000#8 ++ 0b00000110#8) = some .release := by decide

/-- Section 3.7. -/
theorem test_decode_illegal :
    [0x0, 0x7, 0xFF, 0x101, 0x106, 0x10002, 0x8000000000000004].map (fun w : Word => decode w) =
      List.replicate 7 none := by decide

theorem test_decodeTableWord : decodeTableWord 16 0x0302 = some (.derive 3) ∧ decodeTableWord 8 0x04 = some .add := by
  decide

/-! ### Primitives (section 3.1) -/

theorem test_fmix64 : fmix64 0x0123456789abcdef = 0x87cbfbfe89022cea := by decide

theorem test_mixK1 : mixK1 0x6867666564636261 = 0x2c206eca25d3cf80 := by decide

theorem test_mixK2 : mixK2 0x6867666564636261 = 0xb88d435f311556ee := by decide

/-- The published digest of part 2: two whole blocks and a tail of 11 bytes. -/
theorem test_published_digest :
    createHash (ascii "The quick brown fox jumps over the lazy dog") 0 =
      { h1 := 0xe34bbc7bbc071b6c, h2 := 0x7a433ca9c49a9347 } := by decide

/-- Section 3.2: a tail of 15 bytes. -/
theorem test_long_tail :
    createHash (ascii "abcdefghijklmno") 0 = { h1 := 0x8abe2451890c2ffb, h2 := 0x6a548c2d9c962a61 } := by decide

/-! ### One step of each command -/

/-- Section 3.2: one block and a tail of one byte. -/
theorem test_hash128 :
    let t := after (step (latched 0x1 (withKey "abcdefghijklmnopq" blank)))
    t.h1 = 0x7564747f88bda657 ∧ t.h2 = 0xecda499da1110de4 ∧ t.keyLen = 0 := by decide

/-- Section 3.2, the error vector. -/
theorem test_hash128_error :
    let t := after (step (latched 0x1 { blank with keyLen := 33, h1 := 7 }))
    t.status.word = 0x10402 ∧ t.errInfo = 1 ∧ t.h1 = 7 := by decide

/-- Section 3.3 [MULT]. -/
theorem test_derive :
    let t := after (step (latched 0x302 (withKey "q" blank)))
    t.dcount = 3 ∧ t.dval.take 4 = [0xb7c6845b29b48ddb, 0xe904a96b62de1df4, 0x594d28e19063cd59, 0] := by
  decide

/-- Section 3.3: the count is checked before the key's length. -/
theorem test_derive_error :
    let t := after (step (latched 0x1102 { blank with keyLen := 33 }))
    t.status.word = 0x20402 ∧ t.errInfo = 2 := by decide

/-- Section 3.5. -/
theorem test_configure :
    let t := after (step (latched 0x3 { blank with cfgN := 100, cfgM := 22, cfgK := 1, cfgP := 0x3FECCCCCCCCCCCCD }))
    t.status.word = 0x3000a ∧ t.nbytes = 3 ∧ t.errInfo = 0 := by decide

/-- Section 3.5: p = 1.0. -/
theorem test_configure_error :
    let t := after (step (latched 0x3 { blank with cfgN := 1, cfgM := 1, cfgK := 1, cfgP := 0x3FF0000000000000 }))
    t.status.word = 0x30102 ∧ t.errInfo = 2 := by decide

/-- Section 3.6 [MULT]: positions 0 and 4. -/
theorem test_add :
    let t := after (step (latched 0x4 (withKey "a" (filter 8 2))))
    regRead t .result = 0x2 ∧ t.inserted = 1 ∧ t.bits = [(0, 0x11)] := by decide

/-- Section 3.6: the counter saturates. -/
theorem test_add_saturates :
    let t := after (step (latched 0x4 (withKey "a" { filter 8 2 with inserted := 0xFFFFFFFFFFFFFFFF })))
    regRead t .result = 0x2 ∧ t.inserted = 0xFFFFFFFFFFFFFFFF := by decide

/-- Section 3.6 [MULT]. -/
theorem test_test_found :
    regRead (after (step (latched 0x5 (withKey "a" { filter 8 2 with bits := [(0, 0x11)] })))) .result = 0x1 := by
  decide

/-- Section 3.6: no filter. -/
theorem test_test_error :
    let t := after (step (latched 0x5 (withKey "x" blank)))
    t.status.word = 0x50302 ∧ t.errInfo = 0 ∧ t.keyLen = 0 := by decide

/-- Section 3.6. -/
theorem test_release :
    let t := after (step (latched 0x6 (filter 8 2)))
    t.status.word = 0x60002 ∧ t.m = 0 ∧ t.nbytes = 0 := by decide

/-- Section 3.7: the key stays. -/
theorem test_illegal :
    let t := after (step (latched 0x101 (withKey "x" blank)))
    t.status.word = 0x10502 ∧ t.errInfo = 0x101 ∧ t.keyLen = 1 := by decide

/-- Section 3.4. -/
theorem test_bitIndex :
    [(-1, 1438), (-0x8000000000000000, 1438), (-5, 8), (-1, 3)].map
        (fun c : Int × Nat => bitIndex (BitVec.ofInt 64 c.1) (BitVec.ofNat 64 c.2)) = [1437, 1004, 3, 2] := by
  decide

/-! ### Bus accesses (section 3.8) -/

theorem test_read_id : answer (busAccess 1 (ldReg build .id) blank) = some 0x000000014642334D := by decide

/-- K_MAX = 16 and KEY_MAX = 32 in their fields (`10_state.md` rule R23). -/
theorem test_read_param : answer (busAccess 1 (ldReg build .param) blank) = some 0x0000000000200010 := by
  decide

theorem test_read_status_narrow :
    busAccess 1 (.read 0x28 4) blank = .fault (.busError 1 (.read 0x28 4)) := rfl

theorem test_write_h1 :
    busAccess 1 (stReg build .h1 0) (busy blank) = .fault (.busError 1 (stReg build .h1 0)) := rfl

/-- "Goon" from one 4-byte write. -/
theorem test_write_keyBuf :
    (after (busAccess 1 (stKey build .w 0 0x6E6F6F47) blank)).keyBuf =
      [(0, 0x47), (1, 0x6F), (2, 0x6F), (3, 0x6E)] := by decide

theorem test_write_seed :
    regRead (after (busAccess 1 (stReg build .seed 0x100000005) blank)) .seed = 0x5 := by decide

theorem test_write_keyLen_busy :
    let t := after (busAccess 1 (stReg build .keyLen 5) (busy blank))
    t.keyLen = 0 ∧ t.status.wbusy = true := by decide

theorem test_read_bits_without_filter :
    busAccess 1 (ldBits build .b 0) blank = .fault (.busError 1 (ldBits build .b 0)) := rfl

theorem test_read_bits :
    answer (busAccess 1 (ldBits build .b 0) { filter 8 2 with bits := [(0, 0x11)] }) = some 0x11 := by decide

/-- `30_encoding.md` rule R99: `key "ab"` is two byte writes and a write of KEYLEN. -/
theorem test_key_line :
    lineMoves build (.key (ascii "ab")) =
      [.access (.write 0x1000 1 0x61), .access (.write 0x1001 1 0x62), .access (.write 0x40 8 2)] := by decide

/-- The race of program P3 (part 4): the completion before the SEED write, or in the `wait`. -/
theorem test_race :
    (blank.launch 1 [.stReg .cmd 7, .stReg .seed 5, .wait 1] [false, true]).schedule =
        [ .access 1 (.write 0x20 8 7), .engine, .access 1 (.write 0x38 8 5), .access 1 (.read 0x28 8) ] ∧
      (blank.launch 1 [.stReg .cmd 7, .stReg .seed 5, .wait 1] []).schedule =
        [ .access 1 (.write 0x20 8 7), .access 1 (.write 0x38 8 5), .access 1 (.read 0x28 8), .engine,
          .access 1 (.read 0x28 8) ] := by decide

/-- A host is alone during a run after whose end another host reads, and not during one in which it does. -/
theorem test_sole_host :
    soleHost 1 { blank with schedule := [.access 1 (stReg build .cmd 6), .engine, .access 2 (ldReg build .h1)] } ∧
      ¬ soleHost 1 { blank with schedule := [.access 1 (stReg build .cmd 6), .access 2 (ldReg build .h1)] } := by
  constructor
  · refine soleHost_later (fun _ h => by cases h; rfl) rfl
      (soleHost_later (fun _ h => by cases h) rfl (soleHost_here ⟨fun e he => ?_, rfl⟩))
    rcases he with _ | ⟨_, _ | _⟩
    decide
  · intro h
    exact absurd (h _ (.tail (.refl _) (fun hf => hf.1 _ (.head _) rfl) rfl) (fun hf => by cases hf.2) 2 rfl) (by decide)

/-! ### Witnesses: for every statement with hypotheses, states and operands that meet them together -/

theorem build_legal : legalBuild build := by decide

theorem blank_inv : Inv blank := by
  constructor <;> simp only [blank, State.resetOf] <;>
    first | exact build_legal | simp [Memory.wf, Memory.within, ceilDiv8]

/-- An empty filter within the build's bounds meets the invariants. -/
theorem filter_inv {m k : Nat} (hm : 1 ≤ m ∧ m ≤ 2048) (hk : 1 ≤ k ∧ k ≤ 16) : Inv (filter m k) := by
  have hm64 : (filter m k).m.toNat = m := by simp only [filter, BitVec.toNat_ofNat]; omega
  have hk64 : (filter m k).k.toNat = k := by simp only [filter, BitVec.toNat_ofNat]; omega
  have hn64 : (filter m k).nbytes.toNat = ceilDiv8 m := by simp only [filter, ceilDiv8, BitVec.toNat_ofNat]; omega
  exact
    { blank_inv with
      nbytes_eq := by rw [hn64, hm64]
      active_iff := by rw [hm64]; exact ⟨fun _ => hm.1, fun _ => rfl⟩
      active_n := fun _ => by change 1 ≤ (1 : Word).toNat; decide
      active_m := fun _ => by rw [hm64]; exact hm.2
      active_k := fun _ => by rw [hk64]; exact hk
      active_p := fun _ => by change legalP 0x3FE0000000000000; decide
      none_zero := fun ha => by cases ha
      bits_beyond := fun x _ _ => by simp [filter, blank, State.resetOf, bitGet] }

/-- The smallest and the largest filter of the build. -/
theorem witness_filters : Inv (filter 1 1) ∧ Inv (filter 2048 16) :=
  ⟨filter_inv (by decide) (by decide), filter_inv (by decide) (by decide)⟩

/-- A staged key changes no invariant, as long as it fits. -/
theorem withKey_a_inv {s : State} (h : Inv s) (hb : s.build = build) : Inv (withKey "a" s) where
  build_legal := h.build_legal
  keyBuf_wf := by change Memory.wf [(0, 0x61)]; decide
  keyBuf_within := by change Memory.within s.build.keyMax [(0, 0x61)]; rw [hb]; decide
  bits_wf := h.bits_wf
  bits_within := h.bits_within
  dval_length := h.dval_length
  nbytes_eq := h.nbytes_eq
  active_iff := h.active_iff
  active_n := h.active_n
  active_m := h.active_m
  active_k := h.active_k
  active_p := h.active_p
  none_zero := h.none_zero
  bits_beyond := h.bits_beyond
  dcount_le := h.dcount_le
  dval_beyond := h.dval_beyond

theorem witness_DecodeOfEncode : (Instr.derive 0).wellFormed = true ∧ (Instr.derive 255).wellFormed = true := by decide

theorem witness_EncodeOfDecode : decode 0xFF02 = some (.derive 255) ∧ decode 0x0002 = some (.derive 0) := by decide

theorem witness_DecodeMatchesOpcodeTable :
    ∃ row ∈ opcodeTable, row.mnemonic = "DERIVE" ∧ (0xFF02 : Word) &&& row.mask = row.pattern ∧
      (0x10002 : Word) &&& row.mask ≠ row.pattern :=
  ⟨⟨"DERIVE", 0xFFFFFFFFFFFF00FF, 0x02⟩, by decide, by decide⟩

theorem witness_IllegalWordCompletes :
    blank.status.busy = false ∧ decode 0x7 = none ∧ completesNext (latched 0x7 blank) ∧
      completesNext (latched 0x10002 blank) ∧ decode (latched 0x10002 blank).latch = none :=
  ⟨rfl, by decide, ⟨rfl, rfl⟩, ⟨rfl, rfl⟩, by decide⟩

theorem witness_StepRunsDecodedCommand : completesInstr (latched 0x4 blank) .add := ⟨⟨rfl, rfl⟩, by decide⟩

theorem witness_StepPerformsAccess :
    nextEvent (next (.access 1 (ldReg build .id)) blank) = .access 1 (ldReg build .id) ∧
      nextEvent (next .engine blank) = .engine ∧ nextEvent blank = .engine ∧ blank.status.busy = false :=
  ⟨rfl, rfl, rfl, rfl⟩

theorem witness_FetchedWordRuns : (Instr.hash128).wellFormed = true := by decide

/-- A program whose last access is a CMD write, and which ends at the completion; an idle block's run ends at once. -/
theorem witness_RunFinishesAfterSchedule :
    (∃ t, Host.Core.run Sys2Proof.core ((next (.access 1 (stReg build .cmd 0x6)) blank).schedule.length + 1)
        (next (.access 1 (stReg build .cmd 0x6)) blank) = .next t ∧
      RunEnds 1 (next (.access 1 (stReg build .cmd 0x6)) blank) t) ∧
      RunEnds 1 blank blank := by
  refine ⟨⟨_, rfl, .later (fun h => h.1 _ (.head _) rfl) rfl (.later (fun h => ?_) rfl (.here ⟨?_, rfl⟩))⟩,
    .here ⟨by rintro e (_ | _), rfl⟩⟩
  · cases h.2
  · intro e he
    cases he

/-- A CMD write after an engine turn, and a `wait` for a running command, with one poll that shows BUSY = 1. -/
theorem witness_LaunchedProgramTracksBusy :
    let s : State := { blank with schedule := moveEvents build 1 false [true] [.access (stReg build .cmd 1)] }
    let t : State := { busy blank with schedule := moveEvents build 1 true [false] [.wait 1] }
    (s.schedule = moveEvents s.build 1 s.status.busy [true] [.access (stReg build .cmd 1)] ∧
        ∃ u, Host.Core.run Sys2Proof.core 2 s = .next u) ∧
      t.schedule = moveEvents t.build 1 t.status.busy [false] [.wait 1] ∧ t.status.busy = true ∧
        [false].headD false = false ∧ 0 < 1 :=
  ⟨⟨rfl, _, rfl⟩, rfl, rfl, rfl, by decide⟩

theorem witness_Hash128Computes :
    ({ blank with keyLen := 32 } : State).keyLen.toNat ≤ blank.build.keyMax ∧
      blank.build.keyMax < ({ blank with keyLen := 33 } : State).keyLen.toNat ∧
      (∀ j, j < (withKey "a" blank).keyLen.toNat →
        Memory.read [(0, 0x61), (1, 0x62)] j = (withKey "a" blank).keyBuf.read j) ∧
      0 < (withKey "a" blank).keyLen.toNat := by decide

theorem witness_DeriveComputes :
    16 ≤ blank.build.kMax ∧ blank.build.kMax ≤ 480 ∧ (withKey "q" blank).keyLen.toNat ≤ blank.build.keyMax ∧
      blank.build.kMax < 17 ∧ blank.build.keyMax < ({ blank with keyLen := 33 } : State).keyLen.toNat := by decide

theorem witness_HashBodyBlockByBlock :
    (List.replicate 15 (0 : Byte)).length < 16 ∧ (List.replicate 16 (0 : Byte)).length = 16 := by decide

theorem witness_HashTailTakesLastBytes :
    0 ≤ 8 ∧ 8 ≤ 8 ∧ (List.replicate 32 (0 : Byte)).length % 16 = 0 ∧ (List.replicate 15 (0 : Byte)).length < 16 := by decide

theorem witness_RotlIsRotation : (0 < 1 ∧ 1 < 64) ∧ (0 < 63 ∧ 63 < 64) := by decide

/-- One state for each reason, at the bound where there is one. -/
theorem witness_ConfigureReportsFirstReason :
    blank.cfgN = 0 ∧ ¬ legalP 0 ∧ ¬ legalP 0x3FF0000000000000 ∧ ({ blank with cfgM := 0 } : State).cfgM = 0 ∧
      blank.build.maxBits < ({ blank with cfgM := 2049 } : State).cfgM.toNat ∧
      ({ blank with cfgK := 0 } : State).cfgK = 0 ∧
      blank.build.kMax < ({ blank with cfgK := 17 } : State).cfgK.toNat := by decide

/-- The staged parameters at their bounds. -/
theorem witness_ConfigureBuildsFilter :
    let s : State := { blank with cfgN := 1, cfgP := 0x3FEFFFFFFFFFFFFF, cfgM := 2048, cfgK := 16 }
    let t : State := { blank with cfgN := 1, cfgP := 1, cfgM := 1, cfgK := 1 }
    (s.bits.wf ∧ s.cfgN ≠ 0 ∧ legalP s.cfgP ∧ 1 ≤ s.cfgM.toNat ∧ s.cfgM.toNat ≤ s.build.maxBits ∧
        1 ≤ s.cfgK.toNat ∧ s.cfgK.toNat ≤ s.build.kMax) ∧
      t.bits.wf ∧ t.cfgN ≠ 0 ∧ legalP t.cfgP ∧ 1 ≤ t.cfgM.toNat ∧ t.cfgM.toNat ≤ t.build.maxBits ∧
        1 ≤ t.cfgK.toNat ∧ t.cfgK.toNat ≤ t.build.kMax := by decide

theorem witness_BitIndexIsResidue :
    1 ≤ (1 : Word).toNat ∧ 0 ≤ (0 : Word).toInt ∧ (-1 : Word).toInt < 0 ∧ (0x8000000000000000 : Word).toInt < 0 ∧
      (8 : Word).toNat = 2 ^ 3 := by decide

theorem witness_PositionsOfKey :
    1 ≤ (filter 1 1).m.toNat ∧ (filter 1 1).keyLen = 0 ∧ (withKey "a" (filter 1 1)).keyLen ≠ 0 ∧
      0 < (withKey "a" (filter 1 1)).k.toNat := by decide

theorem witness_AddInserts :
    (∃ s : State, Inv s ∧ s.status.active = true ∧ s.keyLen.toNat ≤ s.build.keyMax ∧ s.keyLen ≠ 0) ∧
      blank.status.active = false ∧ ({ filter 8 2 with keyLen := 33 } : State).status.active = true ∧
      (filter 8 2).build.keyMax < ({ filter 8 2 with keyLen := 33 } : State).keyLen.toNat :=
  ⟨⟨withKey "a" (filter 8 2), withKey_a_inv (filter_inv (by decide) (by decide)) rfl, by decide⟩, by decide⟩

theorem witness_TestAnswers :
    (∃ s : State, Inv s ∧ s.status.active = true ∧ s.keyLen.toNat ≤ s.build.keyMax ∧ s.keyLen = 0) ∧
      blank.status.active = false ∧ ({ filter 8 2 with keyLen := 33 } : State).status.active = true ∧
      (filter 8 2).build.keyMax < ({ filter 8 2 with keyLen := 33 } : State).keyLen.toNat :=
  ⟨⟨filter 8 2, filter_inv (by decide) (by decide), by decide⟩, by decide⟩

/-- States no run reaches: one whose first position fails the check, and one whose second does, after a first whose
bit is set. -/
theorem witness_IndexCheck :
    let s := withKey "a" { filter 8 2 with nbytes := 0 }
    let t := withKey "q" { filter 64 2 with nbytes := 4, bits := [(3, 0x08)] }
    (s.status.active = true ∧ s.keyLen.toNat ≤ s.build.keyMax ∧ positions s = [] ++ 0 :: [4] ∧
        (s.m.toNat ≤ 0 ∨ s.nbytes.toNat ≤ 0 / 8)) ∧
      t.status.active = true ∧ t.keyLen.toNat ≤ t.build.keyMax ∧ positions t = [27] ++ 52 :: [] ∧
        (∀ y ∈ [27], y < t.m.toNat ∧ y / 8 < t.nbytes.toNat) ∧ (t.m.toNat ≤ 52 ∨ t.nbytes.toNat ≤ 52 / 8) ∧
        ∀ y ∈ [27], bitGet t.bits y = true := by decide

theorem witness_KeyClearedExactlyByKeyCommands :
    consumesKey .hash128 ∧ consumesKey (.derive 255) ∧ consumesKey .add ∧ consumesKey .test ∧
      completesNext (latched 0 blank) ∧ decode (latched 0 blank).latch = none ∧
      (∀ j, j < (withKey "a" blank).keyLen.toNat →
        Memory.read [(0, 0x61), (1, 0x62)] j = (withKey "a" blank).keyBuf.read j) :=
  ⟨.inl rfl, .inr (.inl ⟨255, rfl⟩), .inr (.inr (.inl rfl)), .inr (.inr (.inr rfl)), ⟨rfl, rfl⟩, by decide, by decide⟩

/-- A key-consuming command, and a word that is none, that complete with an error. -/
theorem witness_ErrorLeavesTheRest :
    (completesNext (latched 0x4 blank) ∧ step (latched 0x4 blank) = .next (after (step (latched 0x4 blank))) ∧
        (after (step (latched 0x4 blank))).status.err ≠ .ok ∧
        ∃ i, decode (latched 0x4 blank).latch = some i ∧ consumesKey i) ∧
      completesNext (latched 0x7 blank) ∧ step (latched 0x7 blank) = .next (after (step (latched 0x7 blank))) ∧
        (after (step (latched 0x7 blank))).status.err ≠ .ok ∧
        ¬ ∃ i, decode (latched 0x7 blank).latch = some i ∧ consumesKey i := by
  refine ⟨⟨⟨rfl, rfl⟩, rfl, by decide, .add, by decide, .inr (.inr (.inl rfl))⟩, ⟨rfl, rfl⟩, rfl, by decide, ?_⟩
  rintro ⟨i, h, _⟩
  have hn : decode (latched 0x7 blank).latch = none := by decide
  rw [hn] at h
  cases h

theorem witness_FirstErrorInOrder :
    ∃ s : State, Inv s ∧ completesNext s ∧ decode s.latch = none :=
  ⟨latched 0x7 blank, { blank_inv with }, ⟨rfl, rfl⟩, by decide⟩

theorem witness_SeedMattersToHash128Alone :
    Instr.derive 0 ≠ .hash128 ∧ exec (.derive 0) blank = .next (deriveCompletion 0 blank) := ⟨by decide, rfl⟩

theorem witness_RegisterReads :
    blank.status.busy = false ∧
      Reg.status ∈ [Reg.id, .param, .maxBits, .mult, .cmd, .status, .irqEn, .seed, .cfgN, .cfgM, .cfgK, .cfgP] := by
  decide

/-- The last entry of DVAL, and the last legal accesses of KEYBUF and BITS. -/
theorem witness_ArrayReads :
    let s := filter 2048 16
    s.status.busy = false ∧ 15 < s.build.kMax ∧ s.build.kMax ≤ 480 ∧ 24 % Width.d.bytes = 0 ∧
      24 + Width.d.bytes ≤ s.build.keyMax ∧ legalBuild s.build ∧ s.status.active = true ∧ 255 % Width.b.bytes = 0 ∧
      255 + Width.b.bytes ≤ s.nbytes.toNat ∧ s.nbytes.toNat ≤ bitsSize s.build := by decide

theorem witness_BitsReadShowsBitIndices :
    ∃ s : State, Inv s ∧ s.status.busy = false ∧ s.status.active = true ∧ 8 * 31 + 8 ≤ s.nbytes.toNat :=
  ⟨filter 2048 16, filter_inv (by decide) (by decide), by decide⟩

theorem witness_BusyReadsAreDrawn :
    let s := busy (filter 2048 16)
    s.status.busy = true ∧ 15 < s.build.kMax ∧ s.build.kMax ≤ 480 ∧ 31 + Width.b.bytes ≤ s.build.keyMax ∧
      legalBuild s.build ∧ s.status.active = true ∧ 248 % Width.d.bytes = 0 ∧
      248 + Width.d.bytes ≤ s.nbytes.toNat ∧ s.nbytes.toNat ≤ bitsSize s.build := by decide

theorem witness_ReadsChangeNothing :
    busAccess 1 (ldReg build .h1) blank = .next (after (busAccess 1 (ldReg build .h1) blank)) ∧
      (after (busAccess 1 (ldReg build .h1) blank)).draws = blank.draws ∧
      busAccess 1 (stReg build .status 6) blank = .next (after (busAccess 1 (stReg build .status 6) blank)) :=
  ⟨rfl, rfl, rfl⟩

/-- Offsets where the clauses meet: the last register, the reserved range, the last DVAL entry and the one after it,
the last byte of KEYBUF and the one after it. -/
theorem witness_RegWindowBusErrors :
    (∀ o ∈ [0xB8, 0xC0, 0xFF, 0x178, 0x180, 0xFF8, 0x101F, 0x1020], o < regSize build) ∧
      busAccess 1 (.read 0xB8 8) blank = .next (respond 1 8 0 blank) ∧
      busAccess 1 (.read 0xC0 8) blank = .fault (.busError 1 (.read 0xC0 8)) ∧
      busAccess 1 (.read 0x178 8) blank = .next (respond 1 8 0 blank) ∧
      busAccess 1 (.read 0x180 8) blank = .fault (.busError 1 (.read 0x180 8)) ∧
      busAccess 1 (.read 0x101F 1) blank = .next (respond 1 1 0 blank) ∧
      busAccess 1 (.read 0x1020 1) blank = .fault (.busError 1 (.read 0x1020 1)) :=
  ⟨by decide, rfl, rfl, rfl, rfl, rfl, rfl⟩

/-- The last byte of a filter of 1 byte, and the one after it. -/
theorem witness_BitsWindowBusErrors :
    legalBuild (filter 8 2).build ∧ 0 < bitsSize (filter 8 2).build ∧ 1 < bitsSize (filter 8 2).build ∧
      busAccess 1 (.read 0x2000 1) (filter 8 2) = .next (respond 1 1 0 (filter 8 2)) ∧
      busAccess 1 (.read 0x2001 1) (filter 8 2) = .fault (.busError 1 (.read 0x2001 1)) :=
  ⟨build_legal, by decide, by decide, rfl, rfl⟩

/-- The first address after the bit-array window; a power of two that is large enough; the default sizes. -/
theorem witness_OutsideWindowsRefused :
    (0x1000 + build.keyMax ≤ 2 ^ 13 ∧ (build.maxBits + 7) / 8 ≤ 2 ^ 8) ∧
      (unplacedBuild.keyMax = 4096 ∧ unplacedBuild.maxBits = 2 ^ 33) ∧
      (0x2100 < build.regBase ∨ build.regBase + regSize build ≤ 0x2100) ∧
      (0x2100 < build.bitsBase ∨ build.bitsBase + bitsSize build ≤ 0x2100) := by decide

theorem witness_CommandAccepted :
    blank.status.busy = false ∧ completesNext (latched 0xFF blank) ∧ decode (latched 0xFF blank).latch = none ∧
      (busy blank).status.busy = true ∧
      step (next (.access 1 (ldReg build .status)) (busy blank)) =
        .next (after (step (next (.access 1 (ldReg build .status)) (busy blank)))) :=
  ⟨rfl, ⟨rfl, rfl⟩, by decide, rfl, rfl⟩

theorem witness_BusyWritesDiscarded :
    (busy blank).status.busy = true ∧ 24 % Width.d.bytes = 0 ∧ 24 + Width.d.bytes ≤ (busy blank).build.keyMax := by
  decide

theorem witness_StagingWritesStore :
    blank.status.busy = false ∧ (Reg.seed, 0x038) ∈ [(Reg.seed, 0x038), (.keyLen, 0x040), (.cfgN, 0x070),
      (.cfgM, 0x078), (.cfgK, 0x080), (.cfgP, 0x088)] := by decide

theorem witness_KeyBufWriteStoresBytes :
    blank.keyBuf.wf ∧ blank.status.busy = false ∧ 31 % Width.b.bytes = 0 ∧
      31 + Width.b.bytes ≤ blank.build.keyMax ∧ 24 % Width.d.bytes = 0 ∧ 24 + Width.d.bytes ≤ blank.build.keyMax := by
  decide

/-- The state a command runs in keeps the invariants of the one it was issued in. -/
theorem latched_inv {s : State} (h : Inv s) (w : Word) : Inv (latched w s) := { h with }

theorem witness_StepKeepsInvariants :
    ∃ s t : State, Inv s ∧ step s = .next t ∧ s.status.busy = true :=
  ⟨latched 0x4 (withKey "a" (filter 8 2)), _,
    latched_inv (withKey_a_inv (filter_inv (by decide) (by decide)) rfl) _, rfl, rfl⟩

theorem witness_ResetMeetsInvariants : legalBuild build := build_legal

/-- A filter with two bits set, which meets the invariants. -/
def filled : State := { filter 8 2 with bits := [(0, 0x11)], inserted := 1 }

theorem filled_inv : Inv filled := by
  have h := filter_inv (m := 8) (k := 2) (by decide) (by decide)
  exact
    { h with
      bits_wf := by decide
      bits_within := by decide
      bits_beyond := fun x hm hn => absurd (Nat.lt_of_le_of_lt hm hn) (by decide)
      none_zero := fun ha => absurd ha (by decide) }

theorem witness_BitsOnlySet :
    ∃ s t : State, Inv s ∧ ¬ endsFilter s ∧ step s = .next t ∧ 4 < 8 * s.nbytes.toNat ∧ bitGet s.bits 4 = true := by
  refine ⟨latched 0x5 filled, _, latched_inv filled_inv _, ?_, rfl, by decide, by decide⟩
  have hd : decode (latched 0x5 filled).latch = some .test := by decide
  rintro (⟨⟨_, h⟩, _⟩ | ⟨_, h⟩ | ⟨_, h⟩)
  · rw [hd] at h; cases h
  · rw [hd] at h; cases h
  · cases h

/-- A filter with the key "a" staged, and its host about to stage it again after the ADD. -/
def restaging : State :=
  { withKey "a" (filter 8 2) with
    schedule := [.access 1 (stKey build .b 0 0x61), .access 1 (stReg build .keyLen 1)] }

theorem not_endsFilter_of_access {s : State} {host : Nat} {a : Access} (h : nextEvent s = .access host a) :
    ¬ endsFilter s := by
  simp [endsFilter, completesInstr, completesNext, resetsNext, h]

/-- After the ADD, and after each of the host's two writes. -/
def added : State := after (exec .add restaging)

def restaged₁ : State := after (step added)

def restaged₂ : State := after (step restaged₁)

theorem restaged_sameFilter : SameFilter added restaged₂ := by
  have h₀ : nextEvent added = .access 1 (stKey build .b 0 0x61) := by decide
  have h₁ : nextEvent restaged₁ = .access 1 (stReg build .keyLen 1) := by decide
  exact
    .tail (.tail (.refl _) (not_endsFilter_of_access h₀) (eq_after (by decide)))
      (not_endsFilter_of_access h₁) (eq_after (by decide))

theorem witness_NoFalseNegatives :
    ∃ s added later : State, Inv s ∧ exec .add s = .next added ∧ added.status.err = .ok ∧ SameFilter added later ∧
      keyBytes later = keyBytes s ∧ keyBytes s ≠ [] :=
  ⟨restaging, added, restaged₂,
    { withKey_a_inv (filter_inv (m := 8) (k := 2) (by decide) (by decide)) rfl with }, rfl, by decide,
    restaged_sameFilter, by decide, by decide⟩

/-- Garbage in BITARRAY and in LATCH, neither of which anything can observe. -/
theorem witness_UnobservableStateNeverMatters :
    ∃ s : State, Inv s ∧ s.bits ≠ (visible s).bits ∧ s.latch ≠ (visible s).latch :=
  ⟨{ blank with bits := [(3, 0xFF)], latch := 7 },
    { blank_inv with
      bits_wf := by decide
      bits_within := by decide
      bits_beyond := fun x _ hn => absurd hn (by decide +revert) },
    by decide, by decide⟩

theorem witness_BitArrayWriters :
    ∃ s t : State, step s = .next t ∧ ¬ bitsKept s t :=
  ⟨latched 0x4 (withKey "a" (filter 8 2)), _, rfl, fun h => absurd (h 0) (by decide)⟩

/-- A step that changes a result, one that changes the filter's registers, and one that changes a staging register. -/
theorem witness_RegisterWriters :
    (∃ s t : State, step s = .next t ∧ ¬ resetsNext s ∧ t.h1 ≠ s.h1) ∧
      (∃ s t : State, step s = .next t ∧ ¬ resetsNext s ∧ t.dcount ≠ s.dcount) ∧
      (∃ s t : State, step s = .next t ∧ ¬ resetsNext s ∧ t.m ≠ s.m ∧ t.n ≠ s.n) ∧
      ∃ s t : State, step s = .next t ∧ ¬ resetsNext s ∧ t.seed ≠ s.seed :=
  ⟨⟨latched 0x1 (withKey "a" blank), _, rfl, (by rintro ⟨_, h⟩; cases h), by decide⟩,
    ⟨latched 0x302 (withKey "q" blank), _, rfl, (by rintro ⟨_, h⟩; cases h), by decide⟩,
    ⟨latched 0x6 (filter 8 2), _, rfl, (by rintro ⟨_, h⟩; cases h), by decide⟩,
    ⟨next (.access 1 (stReg build .seed 5)) blank, _, rfl, (by rintro ⟨_, h⟩; cases h), by decide⟩⟩

/-- The steps that move BUSY: an acceptance and a completion, and a read that does not. -/
theorem witness_StatusChangesOnlyAt :
    (∃ s t : State, step s = .next t ∧ ¬ resetsNext s ∧ s.status.busy = false ∧ t.status.busy = true) ∧
      (∃ s t : State, step s = .next t ∧ ¬ resetsNext s ∧ t.status.active ≠ s.status.active) ∧
      ∃ s t : State, step s = .next t ∧ ¬ resetsNext s ∧ s.status.busy = true ∧ t.status.busy = true :=
  ⟨⟨next (.access 1 (stReg build .cmd 1)) blank, _, rfl, (by rintro ⟨_, h⟩; cases h), by decide, by decide⟩,
    ⟨latched 0x6 (filter 8 2), _, rfl, (by rintro ⟨_, h⟩; cases h), by decide⟩,
    next (.access 1 (ldReg build .status)) (busy blank), _, rfl, (by rintro ⟨_, h⟩; cases h), by decide,
    by decide⟩

/-- A state with DONE, WBUSY and IE set. -/
def raised : State := { blank with status := { blank.status with done := true, wbusy := true }, irqEnable := true }

theorem witness_DoneIsSticky :
    (∃ t, step (next (.access 1 (stReg build .status 2)) raised) = .next t ∧ t.status.done = false) ∧
      raised.status.done = true ∧ completesNext (latched 0x6 raised) :=
  ⟨⟨_, rfl, by decide⟩, rfl, ⟨rfl, rfl⟩⟩

theorem witness_WbusyIsSticky :
    (∃ t, step (next (.access 1 (stReg build .status 4)) raised) = .next t ∧ t.status.wbusy = false) ∧
      raised.status.wbusy = true ∧
      ∃ t, step (next (.access 1 (stKey build .b 31 0)) (busy blank)) = .next t ∧ t.status.wbusy = true :=
  ⟨⟨_, rfl, by decide⟩, rfl, _, eq_after (by decide), by decide⟩

theorem witness_IrqIsLevel :
    (∃ t, step (next (.access 1 (stReg build .irqEn 0)) raised) = .next t ∧ irq raised = true ∧ irq t = false) ∧
      ∃ t, step (latched 0x6 { blank with irqEnable := true }) = .next t ∧ irq t = true :=
  ⟨⟨_, rfl, by decide, by decide⟩, _, rfl, by decide⟩

theorem witness_ConstantRegisters : legalBuild blank.build := build_legal

/-- A reset that abandons a running command and a read in flight. -/
theorem witness_ResetClears :
    nextEvent (next (.reset (some (1, ldReg build .h1))) (busy blank)) = .reset (some (1, ldReg build .h1)) := rfl

theorem witness_NothingChangesWhileBusy :
    ∃ t, (busy blank).status.busy = true ∧
      nextEvent (next (.access 1 (stReg build .seed 5)) (busy blank)) = .access 1 (stReg build .seed 5) ∧
      step (next (.access 1 (stReg build .seed 5)) (busy blank)) = .next t := ⟨_, rfl, rfl, rfl⟩

theorem witness_InsertedNeverFalls :
    ∃ s t : State, Inv s ∧ ¬ endsFilter s ∧ step s = .next t ∧ t.inserted ≠ s.inserted := by
  refine ⟨latched 0x4 (withKey "a" (filter 8 2)), _,
    latched_inv (withKey_a_inv (filter_inv (by decide) (by decide)) rfl) _, ?_, rfl, by decide⟩
  have hd : decode (latched 0x4 (withKey "a" (filter 8 2))).latch = some .add := by decide
  rintro (⟨⟨_, h⟩, _⟩ | ⟨_, h⟩ | ⟨_, h⟩)
  · rw [hd] at h; cases h
  · rw [hd] at h; cases h
  · cases h

end Sys2Proof.Tests
end

section
/-! What the bus port answers while BUSY = 1, and what acceptance and acknowledgement leave unchanged. -/

namespace Sys2Proof.Machine

/-- BUSY is bit 0 of the STATUS word (`10_state.md` rule R27). -/
theorem Status.word_getLsbD_zero (x : Status) : x.word.getLsbD 0 = x.busy :=
  BitVec.getLsbD_append.trans (by simp)

@[simp] theorem regRead_acknowledge (host : Nat) (s : State) (r : Reg) :
    regRead (acknowledge host s) r = regRead s r := by
  cases r <;> rfl

theorem regRead_acceptCommand {r : Reg} (hr : r ≠ .status) (w : Word) (s : State) :
    regRead (acceptCommand w s) r = regRead s r := by
  cases r
  case status => exact absurd rfl hr
  all_goals rfl

theorem storeUnlessBusy_of_busy {s : State} (hb : s.status.busy = true) (host : Nat) (store : State → State) :
    storeUnlessBusy host store s = .next (acknowledge host (discardWrite s)) := by
  rw [storeUnlessBusy, if_pos hb]

theorem storeUnlessBusy_of_idle {s : State} (hb : s.status.busy = false) (host : Nat) (store : State → State) :
    storeUnlessBusy host store s = .next (acknowledge host (store s)) := by
  rw [storeUnlessBusy, if_neg (by simp [hb])]

/-- CMD and the staging registers: those whose writes BUSY = 1 discards (`20_memory.md` rule R73). -/
def busyDiscards : List Reg := [.cmd, .seed, .keyLen, .cfgN, .cfgM, .cfgK, .cfgP]

/-- A write to one of them is a store that BUSY = 1 discards. -/
theorem regWrite_eq_storeUnlessBusy {r : Reg} (hr : r ∈ busyDiscards) (host addr width : Nat) (v : Word) (s : State) :
    ∃ store, regWrite host addr width v r s = storeUnlessBusy host store s := by
  simp only [busyDiscards, List.mem_cons, List.not_mem_nil, or_false] at hr
  rcases hr with rfl | rfl | rfl | rfl | rfl | rfl | rfl <;> exact ⟨_, by rw [regWrite]⟩

/-- A W1C write, bit by bit (`10_state.md` rule R27). -/
theorem Status.writeOneToClear_eq (x : Status) (v : Word) :
    x.writeOneToClear v =
      { x with
        done := if v.getLsbD 1 = true then false else x.done
        wbusy := if v.getLsbD 2 = true then false else x.wbusy } := by
  unfold Status.writeOneToClear
  cases v.getLsbD 1 <;> cases v.getLsbD 2 <;> simp

/-- No host write ends a running command. -/
theorem WriteEffect.keeps_busy {s u : State} {a : Access} (h : WriteEffect s a u) (hb : s.status.busy = true) :
    u.status.busy = true := by
  cases h with
  | status => exact hb
  | irqEn => exact hb
  | discarded => exact hb
  | stored hidle => simp [hb] at hidle

/-- A step leaves a running command running, unless it completes it or is a reset. -/
theorem step_keeps_busy {s t : State} (hb : s.status.busy = true) (h : step s = .next t) :
    t.status.busy = true ∨ completesNext s ∨ resetsNext s := by
  rcases step_next h with ⟨_, hidle, _⟩ | ⟨hc, _, _⟩ | ⟨_, ⟨hc, _⟩, _⟩ | ⟨_, _, _, _, ⟨_, rfl⟩ | ⟨_, rfl⟩⟩ |
    ⟨_, _, _, _, _, _, hu, rfl⟩ | ⟨inFlight, hr, _⟩
  · simp [hb] at hidle
  · exact .inr (.inl hc)
  · exact .inr (.inl hc)
  · exact .inl hb
  · exact .inl hb
  · exact .inl (hu.keeps_busy hb)
  · exact .inr (.inr ⟨inFlight, hr⟩)

/-- Settles O39: acceptance is `acceptCommand`, and `step_keeps_busy` is the life of BUSY. -/
theorem commandAccepted : Obligations.CommandAccepted := by
  refine ⟨fun s host w hb => ?_, fun s hc hd => ?_, fun s t hb h => step_keeps_busy hb h, fun s reader hb => ?_⟩
  · refine ⟨acknowledge host (acceptCommand w s), ?_, rfl, rfl, fun r hr => ?_, fun _ => rfl, fun _ => rfl,
      fun _ => rfl, rfl, rfl⟩
    · rw [busAccess_stReg]
      exact storeUnlessBusy_of_idle hb host _
    · rw [regRead_acknowledge, regRead_acceptCommand (by simpa using hr)]
  · refine ⟨completeIllegal (afterEvent s), ?_, rfl⟩
    rw [step_of_completesNext hc, completeLatched, afterEvent_latch, hd]
  · refine ⟨respond reader 8 s.status.word s, s.status.word, ?_, rfl, ?_⟩
    · rw [busAccess_ldReg]
      rfl
    · rw [Status.word_getLsbD_zero, hb]

/-- Settles O40: each of these writes ends in `discardWrite`. -/
theorem busyWritesDiscarded : Obligations.BusyWritesDiscarded := by
  intro s host v hb
  refine ⟨fun r hr => ⟨acknowledge host (discardWrite s), ?_, rfl⟩,
    fun width j hal hj => ⟨acknowledge host (discardWrite s), ?_, rfl⟩⟩
  · obtain ⟨store, hstore⟩ := regWrite_eq_storeUnlessBusy hr host (s.build.regBase + r.offset) 8 v s
    rw [busAccess_stReg, hstore, storeUnlessBusy_of_busy hb]
  · rw [busAccess_stKey s host width v hal hj, storeUnlessBusy_of_busy hb]

/-- Settles O41: neither write looks at BUSY. -/
theorem statusAndIrqenWritesPerformed : Obligations.StatusAndIrqenWritesPerformed := by
  intro s host v
  refine ⟨⟨acknowledge host { s with status := s.status.writeOneToClear v }, busAccess_stReg s host .status v, ?_⟩,
    acknowledge host { s with irqEnable := v.getLsbD 0 }, busAccess_stReg s host .irqEn v, rfl, ?_⟩
  · rw [Status.writeOneToClear_eq]
    rfl
  · rw [regRead_acknowledge]
    cases v.getLsbD 0 <;> simp [regRead]

end Sys2Proof.Machine
end

section
/-! When the bus port rejects an access: each range of the windows with the condition it rejects on, then the
windows (`20_memory.md` rules R68 and R69). -/

namespace Sys2Proof.Machine

/-- The outcome of the access `a` is BUSERR where `rejected` holds, and a next state where it does not. -/
def FaultsExactly (rejected : Prop) (host : Nat) (a : Access) (x : Host.Outcome State Fault Refusal) : Prop :=
  (rejected → x = busError host a) ∧ (¬ rejected → ∃ t, x = .next t)

section

variable {p q : Prop} {host : Nat} {a : Access} {x y : Host.Outcome State Fault Refusal}

theorem FaultsExactly.congr (h : FaultsExactly p host a x) (hpq : p ↔ q) : FaultsExactly q host a x := propext hpq ▸ h

theorem FaultsExactly.of_rejected (hp : p) : FaultsExactly p host a (busError host a) :=
  ⟨fun _ => rfl, fun hn => absurd hp hn⟩

theorem FaultsExactly.of_answered (hp : ¬ p) (h : ∃ t, x = .next t) : FaultsExactly p host a x :=
  ⟨fun h' => absurd h' hp, fun _ => h⟩

/-- An access behind a check. -/
theorem FaultsExactly.of_check {c : Prop} [Decidable c] (h : c → FaultsExactly p host a x) :
    FaultsExactly (¬ c ∨ p) host a (if c then x else busError host a) := by
  by_cases hc : c
  · rw [if_pos hc]
    exact (h hc).congr (by simp [hc])
  · rw [if_neg hc]
    exact .of_rejected (.inl hc)

/-- An access behind a check that is all it can fail. -/
theorem FaultsExactly.of_only_check {c : Prop} [Decidable c] (h : c → ∃ t, x = .next t) :
    FaultsExactly (¬ c) host a (if c then x else busError host a) :=
  (FaultsExactly.of_check (p := False) fun hc => .of_answered not_false (h hc)).congr (iff_of_eq (or_false _))

theorem FaultsExactly.ite (h : FaultsExactly p host a x) [Decidable p] :
    if p then x = .fault (.busError host a) else ∃ t, x = .next t := by
  by_cases hp : p
  · rw [if_pos hp]
    exact h.1 hp
  · rw [if_neg hp]
    exact h.2 hp

end

theorem answerUnlessBusy_answers (host width : Nat) (v : Word) (s : State) :
    ∃ t, answerUnlessBusy host width v s = .next t := by
  unfold answerUnlessBusy
  split <;> exact ⟨_, rfl⟩

theorem storeUnlessBusy_answers (host : Nat) (store : State → State) (s : State) :
    ∃ t, storeUnlessBusy host store s = .next t := by
  unfold storeUnlessBusy
  split <;> exact ⟨_, rfl⟩

/-- `REGMAP` has a register at every aligned offset below the reserved range. -/
theorem exists_reg_of_offset {o : Nat} (ho : o < reservedOffset) (hal : o % 8 = 0) : ∃ r : Reg, o = r.offset := by
  have hmap : ∀ i < 24, ∃ r ∈ allRegs, 8 * i = r.offset := by decide
  obtain ⟨r, _, hr⟩ := hmap (o / 8) (by simp only [reservedOffset] at ho; omega)
  exact ⟨r, by omega⟩

/-- The offsets of the read-only registers (`20_memory.md` rule R68). -/
def readOnlyOffsets : List Nat :=
  [0x000, 0x008, 0x010, 0x018, 0x048, 0x050, 0x058, 0x060, 0x068, 0x090, 0x098, 0x0A0, 0x0A8, 0x0B0, 0x0B8]

theorem readOnly_iff_offset_mem (r : Reg) : r.readOnly = true ↔ r.offset ∈ readOnlyOffsets := by
  cases r <;> decide

theorem not_byteAccess_iff (o width : Nat) : ¬ byteAccess o width ↔ width ∉ [1, 2, 4, 8] ∨ o % width ≠ 0 := by
  simp only [byteAccess, Classical.not_and_iff_not_or_not, List.mem_cons, List.not_mem_nil, or_false, ne_eq]

section

variable (s : State) (host addr width o : Nat) (v : Word)

/-! ### Reads -/

theorem readRegister_faultsExactly (ho : o < reservedOffset) :
    FaultsExactly (width ≠ 8 ∨ o % 8 ≠ 0) host (.read addr width) (readRegister host addr width o s) := by
  refine (FaultsExactly.of_only_check fun hw => ?_).congr ?_
  · obtain ⟨r, rfl⟩ := exists_reg_of_offset ho hw.2
    rw [ofOffset_offset]
    by_cases hr : r.busyDraw = true
    · simpa only [if_pos hr] using answerUnlessBusy_answers host width (regRead s r) s
    · exact ⟨respond host width (regRead s r) s, by simp only [if_neg hr]⟩
  · rw [wordAccess, Classical.not_and_iff_not_or_not]

theorem readDval_faultsExactly :
    FaultsExactly ((width ≠ 8 ∨ o % 8 ≠ 0) ∨ s.build.kMax ≤ (o - dvalOffset) / 8) host (.read addr width)
      (readDval host addr width o s) :=
  (FaultsExactly.of_only_check fun _ => answerUnlessBusy_answers ..).congr (by omega)

theorem readKeyBuf_faultsExactly :
    FaultsExactly (width ∉ [1, 2, 4, 8] ∨ o % width ≠ 0 ∨ s.build.keyMax < o - keyBufOffset + width) host
      (.read addr width) (readKeyBuf host addr width o s) :=
  (FaultsExactly.of_only_check fun _ => answerUnlessBusy_answers ..).congr (by
    rw [Classical.not_and_iff_not_or_not, not_byteAccess_iff, Nat.not_le, or_assoc])

theorem readBitsWindow_faultsExactly :
    FaultsExactly (width ∉ [1, 2, 4, 8] ∨ o % width ≠ 0 ∨ s.status.active = false ∨ s.nbytes.toNat < o + width) host
      (.read addr width) (readBitsWindow host addr width o s) :=
  (FaultsExactly.of_only_check fun _ => answerUnlessBusy_answers ..).congr (by
    rw [Classical.not_and_iff_not_or_not, not_byteAccess_iff, Classical.not_and_iff_not_or_not, Nat.not_le,
      Bool.not_eq_true, or_assoc])

/-- The reads that the register window rejects (`20_memory.md` rule R68). -/
theorem readRegWindow_faultsExactly :
    FaultsExactly
      ((o < 0x1000 ∧ (width ≠ 8 ∨ o % 8 ≠ 0)) ∨ (0x0C0 ≤ o ∧ o < 0x100) ∨
        (0x100 ≤ o ∧ o < 0x1000 ∧ s.build.kMax ≤ (o - 0x100) / 8) ∨
        (0x1000 ≤ o ∧ (width ∉ [1, 2, 4, 8] ∨ o % width ≠ 0 ∨ s.build.keyMax < o - 0x1000 + width)))
      host (.read addr width) (readRegWindow host addr width o s) := by
  unfold readRegWindow
  split
  next hreg => exact (readRegister_faultsExactly s host addr width o hreg).congr (by grind)
  next hreg =>
    split
    next hres => exact .of_rejected (.inr (.inl ⟨Nat.le_of_not_lt hreg, hres⟩))
    next hres =>
      split
      next hdval => exact (readDval_faultsExactly s host addr width o).congr (by grind)
      next hkey => exact (readKeyBuf_faultsExactly s host addr width o).congr (by grind)

/-! ### Writes -/

theorem regWrite_faultsExactly (r : Reg) :
    FaultsExactly (r.readOnly = true) host (.write addr width v) (regWrite host addr width v r s) := by
  have discarded {r : Reg} (hr : r ∈ busyDiscards) : ∃ t, regWrite host addr width v r s = .next t := by
    obtain ⟨store, hstore⟩ := regWrite_eq_storeUnlessBusy hr host addr width v s
    exact hstore ▸ storeUnlessBusy_answers host store s
  cases r
  case status | irqEn => exact .of_answered (by decide) ⟨_, rfl⟩
  case cmd | seed | keyLen | cfgN | cfgM | cfgK | cfgP => exact .of_answered (by decide) (discarded (by decide))
  all_goals exact .of_rejected rfl

theorem writeRegister_faultsExactly (ho : o < reservedOffset) :
    FaultsExactly ((width ≠ 8 ∨ o % 8 ≠ 0) ∨ o ∈ readOnlyOffsets) host (.write addr width v)
      (writeRegister host addr width v o s) := by
  refine (FaultsExactly.of_check (p := o ∈ readOnlyOffsets) fun hw => ?_).congr ?_
  · obtain ⟨r, rfl⟩ := exists_reg_of_offset ho hw.2
    rw [ofOffset_offset]
    exact (regWrite_faultsExactly s host addr width v r).congr (readOnly_iff_offset_mem r)
  · rw [wordAccess, Classical.not_and_iff_not_or_not]

theorem writeKeyBuf_faultsExactly :
    FaultsExactly (width ∉ [1, 2, 4, 8] ∨ o % width ≠ 0 ∨ s.build.keyMax < o - keyBufOffset + width) host
      (.write addr width v) (writeKeyBuf host addr width v o s) :=
  (FaultsExactly.of_only_check fun _ => storeUnlessBusy_answers ..).congr (by
    rw [Classical.not_and_iff_not_or_not, not_byteAccess_iff, Nat.not_le, or_assoc])

theorem lt_of_mem_readOnlyOffsets {o : Nat} (h : o ∈ readOnlyOffsets) : o < reservedOffset := by
  have hlt : ∀ o ∈ readOnlyOffsets, o < reservedOffset := by decide
  exact hlt o h

/-- The writes that the register window rejects (`20_memory.md` rule R68). -/
theorem writeRegWindow_faultsExactly :
    FaultsExactly
      ((o < 0x1000 ∧ (width ≠ 8 ∨ o % 8 ≠ 0)) ∨ (0x0C0 ≤ o ∧ o < 0x1000) ∨ o ∈ readOnlyOffsets ∨
        (0x1000 ≤ o ∧ (width ∉ [1, 2, 4, 8] ∨ o % width ≠ 0 ∨ s.build.keyMax < o - 0x1000 + width)))
      host (.write addr width v) (writeRegWindow host addr width v o s) := by
  unfold writeRegWindow
  split
  next hreg => exact (writeRegister_faultsExactly s host addr width o v hreg).congr (by grind)
  next hreg =>
    have hro : o ∉ readOnlyOffsets := fun h => hreg (lt_of_mem_readOnlyOffsets h)
    split
    next hlow => exact .of_rejected (.inr (.inl ⟨Nat.le_of_not_lt hreg, hlow⟩))
    next hkey => exact (writeKeyBuf_faultsExactly s host addr width o v).congr (by grind)

end

/-- Settles O36: the window's address check falls away, and each range rejects exactly on its own condition. -/
theorem regWindowBusErrors : Obligations.RegWindowBusErrors := by
  intro s host o width v ho
  have hin : inWindow s.build.regBase (regSize s.build) (s.build.regBase + o) := ⟨by omega, by omega⟩
  rw [busAccess_read_reg s host width hin, busAccess_write_reg s host width v hin]
  exact ⟨(readRegWindow_faultsExactly s host _ width o).ite, (writeRegWindow_faultsExactly s host _ width o v).ite⟩

/-- Settles O37: in a legal build the address is in no other window, and the window's one check decides. -/
theorem bitsWindowBusErrors : Obligations.BitsWindowBusErrors := by
  intro s host o width v hb ho
  rw [busAccess_read_bits s host width hb ho, busAccess_write_bits s host width v hb ho]
  exact ⟨(readBitsWindow_faultsExactly s host _ width o).ite, rfl⟩

end Sys2Proof.Machine
end

section
/-! Which words are ILLEGAL (`30_encoding.md` rules R92 and R94), and what their completion leaves unchanged. -/

namespace Sys2Proof.Machine

/-! ### The decoder's illegal words -/

theorem withoutCount_eq_none_iff {cnt : Byte} {i : Instr} : withoutCount cnt i = none ↔ cnt ≠ 0 := by
  simp [withoutCount]

theorem decode_of_rsv_ne_zero {w : Word} (hrsv : rsvField w ≠ 0) : decode w = none := by
  rw [decode, if_pos hrsv]

theorem decode_of_derive {w : Word} (hrsv : rsvField w = 0) (hop : opField w = 0x02) :
    decode w = some (.derive (cntField w).toNat) := by
  simp [decode, hrsv, hop]

/-- The opcodes that no command has (`30_encoding.md` rule R93). -/
theorem decode_of_unassigned {w : Word} (hop : opField w = 0x00 ∨ 0x07 ≤ (opField w).toNat) : decode w = none := by
  have hne : opField w ≠ 0x01 ∧ opField w ≠ 0x02 ∧ opField w ≠ 0x03 ∧ opField w ≠ 0x04 ∧ opField w ≠ 0x05 ∧
      opField w ≠ 0x06 := by bv_omega
  simp only [decode, hne, if_false, ite_self]

/-- A command other than DERIVE must have CNT = 0 (`30_encoding.md` rule R92). -/
theorem decode_of_countless {w : Word} (hrsv : rsvField w = 0)
    (hassigned : ¬ (opField w = 0x00 ∨ 0x07 ≤ (opField w).toNat)) (hop : opField w ≠ 0x02) :
    ∃ i, decode w = withoutCount (cntField w) i := by
  have hother : opField w = 0x01 ∨ opField w = 0x03 ∨ opField w = 0x04 ∨ opField w = 0x05 ∨ opField w = 0x06 := by
    bv_omega
  rcases hother with hop | hop | hop | hop | hop <;> exact ⟨_, by simp only [decode, hrsv, hop]; rfl⟩

/-- The three kinds of ILLEGAL word (`30_encoding.md` rule R94). -/
theorem decode_eq_none_iff (w : Word) :
    decode w = none ↔
      (opField w = 0x00 ∨ 0x07 ≤ (opField w).toNat) ∨ (cntField w ≠ 0 ∧ opField w ≠ 0x02) ∨ rsvField w ≠ 0 := by
  by_cases hrsv : rsvField w = 0
  · by_cases hun : opField w = 0x00 ∨ 0x07 ≤ (opField w).toNat
    · exact iff_of_true (decode_of_unassigned hun) (.inl hun)
    · by_cases hop : opField w = 0x02
      · rw [decode_of_derive hrsv hop]
        tauto
      · obtain ⟨i, hi⟩ := decode_of_countless hrsv hun hop
        rw [hi, withoutCount_eq_none_iff]
        tauto
  · exact iff_of_true (decode_of_rsv_ne_zero hrsv) (.inr (.inr hrsv))

/-! ### The completion -/

/-- ERR is bits 15:8 of the STATUS word (`10_state.md` rule R27). -/
theorem Status.word_err (x : Status) : x.word.extractLsb' 8 8 = x.err.code := by
  refine (BitVec.extractLsb'_append_eq_of_le (by decide)).trans ?_
  iterate 4 rw [BitVec.extractLsb'_append_eq_of_le (by decide)]
  exact BitVec.extractLsb'_append_eq_right

theorem regRead_complete {r : Reg} (hr : r ∉ [Reg.status, .errInfo]) (op : Byte) (code : ErrCode) (info : Word)
    (s : State) : regRead (complete op code info s) r = regRead s r := by
  cases r
  case status | errInfo => simp at hr
  all_goals rfl

@[simp] theorem regRead_afterEvent (s : State) (r : Reg) : regRead (afterEvent s) r = regRead s r := by
  cases r <;> rfl

/-- The step that completes an ILLEGAL word. -/
theorem step_of_illegal {s : State} (hc : completesNext s) (hd : decode s.latch = none) :
    step s = .next (completeIllegal (afterEvent s)) := by
  rw [step_of_completesNext hc, completeLatched, afterEvent_latch, hd]

/-- Settles O4: `decode_eq_none_iff` is the three kinds, `commandAccepted` the acceptance, and the completion is a
`complete`, which leaves all but STATUS and ERRINFO. -/
theorem illegalWordCompletes : Obligations.IllegalWordCompletes := by
  refine ⟨decode_eq_none_iff, fun s host w hb _ => ?_, fun s hc hd => ?_⟩
  · obtain ⟨t, ht, hlatch, hstatus, _⟩ := commandAccepted.1 s host w hb
    exact ⟨t, ht, hlatch, by rw [hstatus]⟩
  · refine ⟨completeIllegal (afterEvent s), step_of_illegal hc hd, ⟨rfl, rfl⟩, Status.word_err _, fun r hr => ?_,
      fun _ => rfl, fun _ => rfl, fun _ => rfl, ⟨rfl, rfl, rfl⟩, rfl, rfl⟩
    rw [completeIllegal, regRead_complete hr, regRead_afterEvent]

end Sys2Proof.Machine
end

section
/-! The hash engine's functions: the little-endian words it reads, the body and the tail over appended data, and the
counts of DeriveHashes (`40_hash_engine.md` rules R122 to R129 and R136). -/

namespace Sys2Proof.Machine

/-! ### Words of the data -/

/-- `leSum` as the spec's sum over the byte positions, in increasing order. -/
theorem leSum_eq_foldl (byte : Nat → Byte) (count : Nat) :
    leSum byte count = (List.range count).foldl (fun sum t => sum + (byte t).setWidth 64 <<< (8 * t)) 0 := by
  induction count with
  | zero => rfl
  | succ count ih => rw [leSum, ih, List.range_succ, List.foldl_concat]

/-- `leSum` reads no byte at or beyond its count. -/
theorem leSum_congr {byte byte' : Nat → Byte} {count : Nat} (h : ∀ t < count, byte t = byte' t) :
    leSum byte count = leSum byte' count := by
  induction count with
  | zero => rfl
  | succ count ih => rw [leSum, leSum, ih fun t ht => h t (by omega), h count (by omega)]

theorem dataWord_append_left {front : List Byte} {first count : Nat} (h : first + count ≤ front.length)
    (back : List Byte) : dataWord (front ++ back) first count = dataWord front first count :=
  leSum_congr fun t ht => List.getD_append front back 0 (first + t) (by omega)

theorem dataWord_append_right (front back : List Byte) (first count : Nat) :
    dataWord (front ++ back) (front.length + first) count = dataWord back first count :=
  leSum_congr fun t _ => by
    rw [List.getD_append_right front back 0 _ (by omega), Nat.add_assoc, Nat.add_sub_cancel_left]

/-! ### The body -/

theorem hashBody_of_length_lt {data : List Byte} (h : data.length < 16) (acc : HashPair) :
    hashBody data acc = acc := by
  rw [hashBody, Nat.div_eq_of_lt h]
  rfl

/-- The first 16 bytes are the first block, and block `b + 1` of the data is block `b` of the rest. -/
theorem hashBody_append {block : List Byte} (h : block.length = 16) (rest : List Byte) (acc : HashPair) :
    hashBody (block ++ rest) acc = hashBody rest (blockStep acc (dataWord block 0 8) (dataWord block 8 8)) := by
  have hcount : (block ++ rest).length / 16 = rest.length / 16 + 1 := by
    rw [List.length_append, h, Nat.add_div_left _ (by decide)]
  have hlater (first : Nat) : dataWord (block ++ rest) (16 + first) 8 = dataWord rest first 8 := by
    rw [← h, dataWord_append_right]
  have hnext (b : Nat) : 16 * (b + 1) = 16 + 16 * b := by omega
  simp only [hashBody, hcount, List.range_succ_eq_map, List.foldl_cons, List.foldl_map, hnext, Nat.add_assoc, hlater,
    Nat.mul_zero, Nat.zero_add, dataWord_append_left (front := block) (first := 0) (count := 8) (by omega),
    dataWord_append_left (front := block) (first := 8) (count := 8) (by omega)]

/-! ### The tail -/

/-- After whole blocks, the tail's words are read from the tail alone. -/
theorem hashTail_append {blocks tail : List Byte} (hblocks : blocks.length % 16 = 0) (htail : tail.length < 16)
    (acc : HashPair) :
    hashTail (blocks ++ tail) acc =
      { h1 := if 0 < tail.length then acc.h1 ^^^ mixK1 (dataWord tail 0 (min tail.length 8)) else acc.h1
        h2 := if 8 < tail.length then acc.h2 ^^^ mixK2 (dataWord tail 8 (tail.length - 8)) else acc.h2 } := by
  have hfirst : 16 * ((blocks ++ tail).length / 16) = blocks.length := by
    rw [List.length_append]
    omega
  have hrest : (blocks ++ tail).length % 16 = tail.length := by
    rw [List.length_append]
    omega
  have hword : dataWord (blocks ++ tail) blocks.length (min tail.length 8) = dataWord tail 0 (min tail.length 8) :=
    dataWord_append_right blocks tail 0 _
  simp only [hashTail, hfirst, hrest, hword, dataWord_append_right]

theorem dataWord_take (data : List Byte) (n : Nat) :
    dataWord data 0 (data.take n).length = dataWord (data.take n) 0 (data.take n).length := by
  have h := dataWord_append_left (front := data.take n) (first := 0) (count := (data.take n).length) (by omega)
    (data.drop n)
  rwa [List.take_append_drop] at h

theorem dataWord_drop {data : List Byte} {n : Nat} (hn : n ≤ data.length) (count : Nat) :
    dataWord data n count = dataWord (data.drop n) 0 count := by
  have h := dataWord_append_right (data.take n) (data.drop n) 0 count
  rwa [List.take_append_drop, List.length_take_of_le hn] at h

/-! ### DeriveHashes -/

theorem length_deriveHashes (mult : Word) (key : List Byte) (k : Nat) :
    (deriveHashes mult key k).length = if key = [] then 0 else k := by
  unfold deriveHashes
  split
  next h => rcases h with rfl | rfl <;> simp
  next h => simp [not_or.mp h]

theorem deriveHashes_nil (mult : Word) (k : Nat) : deriveHashes mult [] k = [] := if_pos (.inl rfl)

theorem deriveHashes_zero (mult : Word) (key : List Byte) : deriveHashes mult key 0 = [] := if_pos (.inr rfl)

/-! ### The digests the spec prints -/

/-- `95_test_vectors.md` section 3.2: one block and a tail of one byte. -/
theorem createHash_of_17_bytes :
    createHash
        [ 0x61, 0x62, 0x63, 0x64, 0x65, 0x66, 0x67, 0x68, 0x69, 0x6A, 0x6B, 0x6C, 0x6D, 0x6E, 0x6F, 0x70, 0x71 ] 0 =
      { h1 := 0x7564747f88bda657, h2 := 0xecda499da1110de4 } := by decide

/-- `95_test_vectors.md` part 2, the published digest: two blocks and a tail of 11 bytes. -/
theorem createHash_of_43_bytes :
    createHash
        [ 0x54, 0x68, 0x65, 0x20, 0x71, 0x75, 0x69, 0x63, 0x6B, 0x20, 0x62, 0x72, 0x6F, 0x77, 0x6E, 0x20, 0x66, 0x6F,
          0x78, 0x20, 0x6A, 0x75, 0x6D, 0x70, 0x73, 0x20, 0x6F, 0x76, 0x65, 0x72, 0x20, 0x74, 0x68, 0x65, 0x20, 0x6C,
          0x61, 0x7A, 0x79, 0x20, 0x64, 0x6F, 0x67 ] 0 =
      { h1 := 0xe34bbc7bbc071b6c, h2 := 0x7a433ca9c49a9347 } := by decide

/-- `40_hash_engine.md` rule R140's example: a tail alone, with a seed. -/
theorem createHash_of_12_bytes :
    createHash [0x47, 0x6F, 0x6F, 0x6E, 0x65, 0x79, 0x47, 0x6F, 0x6F, 0x47, 0x6F, 0x6F] 42 =
      { h1 := 0x9668550ca6f44c48, h2 := 0x73ef1cf36e5dc3f2 } := by decide

/-! ### The statements -/

/-- Settles O14: `leSum_eq_foldl` is a block's words, `hashBody_append` the order of the blocks. -/
theorem hashBodyBlockByBlock : Obligations.HashBodyBlockByBlock :=
  ⟨fun _ _ _ => ⟨rfl, rfl⟩, fun _ _ => leSum_eq_foldl _ 8, fun _ acc h => hashBody_of_length_lt h acc,
    fun _ rest acc h => hashBody_append h rest acc⟩

/-- Settles O15: `hashTail_append`, with each word read from its own part of the tail. -/
theorem hashTailTakesLastBytes : Obligations.HashTailTakesLastBytes := by
  refine ⟨fun _ _ count _ => leSum_eq_foldl _ count, fun blocks tail acc hblocks htail => ?_⟩
  rw [hashTail_append hblocks htail]
  congr 1
  · by_cases hempty : tail = []
    · rw [if_neg (by simp [hempty]), if_pos hempty]
    · rw [if_pos (List.length_pos_iff.mpr hempty), if_neg hempty, ← dataWord_take, List.length_take, Nat.min_comm]
  · by_cases hlong : 8 < tail.length
    · rw [if_pos hlong, if_neg (by omega), dataWord_drop (by omega), List.length_drop]
    · rw [if_neg hlong, if_pos (by omega)]

/-- Settles O13. -/
theorem deriveHashesCounts : Obligations.DeriveHashesCounts := fun mult key k =>
  ⟨length_deriveHashes mult key k, deriveHashes_nil mult k, deriveHashes_zero mult key⟩

/-- Settles O59: each step is its definition, the start is the seed zero-extended, and the vector is computed. -/
theorem hashStepsAreTheSpecs : Obligations.HashStepsAreTheSpecs := by
  have hseed (seed : BitVec 32) : (seed.setWidth 64).toNat = seed.toNat := BitVec.toNat_setWidth_of_le (by decide)
  exact ⟨fun _ => rfl, fun _ => rfl, fun seed => ⟨hseed seed, hseed seed⟩, fun _ _ => ⟨rfl, rfl⟩, fun _ => rfl,
    fun _ _ => rfl, createHash_of_17_bytes⟩

end Sys2Proof.Machine
end

section
/-! What a command does with the key: it takes `keyBytes` and clears the key on every exit, or it neither reads nor
writes KEYBUF and KEYLEN (`40_hash_engine.md` rule R138). -/

namespace Sys2Proof.Machine

/-! ### The key commands clear the key -/

theorem keyCleared_complete_clearKey (op : Byte) (code : ErrCode) (info : Word) (s : State) :
    keyCleared (complete op code info (clearKey s)) := ⟨rfl, fun _ => rfl⟩

theorem hash128Completion_keyCleared (s : State) : keyCleared (hash128Completion s) := by
  rcases hash128Completion_cases s with ⟨_, h⟩ | ⟨_, h⟩ <;> rw [h] <;> exact keyCleared_complete_clearKey ..

theorem deriveCompletion_keyCleared (c : Nat) (s : State) : keyCleared (deriveCompletion c s) := by
  rcases deriveCompletion_cases c s with ⟨_, h⟩ | ⟨_, _, h⟩ | ⟨_, _, _, _, h⟩ <;> rw [h] <;>
    exact keyCleared_complete_clearKey ..

theorem addCompletion_keyCleared (s : State) : keyCleared (addCompletion s) := by
  rcases addCompletion_cases s with ⟨_, h⟩ | ⟨_, _, h⟩ | ⟨_, _, _, _, h⟩ | ⟨_, _, _, _, _, h⟩ <;> rw [h] <;>
    exact keyCleared_complete_clearKey ..

theorem testCompletion_keyCleared (s : State) : keyCleared (testCompletion s) := by
  rcases testCompletion_cases s with ⟨_, h⟩ | ⟨_, _, h⟩ | ⟨_, _, _, _, h⟩ | ⟨_, _, _, _, h⟩ <;> rw [h] <;>
    exact keyCleared_complete_clearKey ..

theorem exec_keyCleared {i : Instr} (hi : consumesKey i) (s : State) : ∃ t, exec i s = .next t ∧ keyCleared t := by
  rcases hi with rfl | ⟨c, rfl⟩ | rfl | rfl
  · exact ⟨_, rfl, hash128Completion_keyCleared s⟩
  · exact ⟨_, rfl, deriveCompletion_keyCleared c s⟩
  · exact ⟨_, rfl, addCompletion_keyCleared s⟩
  · exact ⟨_, rfl, testCompletion_keyCleared s⟩

/-! ### The key commands read KEYBUF below KEYLEN alone -/

section
variable {s : State} {buf : Memory}

/-- The key is the bytes of KEYBUF below KEYLEN: two buffers that agree there hold one key. -/
theorem keyBytes_of_agree (h : ∀ j, j < s.keyLen.toNat → buf.read j = s.keyBuf.read j) :
    keyBytes { s with keyBuf := buf } = keyBytes s :=
  List.map_congr_left fun j hj => h j (List.mem_range.mp hj)

theorem positions_of_keyBytes (h : keyBytes { s with keyBuf := buf } = keyBytes s) :
    positions { s with keyBuf := buf } = positions s := by
  rw [positions, h, positions]

/-- Each key command takes KEYBUF through `keyBytes` alone. -/
theorem exec_of_keyBytes {i : Instr} (hi : consumesKey i) (h : keyBytes { s with keyBuf := buf } = keyBytes s) :
    exec i { s with keyBuf := buf } = exec i s := by
  rcases hi with rfl | ⟨c, rfl⟩ | rfl | rfl
  · simp only [exec, execHash128, hash128Completion, h]
    rfl
  · simp only [exec, execDerive, deriveCompletion, h]
    rfl
  · simp only [exec, execAdd, addCompletion, positions_of_keyBytes h]
    rfl
  · simp only [exec, execTest, testCompletion, positions_of_keyBytes h]
    rfl

end

/-! ### The other completions neither read nor write the key -/

/-- The key goes through `f` unread and unchanged. -/
def PassesKey (f : State → State) : Prop :=
  ∀ (s : State) (buf : Memory) (len : Word),
    f { s with keyBuf := buf, keyLen := len } = { f s with keyBuf := buf, keyLen := len }

/-- Whatever ends in such an `f` leaves the key, and does the same to all else whatever the key. -/
theorem PassesKey.of_run {f : State → State} (hf : PassesKey f) {run : State → Host.Outcome State Fault Refusal}
    {s : State}
    (hrun : ∀ (buf : Memory) (len : Word),
      run { s with keyBuf := buf, keyLen := len } = .next (f { s with keyBuf := buf, keyLen := len })) :
    ∃ t, run s = .next t ∧ keyBufKept s t ∧ t.keyLen = s.keyLen ∧
      ∀ (buf : Memory) (len : Word),
        run { s with keyBuf := buf, keyLen := len } = .next { t with keyBuf := buf, keyLen := len } := by
  have hown : f s = { f s with keyBuf := s.keyBuf, keyLen := s.keyLen } := hf s s.keyBuf s.keyLen
  refine ⟨f s, hrun s.keyBuf s.keyLen, fun j => ?_, ?_, fun buf len => by rw [hrun, hf s buf len]⟩
  · rw [hown]
  · rw [hown]

/-- The parameters CONFIGURE checks are no part of the key. -/
theorem configureCompletion_passesKey : PassesKey configureCompletion := by
  intro s buf len
  have hreason : configReason { s with keyBuf := buf, keyLen := len } = configReason s := rfl
  unfold configureCompletion
  rw [hreason]
  cases configReason s <;> rfl

theorem releaseCompletion_passesKey : PassesKey releaseCompletion := fun _ _ _ => rfl

theorem completeIllegal_passesKey : PassesKey fun s => completeIllegal (afterEvent s) := fun _ _ _ => rfl

/-- Settles O26: the key commands by `exec_keyCleared` and `exec_of_keyBytes`, the others by `PassesKey`. -/
theorem keyClearedExactlyByKeyCommands : Obligations.KeyClearedExactlyByKeyCommands := by
  refine ⟨fun s i hi => exec_keyCleared hi s, fun s buf i hi h => exec_of_keyBytes hi (keyBytes_of_agree h), ?_,
    fun s hc hd => completeIllegal_passesKey.of_run fun _ _ => step_of_illegal hc hd⟩
  rintro s i (rfl | rfl)
  · exact configureCompletion_passesKey.of_run fun _ _ => rfl
  · exact releaseCompletion_passesKey.of_run fun _ _ => rfl

end Sys2Proof.Machine
end

section
/-! HASH128: the key it takes, the digest it writes, and what its completion leaves (`40_hash_engine.md` rule R140). -/

namespace Sys2Proof.Machine

theorem length_keyBytes (s : State) : (keyBytes s).length = s.keyLen.toNat := by simp [keyBytes]

theorem getElem?_keyBytes (s : State) {j : Nat} (h : j < s.keyLen.toNat) :
    (keyBytes s)[j]? = some (s.keyBuf.read j) := by simp [keyBytes, h]

theorem regRead_clearKey {r : Reg} (hr : r ≠ .keyLen) (s : State) : regRead (clearKey s) r = regRead s r := by
  cases r
  case keyLen => exact absurd rfl hr
  all_goals rfl

/-- A completion that clears the key, as every exit of a key command does, leaves the registers but these. -/
theorem regRead_complete_clearKey {r : Reg} (hr : r ∉ [Reg.keyLen, .status, .errInfo]) (op : Byte) (code : ErrCode)
    (info : Word) (s : State) : regRead (complete op code info (clearKey s)) r = regRead s r := by
  obtain ⟨hkeyLen, hrest⟩ := not_or.mp (mt List.mem_cons.mpr hr)
  rw [regRead_complete hrest, regRead_clearKey hkeyLen]

/-- Writing a digest writes H1 and H2 alone. -/
theorem regRead_of_digest {r : Reg} (hr : r ∉ [Reg.h1, .h2]) (h : HashPair) (s : State) :
    regRead { s with h1 := h.h1, h2 := h.h2 } r = regRead s r := by
  cases r
  case h1 | h2 => simp at hr
  all_goals rfl

/-- SEED is 32 bits, read with zeros above them (`10_state.md` rule R29). -/
theorem regRead_seed_high (s : State) : (regRead s .seed).extractLsb' 32 32 = 0 := by
  refine BitVec.eq_of_getLsbD_eq fun i hi => ?_
  simp [regRead]

theorem exec_hash128_of_fits {s : State} (h : s.keyLen.toNat ≤ s.build.keyMax) :
    exec .hash128 s =
      .next (complete 0x01 .ok 0
        (clearKey { s with h1 := (createHash (keyBytes s) s.seed).h1, h2 := (createHash (keyBytes s) s.seed).h2 })) :=
  congrArg _ (if_neg (by simpa [keyTooLong] using h))

theorem exec_hash128_of_tooLong {s : State} (h : s.build.keyMax < s.keyLen.toNat) :
    exec .hash128 s = .next (complete 0x01 .arg 1 (clearKey s)) :=
  congrArg _ (if_pos (by simpa [keyTooLong] using h))

/-- Settles O11: `exec_hash128_of_fits` is the result and `exec_hash128_of_tooLong` the error, each with what it leaves;
`exec_of_keyBytes` is that bytes beyond the key are ignored. -/
theorem hash128Computes : Obligations.Hash128Computes := by
  refine ⟨by decide, fun s => ⟨length_keyBytes s, fun j => getElem?_keyBytes s⟩, fun s hfits => ?_, fun s hlong => ?_,
    fun s buf h => exec_of_keyBytes (.inl rfl) (keyBytes_of_agree h), regRead_seed_high, by decide,
    createHash_of_43_bytes, createHash_of_12_bytes⟩
  · refine ⟨_, exec_hash128_of_fits hfits, rfl, rfl, keyCleared_complete_clearKey .., ⟨rfl, rfl⟩,
      fun r hr => ?_, fun _ => rfl, fun _ => rfl, ⟨rfl, rfl, rfl⟩, rfl, rfl⟩
    obtain ⟨hdigest, hrest⟩ : r ∉ [Reg.h1, .h2] ∧ r ∉ [Reg.keyLen, .status, .errInfo] :=
      not_or.mp (mt List.mem_append.mpr hr)
    rw [regRead_complete_clearKey hrest, regRead_of_digest hdigest]
  · exact ⟨_, exec_hash128_of_tooLong hlong, keyCleared_complete_clearKey .., ⟨rfl, rfl⟩,
      fun r hr => regRead_complete_clearKey hr .., fun _ => rfl, fun _ => rfl, ⟨rfl, rfl, rfl⟩, rfl, rfl⟩

end Sys2Proof.Machine
end

section
/-! The bit index as a residue, and the positions of a key (`41_bloom_filter.md` rules R171 and R173). -/

namespace Sys2Proof.Machine

/-! ### The bit index -/

theorem natCast_bitIndex {m : Word} (hm : 1 ≤ m.toNat) (v : Word) :
    (bitIndex v m : Int) = v.toInt % (m.toNat : Int) :=
  Int.toNat_of_nonneg (Int.emod_nonneg _ (by omega))

/-- The hardware's case for a derived value that is not negative. -/
theorem bitIndex_of_nonneg {v : Word} (hv : 0 ≤ v.toInt) (m : Word) : bitIndex v m = v.toNat % m.toNat := by
  have hunsigned : v.toInt = v.toNat := by
    have := v.toInt_eq_toNat_cond
    omega
  rw [bitIndex, hunsigned, ← Int.natCast_mod, Int.toNat_natCast]

theorem neg_emod_natCast {m : Nat} (hm : 1 ≤ m) (u : Nat) : -(u : Int) % (m : Int) = ((m - u % m) % m : Nat) := by
  rw [Int.natCast_mod, Int.natCast_sub (Nat.mod_lt u hm).le, Int.natCast_mod, Int.sub_emod_emod,
    Int.sub_eq_add_neg, Int.add_emod_left]

/-- The hardware's case for a negative derived value, by its magnitude. -/
theorem bitIndex_of_neg {v m : Word} (hm : 1 ≤ m.toNat) (hv : v.toInt < 0) :
    bitIndex v m = (m.toNat - (2 ^ 64 - v.toNat) % m.toNat) % m.toNat := by
  have hmagnitude : v.toInt = -((2 ^ 64 - v.toNat : Nat) : Int) := by
    have := v.toInt_eq_toNat_cond
    have := v.isLt
    omega
  rw [bitIndex, hmagnitude, neg_emod_natCast hm, Int.toNat_natCast]

theorem bitIndex_neg_one {m : Word} (hm : 1 ≤ m.toNat) : bitIndex (-1) m = m.toNat - 1 := by
  have hone : 2 ^ 64 - (-1 : Word).toNat = 1 := by decide
  rw [bitIndex_of_neg hm (by decide), hone]
  rcases Nat.eq_or_lt_of_le hm with h | h
  · rw [← h]
  · rw [Nat.mod_eq_of_lt h, Nat.mod_eq_of_lt (by omega)]

/-- A power of two divides 2^64, so the sign of the derived value is immaterial. -/
theorem bitIndex_of_two_pow {m : Word} {e : Nat} (he : m.toNat = 2 ^ e) (v : Word) :
    bitIndex v m = (v &&& (m - 1)).toNat := by
  have hm : 1 ≤ m.toNat := he ▸ Nat.one_le_two_pow
  have hdvd : (m.toNat : Int) ∣ ((2 ^ 64 : Nat) : Int) := by
    rw [he]
    exact Int.natCast_dvd_natCast.mpr (pow_dvd_pow 2 ((Nat.pow_lt_pow_iff_right (by decide)).mp (he ▸ m.isLt)).le)
  have hpred : (m - 1).toNat = 2 ^ e - 1 := by
    rw [← he]
    bv_omega
  rw [BitVec.toNat_and, hpred, Nat.and_two_pow_sub_one_eq_mod, ← he, bitIndex, BitVec.toInt_eq_toNat_bmod,
    ← Int.emod_emod_of_dvd _ hdvd, Int.bmod_emod, Int.emod_emod_of_dvd _ hdvd, ← Int.natCast_mod, Int.toNat_natCast]

/-- Settles O21: `natCast_bitIndex` is the residue, and the rule's cases and corner cases are lemmas of their own. -/
theorem bitIndexIsResidue : Obligations.BitIndexIsResidue := by
  refine fun v m hm => ⟨bitIndex_lt hm v, ?_, fun hv => bitIndex_of_nonneg hv m, fun hv => bitIndex_of_neg hm hv,
    bitIndex_neg_one hm, natCast_bitIndex hm _, fun e he => bitIndex_of_two_pow he v, by decide⟩
  rw [natCast_bitIndex hm]
  exact Int.dvd_self_sub_emod

/-! ### The positions of a key -/

theorem keyBytes_eq_nil_iff (s : State) : keyBytes s = [] ↔ s.keyLen = 0 := by
  rw [← List.length_eq_zero_iff, length_keyBytes]
  exact BitVec.toNat_inj (y := 0)

theorem positions_of_empty {s : State} (h : s.keyLen = 0) : positions s = [] := by
  rw [positions, (keyBytes_eq_nil_iff s).mpr h, deriveHashes_nil, List.map_nil]

theorem positions_of_nonempty {s : State} (h : s.keyLen ≠ 0) :
    positions s =
      (List.range s.k.toNat).map fun i =>
        bitIndex (derivedValue s.build.deriveMult (createHash (keyBytes s) 0) i) s.m := by
  have hkey : keyBytes s ≠ [] := mt (keyBytes_eq_nil_iff s).mp h
  unfold positions deriveHashes
  by_cases hk : s.k.toNat = 0
  · simp [hk]
  · rw [if_neg (not_or.mpr ⟨hkey, hk⟩), List.map_map]
    rfl

/-- Settles O22: the positions by `positions_of_nonempty` and `positions_of_empty`, their bound by
`mem_positions_lt`. -/
theorem positionsOfKey : Obligations.PositionsOfKey := by
  refine fun s hm => ⟨positions_of_empty, fun hkey => ⟨?_, fun i hi => ?_⟩, fun x hx => mem_positions_lt hm hx⟩
  · rw [positions_of_nonempty hkey, List.length_map, List.length_range]
  · rw [positions_of_nonempty hkey, List.getD_eq_getElem _ _ (by simpa using hi), List.getElem_map, List.getElem_range]

end Sys2Proof.Machine
end

section
/-! RELEASE, ADD and TEST: what each completion writes and what it leaves (`41_bloom_filter.md` rules R177 to R179). -/

namespace Sys2Proof.Machine

/-! ### RELEASE -/

theorem regRead_releaseCompletion {r : Reg}
    (hr : r ∉ [Reg.n, .m, .k, .p, .nbytes, .inserted, .status, .errInfo]) (s : State) :
    regRead (releaseCompletion s) r = regRead s r := by
  cases r
  case n | m | k | p | nbytes | inserted | status | errInfo => simp at hr
  all_goals rfl

/-- Settles O20: `releaseCompletion` writes the filter's registers, STATUS and ERRINFO alone. -/
theorem releaseDropsFilter : Obligations.ReleaseDropsFilter := by
  refine ⟨by decide, fun s => ⟨releaseCompletion s, rfl, rfl, rfl, rfl, rfl, rfl, rfl, ⟨rfl, rfl⟩, fun r hr => ?_,
    fun _ => rfl, fun _ => rfl, fun _ => rfl, ⟨rfl, rfl, rfl⟩, rfl, rfl⟩⟩
  exact regRead_releaseCompletion hr s

/-! ### The errors of the key commands -/

/-- The completion of a key command that wrote nothing in STATUS before it. -/
theorem completed_complete_clearKey {s u : State} {active : Bool} (hu : u.status = s.status)
    (ha : s.status.active = active) (op : Byte) (code : ErrCode) (info : Word) :
    completed op code info active s (complete op code info (clearKey u)) :=
  ⟨by rw [complete_status, clearKey_status, hu, ← ha], rfl⟩

/-- What an error of a key command leaves: the key cleared, the code in STATUS and ERRINFO, and nothing else changed
(`60_exceptions.md` rule R223). -/
theorem keyError_leaves {i : Instr} {op : Byte} {code : ErrCode} {info : Word} {active : Bool} {s : State}
    (hexec : exec i s = .next (complete op code info (clearKey s))) (ha : s.status.active = active) :
    ∃ t, exec i s = .next t ∧ keyCleared t ∧ completed op code info active s t ∧
      regsKept [.keyLen, .status, .errInfo] s t ∧ dvalKept s t ∧ bitsKept s t ∧ blockKept s t ∧ portKept s t :=
  ⟨_, hexec, keyCleared_complete_clearKey .., completed_complete_clearKey rfl ha ..,
    fun _ hr => regRead_complete_clearKey hr .., fun _ => rfl, fun _ => rfl, ⟨rfl, rfl, rfl⟩, rfl, rfl⟩

theorem keyTooLong_eq_false {s : State} (h : s.keyLen.toNat ≤ s.build.keyMax) : keyTooLong s = false := by
  simpa [keyTooLong] using h

theorem keyTooLong_eq_true {s : State} (h : s.build.keyMax < s.keyLen.toNat) : keyTooLong s = true := by
  simpa [keyTooLong] using h

/-! ### ADD -/

theorem exec_add_of_none {s : State} (ha : s.status.active = false) :
    exec .add s = .next (complete 0x04 .state 0 (clearKey s)) := congrArg _ (if_pos ha)

theorem exec_add_of_tooLong {s : State} (ha : s.status.active = true) (hlong : s.build.keyMax < s.keyLen.toNat) :
    exec .add s = .next (complete 0x04 .arg 1 (clearKey s)) := by
  rw [exec, execAdd, addCompletion, if_neg (by simp [ha]), if_pos (keyTooLong_eq_true hlong), raiseErr_eq_complete]

theorem exec_add_of_index {s : State} (ha : s.status.active = true) (hfits : s.keyLen.toNat ≤ s.build.keyMax) {x : Nat}
    (hloop : setPositions (indexBad s) (positions s) s.bits false = .error x) :
    exec .add s = .next (complete 0x04 .index (BitVec.ofNat 64 x) (clearKey s)) := by
  rw [exec, execAdd, addCompletion, if_neg (by simp [ha]), if_neg (by simp [keyTooLong_eq_false hfits]), hloop]
  rfl

theorem exec_add_of_ok {s : State} (ha : s.status.active = true) (hfits : s.keyLen.toNat ≤ s.build.keyMax)
    {bits : Memory} {new : Bool} (hloop : setPositions (indexBad s) (positions s) s.bits false = .ok (bits, new)) :
    exec .add s =
      .next (complete 0x04 .ok 0
        (clearKey
          { s with
            bits := bits
            inserted := insertedAfter new s.inserted
            result := { found := false, isNew := new } })) := by
  rw [exec, execAdd, addCompletion, if_neg (by simp [ha]), if_neg (by simp [keyTooLong_eq_false hfits]), hloop]

/-- ADD's insertion writes INSERTED and RESULT alone among the registers. -/
theorem regRead_of_insertion {r : Reg} (hr : r ∉ [Reg.inserted, .result]) (bits : Memory) (inserted : Word)
    (result : Result) (s : State) :
    regRead { s with bits := bits, inserted := inserted, result := result } r = regRead s r := by
  cases r
  case inserted | result => simp at hr
  all_goals rfl

/-- INSERTED counts with NEW and stops at its largest value (`41_bloom_filter.md` rule R182). -/
theorem toNat_insertedAfter (new : Bool) (inserted : Word) :
    (insertedAfter new inserted).toNat =
      if new = true then min (inserted.toNat + 1) (2 ^ 64 - 1) else inserted.toNat := by
  unfold insertedAfter
  cases new with
  | false => rfl
  | true =>
    simp only [true_and, if_true]
    split <;> bv_omega

/-- Settles O23: `setPositions_ok` is the insertion, `toNat_insertedAfter` the count, and `keyError_leaves` what the
two errors leave. -/
theorem addInserts : Obligations.AddInserts := by
  refine ⟨by decide, fun s hinv ha hfits => ?_, fun s ha => keyError_leaves (exec_add_of_none ha) ha,
    fun s ha hlong => keyError_leaves (exec_add_of_tooLong ha hlong) ha⟩
  obtain ⟨bits, new, hloop, _, hget, hread, _, hnew⟩ :=
    setPositions_ok (indexBad_positions hinv ha) hinv.bits_wf false
  have hkept (b : Nat) (hb : ∀ x ∈ positions s, x / 8 ≠ b) : bits.read b = s.bits.read b :=
    hread b fun x hx => by rw [Nat.shiftRight_eq_div_pow]; exact hb x hx
  refine ⟨_, exec_add_of_ok ha hfits hloop, fun y => (hget y).trans (Bool.or_comm ..), hkept, rfl,
    by simpa using hnew, fun hempty => ?_, toNat_insertedAfter new s.inserted, keyCleared_complete_clearKey ..,
    completed_complete_clearKey rfl ha .., fun r hr => ?_, fun _ => rfl, ⟨rfl, rfl, rfl⟩, rfl, rfl⟩
  · have hnone : positions s = [] := positions_of_empty hempty
    exact ⟨by simpa [hnone] using hnew, fun b => hkept b (by simp [hnone])⟩
  · obtain ⟨hwritten, hrest⟩ : r ∉ [Reg.inserted, .result] ∧ r ∉ [Reg.keyLen, .status, .errInfo] :=
      not_or.mp (mt List.mem_append.mpr hr)
    rw [regRead_complete_clearKey hrest, regRead_of_insertion hwritten]

/-! ### TEST -/

theorem exec_test_of_none {s : State} (ha : s.status.active = false) :
    exec .test s = .next (complete 0x05 .state 0 (clearKey s)) := congrArg _ (if_pos ha)

theorem exec_test_of_tooLong {s : State} (ha : s.status.active = true) (hlong : s.build.keyMax < s.keyLen.toNat) :
    exec .test s = .next (complete 0x05 .arg 1 (clearKey s)) := by
  rw [exec, execTest, testCompletion, if_neg (by simp [ha]), if_pos (keyTooLong_eq_true hlong), raiseErr_eq_complete]

theorem exec_test_of_index {s : State} (ha : s.status.active = true) (hfits : s.keyLen.toNat ≤ s.build.keyMax)
    {x : Nat} (hloop : testPositions (indexBad s) s.bits (positions s) = .error x) :
    exec .test s = .next (complete 0x05 .index (BitVec.ofNat 64 x) (clearKey s)) := by
  rw [exec, execTest, testCompletion, if_neg (by simp [ha]), if_neg (by simp [keyTooLong_eq_false hfits]), hloop]
  rfl

theorem exec_test_of_ok {s : State} (ha : s.status.active = true) (hfits : s.keyLen.toNat ≤ s.build.keyMax)
    {found : Bool} (hloop : testPositions (indexBad s) s.bits (positions s) = .ok found) :
    exec .test s =
      .next (complete 0x05 .ok 0 (clearKey { s with result := { found := found, isNew := false } })) := by
  rw [exec, execTest, testCompletion, if_neg (by simp [ha]), if_neg (by simp [keyTooLong_eq_false hfits]), hloop]

theorem regRead_of_answer {r : Reg} (hr : r ≠ .result) (result : Result) (s : State) :
    regRead { s with result := result } r = regRead s r := by
  cases r
  case result => exact absurd rfl hr
  all_goals rfl

/-- Settles O24: `testPositions_ok` is the answer, and `keyError_leaves` what the two errors leave. -/
theorem testAnswers : Obligations.TestAnswers := by
  refine ⟨by decide, fun s hinv ha hfits => ?_, fun s ha => keyError_leaves (exec_test_of_none ha) ha,
    fun s ha hlong => keyError_leaves (exec_test_of_tooLong ha hlong) ha⟩
  refine ⟨_, exec_test_of_ok ha hfits (testPositions_ok (indexBad_positions hinv ha)), List.all_eq_true, rfl,
    fun hempty => List.all_eq_true.mpr (by simp [positions_of_empty hempty]), keyCleared_complete_clearKey ..,
    completed_complete_clearKey rfl ha .., fun r hr => ?_, fun _ => rfl, fun _ => rfl, ⟨rfl, rfl, rfl⟩, rfl, rfl⟩
  obtain ⟨hresult, hrest⟩ := not_or.mp (mt List.mem_cons.mpr hr)
  rw [regRead_complete_clearKey hrest, regRead_of_answer hresult]

end Sys2Proof.Machine
end

section
/-! The check before each bit access: it passes on every position of a reachable state, and where it fails the command
raises ERR_INDEX (`41_bloom_filter.md` rule R172). -/

namespace Sys2Proof.Machine

theorem indexBad_eq_true_iff (s : State) (x : Nat) :
    indexBad s x = true ↔ s.m.toNat ≤ x ∨ s.nbytes.toNat ≤ x / 8 := by
  simp [indexBad, Nat.shiftRight_eq_div_pow]

theorem indexBad_eq_false_iff (s : State) (x : Nat) :
    indexBad s x = false ↔ x < s.m.toNat ∧ x / 8 < s.nbytes.toNat := by
  simp [indexBad, Nat.shiftRight_eq_div_pow]

/-- TEST's loop reaches a failing check past positions whose bits are all set. -/
theorem testPositions_error {bad : Nat → Bool} {bits : Memory} {before after : List Nat} {x : Nat}
    (hbefore : ∀ y ∈ before, bad y = false) (hset : ∀ y ∈ before, bitGet bits y = true) (hx : bad x = true) :
    testPositions bad bits (before ++ x :: after) = .error x := by
  induction before with
  | nil => simp [testPositions, hx]
  | cons y rest ih =>
    obtain ⟨hy, hrest⟩ := List.forall_mem_cons.mp hbefore
    obtain ⟨hbit, hbits⟩ := List.forall_mem_cons.mp hset
    simp [testPositions, hy, hbit, ih hrest hbits]

/-- No command ends with ERR_INDEX where the invariants hold: ADD and TEST because their loops meet no failing check,
the others because they make none. -/
theorem exec_err_ne_index {s t : State} {i : Instr} (hinv : Inv s) (h : exec i s = .next t) :
    t.status.err ≠ .index := by
  cases i <;> injection h with h <;> subst h
  case hash128 =>
    rcases hash128Completion_cases s with ⟨_, h⟩ | ⟨_, h⟩ <;> simp [h]
  case derive c =>
    rcases deriveCompletion_cases c s with ⟨_, h⟩ | ⟨_, _, h⟩ | ⟨_, _, _, _, h⟩ <;> simp [h]
  case configure =>
    rcases configureCompletion_cases s with ⟨_, _, h⟩ | ⟨_, h⟩ <;> simp [h]
  case add =>
    rcases addCompletion_cases s with ⟨_, h⟩ | ⟨_, _, h⟩ | ⟨ha, _, x, hloop, _⟩ | ⟨_, _, _, _, _, h⟩
    · simp [h]
    · simp [h]
    · obtain ⟨_, _, hok, _⟩ := setPositions_ok (indexBad_positions hinv ha) hinv.bits_wf false
      rw [hok] at hloop
      cases hloop
    · simp [h]
  case test =>
    rcases testCompletion_cases s with ⟨_, h⟩ | ⟨_, _, h⟩ | ⟨ha, _, x, hloop, _⟩ | ⟨_, _, _, _, h⟩
    · simp [h]
    · simp [h]
    · rw [testPositions_ok (indexBad_positions hinv ha)] at hloop
      cases hloop
    · simp [h]
  case release => simp [releaseCompletion]

/-- Settles O25: `indexBad_positions` is that no check fails, `exec_err_ne_index` its consequence for the commands, and
the loops' first failing check is what ADD and TEST raise. -/
theorem indexCheck : Obligations.IndexCheck := by
  refine ⟨fun s hinv ha x hx => (indexBad_eq_false_iff s x).mp (indexBad_positions hinv ha x hx), fun s i hinv => ?_,
    fun s before after x ha hfits hpos hbefore hx => ?_⟩
  · obtain ⟨t, ht⟩ := exec_next i s
    exact ⟨t, ht, exec_err_ne_index hinv ht⟩
  · have hpass (y : Nat) (hy : y ∈ before) : indexBad s y = false := (indexBad_eq_false_iff s y).mpr (hbefore y hy)
    have hfail : indexBad s x = true := (indexBad_eq_true_iff s x).mpr hx
    refine ⟨?_, fun hset => ?_⟩
    · have hloop := hpos ▸ setPositions_error (after := after) hpass hfail s.bits false
      obtain ⟨t, ht, hkey, hdone, hregs, _, hbits, _⟩ := keyError_leaves (exec_add_of_index ha hfits hloop) ha
      exact ⟨t, ht, hkey, hdone, hbits, hregs⟩
    · have hloop := hpos ▸ testPositions_error (after := after) hpass hset hfail
      obtain ⟨t, ht, hkey, hdone, hregs, _, hbits, _⟩ := keyError_leaves (exec_test_of_index ha hfits hloop) ha
      exact ⟨t, ht, hkey, hdone, hbits, hregs⟩

end Sys2Proof.Machine
end

section
/-! INSERTED in one filter's life: ADD alone counts, and no other step that keeps the filter writes it
(`41_bloom_filter.md` rule R182). -/

namespace Sys2Proof.Machine

theorem insertedAfter_false (inserted : Word) : insertedAfter false inserted = inserted := by
  simp [insertedAfter]

/-- The commands that neither count nor end the filter leave INSERTED. -/
theorem exec_inserted {s t : State} {i : Instr} (hadd : i ≠ .add) (hrelease : i ≠ .release)
    (hconfigure : i = .configure → configReason s ≠ none) (h : exec i s = .next t) : t.inserted = s.inserted := by
  cases i <;> injection h with h <;> subst h
  case hash128 =>
    rcases hash128Completion_cases s with ⟨_, h⟩ | ⟨_, h⟩ <;> simp [h]
  case derive c =>
    rcases deriveCompletion_cases c s with ⟨_, h⟩ | ⟨_, _, h⟩ | ⟨_, _, _, _, h⟩ <;> simp [h]
  case configure =>
    rcases configureCompletion_cases s with ⟨_, _, h⟩ | ⟨hnone, _⟩
    · simp [h]
    · exact absurd hnone (hconfigure rfl)
  case add => exact absurd rfl hadd
  case test =>
    rcases testCompletion_cases s with ⟨_, h⟩ | ⟨_, _, h⟩ | ⟨_, _, _, _, h⟩ | ⟨_, _, _, _, h⟩ <;> simp [h]
  case release => exact absurd rfl hrelease

theorem WriteEffect.inserted_eq {s u : State} {a : Access} (h : WriteEffect s a u) : u.inserted = s.inserted := by
  cases h with
  | status => rfl
  | irqEn => rfl
  | discarded => rfl
  | stored _ hu => cases hu <;> rfl

/-- In one filter's life a step that completes no ADD leaves INSERTED. -/
theorem step_inserted {s t : State} (hlife : ¬ endsFilter s) (hadd : ¬ completesInstr s .add)
    (h : step s = .next t) : t.inserted = s.inserted := by
  rcases step_next h with ⟨_, _, rfl⟩ | ⟨_, _, rfl⟩ | ⟨i, hi, hx⟩ | ⟨_, _, _, _, ⟨_, rfl⟩ | ⟨_, rfl⟩⟩ |
    ⟨_, _, _, _, _, _, hu, rfl⟩ | ⟨inFlight, hr, _⟩
  · rfl
  · rfl
  · refine exec_inserted (s := afterEvent s) (i := i) ?_ ?_ ?_ hx
    · rintro rfl
      exact hadd hi
    · rintro rfl
      exact hlife (.inr (.inl hi))
    · rintro rfl hnone
      exact hlife (.inl ⟨hi, hnone⟩)
  · rfl
  · rfl
  · exact hu.inserted_eq
  · exact absurd (.inr (.inr ⟨inFlight, hr⟩)) hlife

/-- A step that completes an ADD counts as its NEW says, or ends with an error and counts nothing. -/
theorem step_add_inserted {s t : State} (hadd : completesInstr s .add) (h : step s = .next t) :
    (t.status.err ≠ .ok ∧ t.inserted = s.inserted) ∨ t.inserted = insertedAfter t.result.isNew s.inserted := by
  obtain ⟨hc, hd⟩ := hadd
  rw [step_of_completesNext hc, completeLatched, afterEvent_latch, hd] at h
  injection h with h
  subst h
  rcases addCompletion_cases (afterEvent s) with ⟨_, h⟩ | ⟨_, _, h⟩ | ⟨_, _, _, _, h⟩ | ⟨_, _, _, _, _, h⟩ <;> rw [h]
  · exact .inl ⟨by simp, rfl⟩
  · exact .inl ⟨by simp, rfl⟩
  · exact .inl ⟨by simp, rfl⟩
  · exact .inr rfl

/-- Settles O58: `step_inserted` for the steps that complete no ADD, `step_add_inserted` for those that do. -/
theorem insertedNeverFalls : Obligations.InsertedNeverFalls := by
  intro s t _ hlife h
  by_cases hadd : completesInstr s .add
  · rcases step_add_inserted hadd h with ⟨herr, hkept⟩ | hcount
    · rw [hkept]
      exact ⟨le_rfl, Nat.le_succ _, fun hne => absurd rfl hne, fun _ hok => absurd hok herr⟩
    · have hnat := toNat_insertedAfter t.result.isNew s.inserted
      rw [← hcount] at hnat
      have hmax := s.inserted.isLt
      refine ⟨?_, ?_, fun hne => ⟨hadd, ?_⟩, fun _ _ hnew hlt => ?_⟩
      · split at hnat <;> omega
      · split at hnat <;> omega
      · by_contra hnew
        rw [hcount, Bool.eq_false_iff.mpr hnew, insertedAfter_false] at hne
        exact hne rfl
      · rw [if_pos hnew] at hnat
        omega
  · rw [step_inserted hlife hadd h]
    exact ⟨le_rfl, Nat.le_succ _, fun hne => absurd rfl hne, fun hc => absurd hc hadd⟩

end Sys2Proof.Machine
end

section
/-! What the completion of the latched word can be, and what an error leaves (`60_exceptions.md` rules R222 and R223). -/

namespace Sys2Proof.Machine

/-! ### The opcode of a latched command -/

theorem eq_of_withoutCount_eq_some {cnt : Byte} {i j : Instr} (h : withoutCount cnt i = some j) : i = j := by
  unfold withoutCount at h
  split at h
  · exact Option.some.inj h
  · cases h

/-- A word that decodes to a command holds its opcode (`30_encoding.md` rules R92 and R93). -/
theorem opField_of_decode {w : Word} {i : Instr} (h : decode w = some i) : opField w = i.opcode := by
  rw [decode] at h
  split_ifs at h with _ _ hderive
  pick_goal 2
  · cases h
    exact hderive
  all_goals
    cases eq_of_withoutCount_eq_some h
    assumption

/-! ### The two ends of a command -/

/-- What an error leaves but for STATUS and ERRINFO: the state the command began in, with the key cleared where the
command consumes it (`40_hash_engine.md` rule R138). No command is an ILLEGAL word. -/
def errorEntry : Option Instr → State → State
  | some .hash128, s | some (.derive _), s | some .add, s | some .test, s => clearKey s
  | some .configure, s | some .release, s | none, s => s

theorem errorEntry_of_consumesKey {i : Instr} (hi : consumesKey i) (s : State) :
    errorEntry (some i) s = clearKey s := by
  rcases hi with rfl | ⟨c, rfl⟩ | rfl | rfl <;> rfl

theorem errorEntry_of_not_consumesKey {cmd : Option Instr} (h : ¬ ∃ i, cmd = some i ∧ consumesKey i) (s : State) :
    errorEntry cmd s = s := by
  rcases cmd with _ | _ | c | _ | _ | _ | _
  case some.hash128 => exact absurd ⟨_, rfl, .inl rfl⟩ h
  case some.derive => exact absurd ⟨_, rfl, .inr (.inl ⟨c, rfl⟩)⟩ h
  case some.add => exact absurd ⟨_, rfl, .inr (.inr (.inl rfl))⟩ h
  case some.test => exact absurd ⟨_, rfl, .inr (.inr (.inr rfl))⟩ h
  all_goals rfl

@[simp] theorem errorEntry_status (cmd : Option Instr) (s : State) : (errorEntry cmd s).status = s.status := by
  rcases cmd with _ | _ | c | _ | _ | _ | _ <;> rfl

@[simp] theorem errorEntry_irqEnable (cmd : Option Instr) (s : State) :
    (errorEntry cmd s).irqEnable = s.irqEnable := by
  rcases cmd with _ | _ | c | _ | _ | _ | _ <;> rfl

/-- The states that the completion of `cmd` in `s` can lead to: an error leaves `errorEntry`, a success what the
command wrote, and neither writes WBUSY or IE. -/
inductive CommandEnd (op : Byte) (cmd : Option Instr) (s : State) : State → Prop where
  | error (code : ErrCode) (info : Word) : CommandEnd op cmd s (complete op code info (errorEntry cmd s))
  | success {u : State} (hwbusy : u.status.wbusy = s.status.wbusy) (hirq : u.irqEnable = s.irqEnable) :
      CommandEnd op cmd s (complete op .ok 0 u)

theorem exec_commandEnd {s t : State} {i : Instr} (h : exec i s = .next t) :
    CommandEnd i.opcode (some i) s t := by
  cases i <;> injection h with h <;> subst h
  case hash128 =>
    rcases hash128Completion_cases s with ⟨_, h⟩ | ⟨_, h⟩ <;> rw [h]
    · exact .error ..
    · exact .success rfl rfl
  case derive c =>
    rcases deriveCompletion_cases c s with ⟨_, h⟩ | ⟨_, _, h⟩ | ⟨_, _, _, _, h⟩ <;> rw [h]
    · exact .error ..
    · exact .error ..
    · exact .success rfl rfl
  case configure =>
    rcases configureCompletion_cases s with ⟨_, _, h⟩ | ⟨_, h⟩ <;> rw [h]
    · exact .error ..
    · exact .success rfl rfl
  case add =>
    rcases addCompletion_cases s with ⟨_, h⟩ | ⟨_, _, h⟩ | ⟨_, _, _, _, h⟩ | ⟨_, _, _, _, _, h⟩ <;> rw [h]
    · exact .error ..
    · exact .error ..
    · exact .error ..
    · exact .success rfl rfl
  case test =>
    rcases testCompletion_cases s with ⟨_, h⟩ | ⟨_, _, h⟩ | ⟨_, _, _, _, h⟩ | ⟨_, _, _, _, h⟩ <;> rw [h]
    · exact .error ..
    · exact .error ..
    · exact .error ..
    · exact .success rfl rfl
  case release => exact .success rfl rfl

/-- Everything a completing step can do, commands and ILLEGAL words alike. -/
theorem step_commandEnd {s t : State} (hc : completesNext s) (h : step s = .next t) :
    CommandEnd (opField s.latch) (decode s.latch) (afterEvent s) t := by
  rw [step_of_completesNext hc, completeLatched, afterEvent_latch] at h
  cases hd : decode s.latch with
  | some i =>
    rw [hd] at h
    rw [opField_of_decode hd]
    exact exec_commandEnd h
  | none =>
    rw [hd] at h
    injection h with h
    subst h
    exact .error ..

section
variable {op : Byte} {cmd : Option Instr} {s t : State}

theorem CommandEnd.error_of_err_ne_ok (h : CommandEnd op cmd s t) (herr : t.status.err ≠ .ok) :
    ∃ code info, t = complete op code info (errorEntry cmd s) := by
  cases h with
  | error code info => exact ⟨code, info, rfl⟩
  | success => exact absurd rfl herr

/-- What the two ends have in common. -/
theorem CommandEnd.flags (h : CommandEnd op cmd s t) :
    t.status =
        { busy := false
          done := true
          wbusy := s.status.wbusy
          active := t.status.active
          err := t.status.err
          lastOp := op } ∧
      t.irqEnable = s.irqEnable := by
  cases h with
  | error => simp
  | success hwbusy hirq => simp [hwbusy, hirq]

end

/-- Settles O27: the end of an error is a `complete` of `errorEntry`, which is the entry state or its `clearKey`. -/
theorem errorLeavesTheRest : Obligations.ErrorLeavesTheRest := by
  intro s t hc h herr
  obtain ⟨code, info, rfl⟩ := (step_commandEnd hc h).error_of_err_ne_ok herr
  by_cases hkey : ∃ i, decode s.latch = some i ∧ consumesKey i
  · obtain ⟨i, hd, hi⟩ := hkey
    rw [hd, errorEntry_of_consumesKey hi]
    refine ⟨fun r hr => ?_, rfl, rfl, rfl, rfl, fun _ => rfl, fun _ => rfl, fun _ => keyCleared_complete_clearKey ..,
      fun hno => absurd ⟨i, rfl, hi⟩ hno, rfl, rfl⟩
    rw [regRead_complete_clearKey (by grind), regRead_afterEvent]
  · rw [errorEntry_of_not_consumesKey hkey]
    refine ⟨fun r hr => ?_, rfl, rfl, rfl, rfl, fun _ => rfl, fun _ => rfl, fun hyes => absurd hyes hkey,
      fun _ => ⟨fun _ => rfl, rfl⟩, rfl, rfl⟩
    rw [regRead_complete (by grind), regRead_afterEvent]

end Sys2Proof.Machine
end

section
/-! What a step does to STATUS and IE: DONE and WBUSY are sticky, and IRQ is their level
(`60_exceptions.md` rules R229 to R231). -/

namespace Sys2Proof.Machine

/-! ### Everything a step can do to STATUS and IE -/

/-- The next step is a write that BUSY = 1 discards: to CMD, a staging register or KEYBUF (`20_memory.md` rule R73). -/
def writesDiscardable (s : State) : Prop :=
  (∃ r ∈ busyDiscards, ∃ v, writesReg s r v) ∨
    ∃ host j width v, nextEvent s = .access host (.write (s.build.regBase + 0x1000 + j) width v) ∧
      j + width ≤ s.build.keyMax

/-- What the step from `s` to `t` does to STATUS and IE. -/
inductive FlagEffect (s t : State) : Prop where
  | completion (hc : completesNext s) (hdone : t.status.done = true) (hwbusy : t.status.wbusy = s.status.wbusy)
      (hirq : t.irqEnable = s.irqEnable)
  | statusWrite (v : Word) (hw : writesReg s .status v) (hstatus : t.status = s.status.writeOneToClear v)
      (hirq : t.irqEnable = s.irqEnable)
  | irqEnWrite (v : Word) (hw : writesReg s .irqEn v) (hstatus : t.status = s.status)
      (hirq : t.irqEnable = v.getLsbD 0)
  | discard (hb : s.status.busy = true) (hw : writesDiscardable s)
      (hstatus : t.status = { s.status with wbusy := true }) (hirq : t.irqEnable = s.irqEnable)
  | acceptance (w : Word) (hw : writesReg s .cmd w) (hb : s.status.busy = false)
      (hstatus : t.status = { s.status with busy := true }) (hirq : t.irqEnable = s.irqEnable)
  | kept (hstatus : t.status = s.status) (hirq : t.irqEnable = s.irqEnable)
  | reset (hr : resetsNext s) (hdone : t.status.done = false) (hwbusy : t.status.wbusy = false)

theorem HostStore.writesDiscardable {s u : State} {host : Nat} {a : Access} (hn : nextEvent s = .access host a)
    (h : HostStore (afterEvent s) a u) : writesDiscardable s := by
  cases h
  case keyBuf j width v hj => exact .inr ⟨host, j, width, v, hn, hj⟩
  all_goals exact .inl ⟨_, by decide, _, host, hn⟩

theorem WriteEffect.flagEffect {s u : State} {host : Nat} {a : Access} (hn : nextEvent s = .access host a)
    (h : WriteEffect (afterEvent s) a u) : FlagEffect s (acknowledge host u) := by
  cases h with
  | status v => exact .statusWrite v ⟨host, hn⟩ rfl rfl
  | irqEn v => exact .irqEnWrite v ⟨host, hn⟩ rfl rfl
  | discarded hb hu => exact .discard hb (hu.writesDiscardable hn) rfl rfl
  | stored hb hu =>
    cases hu
    case command w => exact .acceptance w ⟨host, hn⟩ hb rfl rfl
    all_goals exact .kept rfl rfl

theorem step_flagEffect {s t : State} (h : step s = .next t) : FlagEffect s t := by
  have ends (hc : completesNext s) : FlagEffect s t := by
    obtain ⟨hstatus, hirq⟩ := (step_commandEnd hc h).flags
    exact .completion hc (congrArg Status.done hstatus) (by simpa using congrArg Status.wbusy hstatus) hirq
  rcases step_next h with ⟨_, _, rfl⟩ | ⟨hc, _, _⟩ | ⟨_, ⟨hc, _⟩, _⟩ | ⟨_, _, _, _, ⟨_, rfl⟩ | ⟨_, rfl⟩⟩ |
    ⟨host, _, _, _, u, hn, hu, rfl⟩ | ⟨inFlight, hr, rfl⟩
  · exact .kept rfl rfl
  · exact ends hc
  · exact ends hc
  · exact .kept rfl rfl
  · exact .kept rfl rfl
  · exact hu.flagEffect hn
  · exact .reset ⟨inFlight, hr⟩ rfl rfl

/-! ### DONE -/

/-- A state with another record of the completion before it: DONE, ERR, LASTOP and ERRINFO. -/
def withRecord (done : Bool) (err : ErrCode) (lastOp : Byte) (info : Word) (s : State) : State :=
  { s with status := { s.status with done := done, err := err, lastOp := lastOp }, errInfo := info }

/-- A command reads nothing of the record and overwrites it. -/
theorem exec_withRecord (i : Instr) (done : Bool) (err : ErrCode) (lastOp : Byte) (info : Word) (s : State) :
    exec i (withRecord done err lastOp info s) = exec i s := by
  cases i <;> rfl

theorem completeLatched_withRecord (done : Bool) (err : ErrCode) (lastOp : Byte) (info : Word) (s : State) :
    completeLatched (withRecord done err lastOp info s) = completeLatched s := by
  have hlatch : (withRecord done err lastOp info s).latch = s.latch := rfl
  rw [completeLatched, completeLatched, hlatch]
  cases decode s.latch with
  | some i => exact exec_withRecord i done err lastOp info s
  | none => rfl

theorem step_withRecord {s : State} (hc : completesNext s) (done : Bool) (err : ErrCode) (lastOp : Byte)
    (info : Word) : step (withRecord done err lastOp info s) = step s := by
  have hc' : completesNext (withRecord done err lastOp info s) := hc
  rw [step_of_completesNext hc, step_of_completesNext hc']
  exact completeLatched_withRecord done err lastOp info (afterEvent s)

/-- Settles O52: `CommandEnd.flags` is what a completion sets, `step_flagEffect` that no other step does, and
`step_withRecord` that the latest completion alone counts. -/
theorem doneIsSticky : Obligations.DoneIsSticky := by
  refine ⟨fun s t h => ⟨fun hc => ?_, fun hdone => ?_, fun hdone hclear => ?_⟩,
    fun s done err op info hc => step_withRecord hc done err op info⟩
  · obtain ⟨hstatus, _⟩ := (step_commandEnd hc h).flags
    exact ⟨congrArg Status.done hstatus, congrArg Status.lastOp hstatus⟩
  · cases step_flagEffect h with
    | completion hc => exact .inr hc
    | statusWrite v _ hstatus =>
      rw [hstatus, Status.writeOneToClear, Bool.and_eq_true] at hdone
      exact .inl hdone.1
    | reset _ hzero => simp [hzero] at hdone
    | irqEnWrite _ _ hstatus | discard _ _ hstatus | acceptance _ _ _ hstatus | kept hstatus =>
      rw [hstatus] at hdone
      exact .inl hdone
  · cases step_flagEffect h with
    | completion _ hset => simp [hset] at hclear
    | statusWrite v hw hstatus =>
      rw [hstatus, Status.writeOneToClear, hdone] at hclear
      exact .inr ⟨v, hw, by simpa using hclear⟩
    | reset hr => exact .inl hr
    | irqEnWrite _ _ hstatus | discard _ _ hstatus | acceptance _ _ _ hstatus | kept hstatus =>
      rw [hstatus] at hclear
      simp [hdone] at hclear

/-! ### WBUSY -/

/-- The step that writes a register, without the bus port's checks, which such a write passes. -/
theorem step_of_writesReg {s : State} {r : Reg} {v : Word} (hw : writesReg s r v) :
    ∃ host, step s = regWrite host (s.build.regBase + r.offset) 8 v r (afterEvent s) := by
  obtain ⟨host, hn⟩ := hw
  exact ⟨host, by rw [step_eq_handleEvent, hn]; exact busAccess_stReg (afterEvent s) host r v⟩

/-- No register stands in the key buffer's range (`10_state.md` rule R21). -/
theorem stReg_ne_write_keyBuf (b : Config.Build) (r : Reg) (j width : Nat) (v v' : Word) :
    stReg b r v' ≠ .write (b.regBase + 0x1000 + j) width v := by
  intro h
  obtain ⟨haddr, _⟩ := Access.write.inj h
  have := (offset_lt_reserved r).1
  simp only [reservedOffset] at this
  omega

/-- While BUSY = 1 a host write that is to no register, so to KEYBUF, is discarded (`20_memory.md` rule R73). -/
theorem WriteEffect.eq_discardWrite {s u : State} {a : Access} (h : WriteEffect s a u) (hb : s.status.busy = true)
    (ha : ∀ r v, stReg s.build r v ≠ a) : u = discardWrite s := by
  cases h with
  | status v => exact absurd rfl (ha .status v)
  | irqEn v => exact absurd rfl (ha .irqEn v)
  | discarded => rfl
  | stored hidle => simp [hb] at hidle

theorem step_discards {s t : State} (hb : s.status.busy = true) (hw : writesDiscardable s) (h : step s = .next t) :
    t.status.wbusy = true := by
  rcases hw with ⟨r, hr, v, hw⟩ | ⟨host, j, width, v, hn, _⟩
  · obtain ⟨host, hstep⟩ := step_of_writesReg hw
    obtain ⟨store, hstore⟩ := regWrite_eq_storeUnlessBusy hr host (s.build.regBase + r.offset) 8 v (afterEvent s)
    rw [hstep, hstore, storeUnlessBusy_of_busy (s := afterEvent s) hb] at h
    injection h with h
    subst h
    rfl
  · rw [step_eq_handleEvent, hn] at h
    obtain ⟨u, hu, rfl⟩ := memWrite_next h
    rw [hu.eq_discardWrite hb fun r v' => stReg_ne_write_keyBuf s.build r j width v v']
    rfl

/-- Settles O53: `step_discards` is that a discarded write sets WBUSY, `step_flagEffect` that no other step does and
what clears it. -/
theorem wbusyIsSticky : Obligations.WbusyIsSticky := by
  intro s t h
  refine ⟨fun hb hw => step_discards hb hw h, fun hclear hset => ?_, fun hset hclear => ?_⟩
  · cases step_flagEffect h with
    | discard hb hw => exact ⟨hb, hw⟩
    | completion _ _ hkept => simp [hkept, hclear] at hset
    | statusWrite v _ hstatus => simp [hstatus, Status.writeOneToClear, hclear] at hset
    | reset _ _ hzero => simp [hzero] at hset
    | irqEnWrite _ _ hstatus | acceptance _ _ _ hstatus | kept hstatus => simp [hstatus, hclear] at hset
  · cases step_flagEffect h with
    | statusWrite v hw hstatus =>
      exact .inr ⟨v, hw, by simpa [hstatus, Status.writeOneToClear, hset] using hclear⟩
    | reset hr => exact .inl hr
    | completion _ _ hkept => simp [hkept, hset] at hclear
    | irqEnWrite _ _ hstatus | discard _ _ hstatus | acceptance _ _ _ hstatus | kept hstatus =>
      simp [hstatus, hset] at hclear

/-! ### IRQ -/

theorem irq_of_completesNext {s t : State} (hc : completesNext s) (h : step s = .next t) : irq t = s.irqEnable := by
  obtain ⟨hstatus, hirq⟩ := (step_commandEnd hc h).flags
  rw [irq, hstatus, hirq]
  exact Bool.true_and _

theorem irq_of_writesReg_irqEn {s t : State} {v : Word} (hw : writesReg s .irqEn v) (h : step s = .next t) :
    irq t = (s.status.done && v.getLsbD 0) := by
  obtain ⟨host, hstep⟩ := step_of_writesReg hw
  rw [hstep] at h
  injection h with h
  subst h
  rfl

theorem irq_of_writesReg_status {s t : State} {v : Word} (hw : writesReg s .status v) (h : step s = .next t) :
    irq t = (irq s && !v.getLsbD 1) := by
  obtain ⟨host, hstep⟩ := step_of_writesReg hw
  rw [hstep] at h
  injection h with h
  subst h
  exact Bool.and_right_comm ..

/-- Everything a step can do to IRQ. -/
theorem step_irq {s t : State} (h : step s = .next t) :
    (completesNext s ∧ irq t = s.irqEnable) ∨
      (∃ v, writesReg s .irqEn v ∧ irq t = (s.status.done && v.getLsbD 0)) ∨
      (∃ v, writesReg s .status v ∧ irq t = (irq s && !v.getLsbD 1)) ∨ (resetsNext s ∧ irq t = false) ∨
      irq t = irq s := by
  cases step_flagEffect h with
  | completion hc => exact .inl ⟨hc, irq_of_completesNext hc h⟩
  | irqEnWrite v hw => exact .inr (.inl ⟨v, hw, irq_of_writesReg_irqEn hw h⟩)
  | statusWrite v hw => exact .inr (.inr (.inl ⟨v, hw, irq_of_writesReg_status hw h⟩))
  | reset hr hdone => exact .inr (.inr (.inr (.inl ⟨hr, by rw [irq, hdone, Bool.false_and]⟩)))
  | discard _ _ hstatus hirq | acceptance _ _ _ hstatus hirq | kept hstatus hirq =>
    exact .inr (.inr (.inr (.inr (by rw [irq, hstatus, hirq, irq]))))

theorem irq_eq_true_iff (s : State) : irq s = true ↔ s.status.done = true ∧ s.irqEnable = true := Bool.and_eq_true_iff

/-- Settles O54: the three levels a step can set, and `step_irq` that nothing but these and a reset moves IRQ. -/
theorem irqIsLevel : Obligations.IrqIsLevel := by
  refine ⟨irq_eq_true_iff, fun s t h => ⟨fun hc => irq_of_completesNext hc h,
    fun v hw => irq_of_writesReg_irqEn hw h, fun v hw => irq_of_writesReg_status hw h, fun hlow hhigh => ?_,
    fun hhigh hlow => ?_⟩⟩
  · rcases step_irq h with ⟨hc, ht⟩ | ⟨v, hw, ht⟩ | ⟨v, _, ht⟩ | ⟨_, ht⟩ | ht <;> rw [hhigh] at ht
    · exact .inl ⟨hc, ht.symm⟩
    · obtain ⟨hdone, hbit⟩ := Bool.and_eq_true_iff.mp ht.symm
      exact .inr ⟨v, hw, hbit, hdone⟩
    · simp [hlow] at ht
    · cases ht
    · simp [hlow] at ht
  · obtain ⟨hdone, hie⟩ := (irq_eq_true_iff s).mp hhigh
    rcases step_irq h with ⟨_, ht⟩ | ⟨v, hw, ht⟩ | ⟨v, hw, ht⟩ | ⟨hr, _⟩ | ht
    · simp [ht, hie] at hlow
    · exact .inr (.inr ⟨v, hw, by simpa [ht, hdone] using hlow⟩)
    · exact .inr (.inl ⟨v, hw, by simpa [ht, hhigh] using hlow⟩)
    · exact .inl hr
    · simp [ht, hhigh] at hlow

end Sys2Proof.Machine
end

section
/-! What a reset leaves in the block (`70_reset_and_hazards.md` rules R261 and R262). -/

namespace Sys2Proof.Machine

/-- A reset, as a step. -/
theorem step_of_reset {s : State} {inFlight : Option (Nat × Access)} (h : nextEvent s = .reset inFlight) :
    step s = .next (resetBlock inFlight (afterEvent s)) := by
  rw [step_eq_handleEvent, h, handleEvent]

/-- The reset state shows 0 in every register but the constants. -/
theorem regRead_resetOf {r : Reg} (hr : r ∉ [Reg.id, .param, .maxBits, .mult]) (b : Config.Build) :
    regRead (State.resetOf b) r = 0 := by
  cases r
  case id | param | maxBits | mult => simp at hr
  case status | result =>
    simp only [regRead, State.resetOf]
    decide
  all_goals rfl

/-- The free values that a reset leaves in BITARRAY and LATCH show in no register. -/
theorem regRead_resetBlock (inFlight : Option (Nat × Access)) (s : State) (r : Reg) :
    regRead (resetBlock inFlight s) r = regRead (State.resetOf s.build) r := by
  cases r <;> rfl

/-- With no filter, every read of the bit-array window is a BUSERR (`20_memory.md` rule R69). -/
theorem busAccess_read_bits_of_none {s : State} (ha : s.status.active = false) (host width : Nat)
    (hb : legalBuild s.build) {o : Nat} (ho : o < bitsSize s.build) :
    busAccess host (.read (s.build.bitsBase + o) width) s =
      busError host (.read (s.build.bitsBase + o) width) := by
  rw [busAccess_read_bits s host width hb ho, readBitsWindow, if_neg (by simp [ha])]

/-- Settles O56: `regRead_resetBlock` and `regRead_resetOf` are the registers, `busAccess_read_bits_of_none` the
bit-array window; DVAL, KEYBUF, ACTIVE and IRQ are fields of the reset state. -/
theorem resetClears : Obligations.ResetClears := by
  refine ⟨fun s inFlight hn => ⟨_, step_of_reset hn, rfl, fun r hr => ?_, rfl, fun _ => rfl, rfl, rfl,
      fun host o width hb ho => ?_⟩,
    fun r hr => regRead_resetOf hr _, rfl, fun _ => rfl, rfl⟩
  · rw [regRead_resetBlock, regRead_resetOf hr]
  · exact busAccess_read_bits_of_none (s := resetBlock inFlight (afterEvent s)) rfl host width hb ho

end Sys2Proof.Machine
end

section
/-! The decoder and the encoder as each other's inverse, by the three fields of a command word
(`30_encoding.md` rules R90 to R93). -/

namespace Sys2Proof.Machine

/-! ### The fields of a word -/

theorem word_eq_fields (w : Word) : w = rsvField w ++ cntField w ++ opField w := by
  have hlow : cntField w ++ opField w = w.extractLsb' 0 16 :=
    BitVec.extractLsb'_append_extractLsb'_eq_extractLsb' rfl
  have hword : rsvField w ++ w.extractLsb' 0 16 = w := BitVec.extractLsb'_append_extractLsb' (w := 48) (len := 16)
  rw [BitVec.append_assoc, hlow, hword, BitVec.cast_eq]

@[simp] theorem rsvField_append (rsv : BitVec 48) (cnt op : Byte) : rsvField (rsv ++ cnt ++ op) = rsv :=
  (BitVec.extractLsb'_append_eq_of_le (by decide)).trans BitVec.extractLsb'_append_eq_left

@[simp] theorem opField_append (rsv : BitVec 48) (cnt op : Byte) : opField (rsv ++ cnt ++ op) = op :=
  BitVec.extractLsb'_append_eq_right

theorem wordFields (i : Instr) : Laws.WordFields.Statement i := by
  cases i with
  | hash128 => exact Laws.WordFields.hash128
  | derive c => exact Laws.WordFields.derive c
  | configure => exact Laws.WordFields.configure
  | add => exact Laws.WordFields.add
  | test => exact Laws.WordFields.test
  | release => exact Laws.WordFields.release

theorem withoutCount_eq_some_iff {cnt : Byte} {i j : Instr} :
    withoutCount cnt i = some j ↔ cnt.toNat = 0 ∧ i = j := by
  rw [withoutCount, Option.ite_none_right_eq_some, Option.some.injEq, ← BitVec.toNat_inj]
  rfl

/-- CNT of a word that decodes is the command's count (`30_encoding.md` rules R91 and R92). -/
theorem cntField_of_decode {w : Word} {i : Instr} (h : decode w = some i) : (cntField w).toNat = i.count := by
  rw [decode] at h
  split_ifs at h with _ _ hderive
  pick_goal 2
  · cases h
    rfl
  all_goals
    obtain ⟨hcnt, rfl⟩ := withoutCount_eq_some_iff.mp h
    exact hcnt

/-- A word decodes to a command exactly when its three fields are the command's. -/
theorem decode_eq_some_iff (w : Word) (i : Instr) :
    decode w = some i ↔ rsvField w = 0 ∧ opField w = i.opcode ∧ (cntField w).toNat = i.count := by
  refine ⟨fun h => ⟨?_, opField_of_decode h, cntField_of_decode h⟩, fun ⟨hrsv, hop, hcnt⟩ => ?_⟩
  · by_contra hrsv
    rw [decode_of_rsv_ne_zero hrsv] at h
    cases h
  · cases i with
    | derive c => rw [decode_of_derive hrsv hop, hcnt, Instr.count]
    | hash128 | configure | add | test | release =>
      simp [decode, hrsv, hop, Instr.opcode, withoutCount_eq_some_iff, hcnt, Instr.count]

/-! ### Decoding and encoding -/

/-- Settles O1: the fields of a command's word are the command's. -/
theorem decodeOfEncode : Obligations.DecodeOfEncode := fun i hi =>
  (decode_eq_some_iff (encode i) i).mpr (wordFields i hi)

theorem wellFormed_of_count {i : Instr} (h : i.count ≤ 255) : i.wellFormed = true := by
  cases i with
  | derive c => exact decide_eq_true h
  | hash128 | configure | add | test | release => rfl

theorem encode_of_decode {w : Word} {i : Instr} (h : decode w = some i) : encode i = w := by
  obtain ⟨hrsv, hop, hcnt⟩ := (decode_eq_some_iff w i).mp h
  rw [word_eq_fields w, hrsv, hop, encode, ← hcnt, BitVec.ofNat_toNat, BitVec.setWidth_eq]
  rfl

/-- Settles O2: a word is its three fields, and a word that decodes has the command's. -/
theorem encodeOfDecode : Obligations.EncodeOfDecode := by
  refine fun w i h => ⟨wellFormed_of_count ?_, encode_of_decode h⟩
  rw [← cntField_of_decode h]
  exact Nat.le_of_lt_succ (cntField w).isLt

/-! ### The opcode table -/

/-- A well-formed command has one word. -/
theorem decode_eq_some_iff_eq_encode {w : Word} {i : Instr} (hi : i.wellFormed = true) :
    decode w = some i ↔ w = encode i :=
  ⟨fun h => (encode_of_decode h).symm, fun h => h ▸ decodeOfEncode i hi⟩

/-- DERIVE's words: RSV = 0, OP = 0x02, and any count. -/
theorem exists_decode_derive_iff (w : Word) :
    (∃ c, decode w = some (.derive c)) ↔ rsvField w = 0 ∧ opField w = 0x02 := by
  simp [decode_eq_some_iff, Instr.opcode, Instr.count]

/-- DERIVE's mask leaves out CNT alone. -/
theorem and_deriveMask (w : Word) :
    w &&& 0xFFFFFFFFFFFF00FF = 0x02 ↔ rsvField w = 0 ∧ opField w = 0x02 := by
  have hmask : (0xFFFFFFFFFFFF00FF : Word) = BitVec.allOnes 48 ++ 0#8 ++ BitVec.allOnes 8 := by decide
  have hpattern : (0x02 : Word) = 0#48 ++ 0#8 ++ 0x02#8 := by decide
  conv_lhs => rw [word_eq_fields w, hmask, hpattern]
  rw [BitVec.and_append, BitVec.and_append, BitVec.and_allOnes, BitVec.and_allOnes, BitVec.and_zero]
  constructor
  · intro h
    have hrsv := congrArg rsvField h
    have hop := congrArg opField h
    simp only [rsvField_append, opField_append] at hrsv hop
    exact ⟨hrsv, hop⟩
  · rintro ⟨hrsv, hop⟩
    rw [hrsv, hop]
    rfl

/-- A row without a count: its mnemonic names one command, and its mask keeps every bit. -/
theorem decodes_to_row_iff {i : Instr} (hi : i.wellFormed = true) (hname : ∀ j, j.mnemonic = i.mnemonic ↔ j = i)
    (w : Word) : (∃ j, decode w = some j ∧ j.mnemonic = i.mnemonic) ↔ w &&& 0xFFFFFFFFFFFFFFFF = encode i := by
  have hall : w &&& 0xFFFFFFFFFFFFFFFF = w := BitVec.and_allOnes
  rw [hall, ← decode_eq_some_iff_eq_encode hi]
  simp [hname]

theorem mnemonic_eq_iff {i : Instr} (hi : ∀ c, i ≠ .derive c) (j : Instr) : j.mnemonic = i.mnemonic ↔ j = i := by
  cases i
  case derive c => exact absurd rfl (hi c)
  all_goals cases j <;> simp [Instr.mnemonic]

theorem mnemonic_eq_derive_iff (i : Instr) : i.mnemonic = "DERIVE" ↔ ∃ c, i = .derive c := by
  cases i <;> simp [Instr.mnemonic]

/-- Settles O3: the rows without a count by `decodes_to_row_iff`, DERIVE's by `and_deriveMask`. -/
theorem decodeMatchesOpcodeTable : Obligations.DecodeMatchesOpcodeTable := by
  intro w row hrow
  simp only [opcodeTable, List.mem_cons, List.not_mem_nil, or_false] at hrow
  rcases hrow with rfl | rfl | rfl | rfl | rfl | rfl
  · exact decodes_to_row_iff (i := .hash128) rfl (mnemonic_eq_iff (by simp)) w
  · rw [and_deriveMask, ← exists_decode_derive_iff]
    simp [mnemonic_eq_derive_iff]
  · exact decodes_to_row_iff (i := .configure) rfl (mnemonic_eq_iff (by simp)) w
  · exact decodes_to_row_iff (i := .add) rfl (mnemonic_eq_iff (by simp)) w
  · exact decodes_to_row_iff (i := .test) rfl (mnemonic_eq_iff (by simp)) w
  · exact decodes_to_row_iff (i := .release) rfl (mnemonic_eq_iff (by simp)) w

/-- Settles O5. -/
theorem specWordsDecode : Obligations.SpecWordsDecode := by
  unfold Obligations.SpecWordsDecode
  decide

/-! ### The step that runs a word -/

/-- Settles O6: the engine's turn with BUSY = 1 is the completion of the latched word. -/
theorem stepRunsDecodedCommand : Obligations.StepRunsDecodedCommand := by
  rintro s i ⟨hc, hd⟩
  rw [step_of_completesNext hc, completeLatched, afterEvent_latch, hd]

/-- Settles O7: a step handles its event, and an idle engine has nothing to do. -/
theorem stepPerformsAccess : Obligations.StepPerformsAccess := by
  refine ⟨fun s host a hn => ?_, fun s hn hb => ?_⟩
  · rw [step_eq_handleEvent, hn, handleEvent]
  · rw [step_eq_handleEvent, hn, handleEvent, engineTurn, if_neg (by simp [hb])]

theorem completesNext_latchWord (w : Word) (s : State) : completesNext (latchWord w s) := by
  refine ⟨?_, rfl⟩
  rw [nextEvent, latchWord]
  cases s.schedule <;> rfl

/-- The engine's turn that `latchWord` puts first is the event that the step takes off. -/
theorem afterEvent_latchWord (w : Word) (s : State) :
    afterEvent (latchWord w s) = { s with latch := w, status := { s.status with busy := true } } := by
  have htail : (engineNext s.schedule).tail = s.schedule := by cases s.schedule <;> rfl
  rw [afterEvent, latchWord, htail]

/-- Settles O8: `withFetchWord` is `latchWord` of the command's word, which the next step completes. -/
theorem fetchedWordRuns : Obligations.FetchedWordRuns := by
  intro s i hi
  have hword : BitVec.ofNat 64 ((encode i).toNat % 2 ^ 64) = encode i := by
    rw [Nat.mod_eq_of_lt (encode i).isLt, BitVec.ofNat_toNat, BitVec.setWidth_eq]
  rw [State.withFetchWord, hword,
    stepRunsDecodedCommand (latchWord (encode i) s) i ⟨completesNext_latchWord .., decodeOfEncode i hi⟩,
    afterEvent_latchWord]

end Sys2Proof.Machine
end

section
/-! The two ends of a command with what it has written by then, and the values that DERIVE and CONFIGURE write. -/

namespace Sys2Proof.Machine

/-! ### What the commands write -/

/-- DERIVE's values, with zeros up to `K_MAX`, and their count (`40_hash_engine.md` rule R141). -/
def withDerived (values : List Word) (s : State) : State :=
  { s with
    dval := values ++ List.replicate (s.build.kMax - values.length) 0
    dcount := BitVec.ofNat 64 values.length }

/-- The empty filter that CONFIGURE builds (`41_bloom_filter.md` rule R176). -/
def newFilter (s : State) : State :=
  { s with
    n := s.cfgN
    m := s.cfgM
    k := s.cfgK
    p := s.cfgP
    nbytes := BitVec.ofNat 64 (ceilDiv8 s.cfgM.toNat)
    bits := s.bits.zeroBelow (ceilDiv8 s.cfgM.toNat)
    inserted := 0
    status := { s.status with active := true } }

/-- No filter, as RELEASE leaves it (`41_bloom_filter.md` rule R177). -/
def dropFilter (s : State) : State :=
  { s with
    n := 0
    m := 0
    k := 0
    p := 0
    nbytes := 0
    inserted := 0
    status := { s.status with active := false } }

/-! ### The ends of a command -/

/-- What a command that succeeds has written when it completes, with the checks it has passed. -/
inductive CommandWrites (s : State) : Instr → State → Prop where
  | hash128 (hfits : keyTooLong s = false) :
      CommandWrites s .hash128
        (clearKey { s with h1 := (createHash (keyBytes s) s.seed).h1, h2 := (createHash (keyBytes s) s.seed).h2 })
  | derive {c : Nat} (hc : c ≤ s.build.kMax) (hfits : keyTooLong s = false) :
      CommandWrites s (.derive c)
        (clearKey (withDerived (deriveHashes s.build.deriveMult (keyBytes s) c) s))
  | configure (hreason : configReason s = none) : CommandWrites s .configure (newFilter s)
  | add (ha : s.status.active = true) (hfits : keyTooLong s = false) {bits : Memory} {new : Bool}
      (hloop : setPositions (indexBad s) (positions s) s.bits false = .ok (bits, new)) :
      CommandWrites s .add
        (clearKey
          { s with
            bits := bits
            inserted := insertedAfter new s.inserted
            result := { found := false, isNew := new } })
  | test (ha : s.status.active = true) (hfits : keyTooLong s = false) {found : Bool}
      (hloop : testPositions (indexBad s) s.bits (positions s) = .ok found) :
      CommandWrites s .test (clearKey { s with result := { found := found, isNew := false } })
  | release : CommandWrites s .release (dropFilter s)

/-- The states a command can end in: a failed check leaves `errorEntry`, a success what the command wrote. -/
inductive ExecEnd (s : State) (i : Instr) : State → Prop where
  | failed {code : ErrCode} (hcode : code ≠ .ok) (info : Word) :
      ExecEnd s i (complete i.opcode code info (errorEntry (some i) s))
  | succeeded {u : State} (hu : CommandWrites s i u) : ExecEnd s i (complete i.opcode .ok 0 u)

theorem exec_end_cases {s t : State} {i : Instr} (h : exec i s = .next t) : ExecEnd s i t := by
  cases i <;> injection h with h <;> subst h
  case hash128 =>
    rcases hash128Completion_cases s with ⟨_, h⟩ | ⟨hfits, h⟩ <;> rw [h]
    · exact .failed (by decide) _
    · exact .succeeded (.hash128 hfits)
  case derive c =>
    rcases deriveCompletion_cases c s with ⟨_, h⟩ | ⟨_, _, h⟩ | ⟨hc, hfits, _, rfl, h⟩ <;> rw [h]
    · exact .failed (by decide) _
    · exact .failed (by decide) _
    · exact .succeeded (.derive hc hfits)
  case configure =>
    rcases configureCompletion_cases s with ⟨_, _, h⟩ | ⟨hreason, h⟩ <;> rw [h]
    · exact .failed (by decide) _
    · exact .succeeded (.configure hreason)
  case add =>
    rcases addCompletion_cases s with ⟨_, h⟩ | ⟨_, _, h⟩ | ⟨_, _, _, _, h⟩ | ⟨ha, hfits, _, _, hloop, h⟩ <;> rw [h]
    · exact .failed (by decide) _
    · exact .failed (by decide) _
    · exact .failed (by decide) _
    · exact .succeeded (.add ha hfits hloop)
  case test =>
    rcases testCompletion_cases s with ⟨_, h⟩ | ⟨_, _, h⟩ | ⟨_, _, _, _, h⟩ | ⟨ha, hfits, _, hloop, h⟩ <;> rw [h]
    · exact .failed (by decide) _
    · exact .failed (by decide) _
    · exact .failed (by decide) _
    · exact .succeeded (.test ha hfits hloop)
  case release => exact .succeeded .release

/-! ### DVAL after DERIVE -/

theorem getD_replicate_zero (zeros i : Nat) : (List.replicate zeros (0 : Word)).getD i 0 = 0 := by
  rw [List.getD_eq_getElem?_getD, List.getElem?_getD_replicate_default_eq]

/-- An entry that DERIVE leaves: a derived value below the count, and 0 elsewhere (`40_hash_engine.md` rule R141). -/
theorem getD_deriveHashes_append (mult : Word) (key : List Byte) (c zeros i : Nat) :
    (deriveHashes mult key c ++ List.replicate zeros 0).getD i 0 =
      if key ≠ [] ∧ i < c then derivedValue mult (createHash key 0) i else 0 := by
  have hlen := length_deriveHashes mult key c
  by_cases hi : key ≠ [] ∧ i < c
  · obtain ⟨hkey, hic⟩ := hi
    rw [if_neg hkey] at hlen
    have hvalues : deriveHashes mult key c = (List.range c).map (derivedValue mult (createHash key 0)) :=
      if_neg (not_or.mpr ⟨hkey, by omega⟩)
    rw [if_pos ⟨hkey, hic⟩, List.getD_append _ _ _ _ (by omega), hvalues]
    simp [hic]
  · have hbeyond : (deriveHashes mult key c).length ≤ i := by
      rw [hlen]
      split
      · exact Nat.zero_le i
      next hkey => exact Nat.le_of_not_lt fun hic => hi ⟨hkey, hic⟩
    rw [if_neg hi, List.getD_append_right _ _ _ _ hbeyond, getD_replicate_zero]

theorem length_deriveHashes_le (mult : Word) (key : List Byte) (c : Nat) : (deriveHashes mult key c).length ≤ c := by
  rw [length_deriveHashes]
  split
  · exact Nat.zero_le c
  · exact le_rfl

/-! ### The checks of CONFIGURE -/

theorem not_legalP_iff (p : Word) : ¬ legalP p ↔ p < 0x0000000000000001 ∨ 0x3FEFFFFFFFFFFFFF < p := by
  rw [legalP, Classical.not_and_iff_not_or_not, BitVec.not_le, BitVec.not_le]

/-- The reason, with the second check as `legalP` (`41_bloom_filter.md` rule R175). -/
theorem configReason_eq (s : State) :
    configReason s =
      if s.cfgN = 0 then some 1 else if ¬ legalP s.cfgP then some 2 else if s.cfgM = 0 then some 3
      else if s.build.maxBits < s.cfgM.toNat then some 4
      else if s.cfgK = 0 ∨ s.build.kMax < s.cfgK.toNat then some 5 else none := by
  simp only [not_legalP_iff]
  rfl

theorem one_le_toNat_iff (x : Word) : 1 ≤ x.toNat ↔ x ≠ 0 := by
  rw [Nat.one_le_iff_ne_zero, ne_eq, ne_eq, not_congr]
  exact BitVec.toNat_inj (y := 0)

/-- Every check of CONFIGURE passes exactly within the bounds of `41_bloom_filter.md` rule R175. -/
theorem configReason_eq_none_iff (s : State) :
    configReason s = none ↔
      1 ≤ s.cfgN.toNat ∧ legalP s.cfgP ∧ (1 ≤ s.cfgM.toNat ∧ s.cfgM.toNat ≤ s.build.maxBits) ∧
        (1 ≤ s.cfgK.toNat ∧ s.cfgK.toNat ≤ s.build.kMax) := by
  rw [configReason_eq, one_le_toNat_iff, one_le_toNat_iff, one_le_toNat_iff]
  grind

theorem ceilDiv8_zero : ceilDiv8 0 = 0 := rfl

theorem toNat_ceilDiv8 (m : Word) : (BitVec.ofNat 64 (ceilDiv8 m.toNat)).toNat = ceilDiv8 m.toNat := by
  have := m.isLt
  simp only [ceilDiv8, BitVec.toNat_ofNat]
  omega

end Sys2Proof.Machine
end

section
/-! The invariants: each operation keeps them, so every step does (`10_state.md` rules R49 and R53). -/

namespace Sys2Proof.Machine

section
variable {s : State} (h : Inv s)
include h

/-! ### What is no part of the invariants -/

theorem Inv.complete (op : Byte) (code : ErrCode) (info : Word) : Inv (complete op code info s) := { h with }

theorem Inv.afterEvent : Inv (afterEvent s) := { h with }

theorem Inv.respond (host width : Nat) (v : Word) : Inv (respond host width v s) := { h with }

theorem Inv.respondDraw (host width : Nat) : Inv (respondDraw host width s) := { h with }

theorem Inv.acknowledge (host : Nat) : Inv (acknowledge host s) := { h with }

theorem Inv.discardWrite : Inv (discardWrite s) := { h with }

/-! ### Commands -/

theorem Inv.clearKey : Inv (clearKey s) := { h with keyBuf_wf := Memory.wf_nil, keyBuf_within := by simp }

theorem Inv.errorEntry (cmd : Option Instr) : Inv (errorEntry cmd s) := by
  rcases cmd with _ | _ | c | _ | _ | _ | _
  case none | some.configure | some.release => exact h
  all_goals exact h.clearKey

/-- DERIVE fills the file up with zeros, and its count is at most `K_MAX`. -/
theorem withDerived_inv {values : List Word} (hlen : values.length ≤ s.build.kMax) : Inv (withDerived values s) := by
  have hkMax : s.build.kMax ≤ 480 := h.build_legal.1.2
  have hcount : (BitVec.ofNat 64 values.length).toNat = values.length := by
    rw [BitVec.toNat_ofNat, Nat.mod_eq_of_lt (by omega)]
  refine { h with dval_length := ?_, dcount_le := hcount.trans_le hlen, dval_beyond := fun i hi => ?_ }
  · simp only [withDerived, List.length_append, List.length_replicate]
    omega
  · have hi : values.length ≤ i := hcount.symm.trans_le hi
    exact (List.getD_append_right _ _ _ _ hi).trans (getD_replicate_zero ..)

/-- CONFIGURE's checks are the bounds of an active filter, whose bits it zeroes. -/
theorem newFilter_inv (hreason : configReason s = none) : Inv (newFilter s) := by
  obtain ⟨hn, hp, hm, hk⟩ := (configReason_eq_none_iff s).mp hreason
  refine
    { h with
      bits_wf := Memory.zeroBelow_wf h.bits_wf _
      bits_within := Memory.zeroBelow_within h.bits_within _
      nbytes_eq := toNat_ceilDiv8 s.cfgM
      active_iff := iff_of_true rfl hm.1
      active_n := fun _ => hn
      active_m := fun _ => hm.2
      active_k := fun _ => hk
      active_p := fun _ => hp
      none_zero := fun ha => by cases ha
      bits_beyond := fun x _ hx => ?_ }
  have hx : x < 8 * ceilDiv8 s.cfgM.toNat := hx.trans_eq (congrArg _ (toNat_ceilDiv8 s.cfgM))
  have hzero : (newFilter s).bits.read (x / 2 ^ 3) = 0 :=
    (Memory.read_zeroBelow h.bits_wf _ _).trans (if_neg (by omega))
  rw [bitGet, Nat.shiftRight_eq_div_pow, hzero]
  exact BitVec.getLsbD_zero

/-- ADD sets bits below M alone. -/
theorem Inv.of_add (ha : s.status.active = true) {bits : Memory} {new : Bool}
    (hloop : setPositions (indexBad s) (positions s) s.bits false = .ok (bits, new)) (inserted : Word)
    (result : Result) : Inv { s with bits := bits, inserted := inserted, result := result } := by
  have hgood := indexBad_positions h ha
  obtain ⟨bits', new', hok, hwf, hget, _, hwithin, _⟩ := setPositions_ok hgood h.bits_wf false
  obtain ⟨rfl, rfl⟩ : bits' = bits ∧ new' = new := by simpa [hloop, eq_comm] using hok
  refine
    { h with
      bits_wf := hwf
      bits_within := hwithin _ h.bits_within fun x hx => ?_
      none_zero := fun hnone => absurd hnone (by simp [ha])
      bits_beyond := fun x hm hx => ?_ }
  · have hbyte := ((indexBad_eq_false_iff s x).mp (hgood x hx)).2
    have hstorage := h.active_m ha
    rw [h.nbytes_eq] at hbyte
    rw [Nat.shiftRight_eq_div_pow, bitArrayBytes]
    simp only [ceilDiv8] at *
    omega
  · have hout : x ∉ positions s := fun hmem =>
      absurd (mem_positions_lt (h.active_iff.mp ha) hmem) (Nat.not_lt.mpr hm)
    rw [hget, h.bits_beyond x hm hx, decide_eq_false hout, Bool.or_false]

theorem dropFilter_inv : Inv (dropFilter s) :=
  { h with
    nbytes_eq := ceilDiv8_zero.symm
    active_iff := iff_of_false Bool.false_ne_true (by simp [dropFilter])
    active_n := fun ha => by cases ha
    active_m := fun ha => by cases ha
    active_k := fun ha => by cases ha
    active_p := fun ha => by cases ha
    none_zero := fun _ => ⟨rfl, rfl, rfl, rfl, rfl, rfl⟩
    bits_beyond := fun x _ hx => absurd hx (by simp [dropFilter]) }

theorem CommandWrites.inv {i : Instr} {u : State} (hu : CommandWrites s i u) : Inv u := by
  cases hu with
  | hash128 => exact { h with keyBuf_wf := Memory.wf_nil, keyBuf_within := by simp }
  | derive hc => exact (withDerived_inv h ((length_deriveHashes_le ..).trans hc)).clearKey
  | configure hreason => exact newFilter_inv h hreason
  | add ha _ hloop => exact (h.of_add ha hloop _ _).clearKey
  | test => exact { h with keyBuf_wf := Memory.wf_nil, keyBuf_within := by simp }
  | release => exact dropFilter_inv h

theorem exec_inv {i : Instr} {t : State} (hx : exec i s = .next t) : Inv t := by
  cases exec_end_cases hx with
  | failed => exact (h.errorEntry (some i)).complete ..
  | succeeded hu => exact (hu.inv h).complete ..

/-! ### Host writes and resets -/

theorem HostStore.inv {a : Access} {u : State} (hu : HostStore s a u) : Inv u := by
  cases hu with
  | keyBuf j width v hj =>
    exact
      { h with
        keyBuf_wf := Memory.writeWide_wf h.keyBuf_wf j v width
        keyBuf_within := Memory.writeWide_within h.keyBuf_within v hj }
  | command | seed | keyLen | cfgN | cfgM | cfgK | cfgP => exact { h with }

theorem WriteEffect.inv {a : Access} {u : State} (hu : WriteEffect s a u) : Inv u := by
  cases hu with
  | status | irqEn => exact { h with }
  | discarded => exact h.discardWrite
  | stored _ hstore => exact hstore.inv h

end

theorem resetOf_inv {b : Config.Build} (hb : legalBuild b) : Inv (State.resetOf b) where
  build_legal := hb
  keyBuf_wf := Memory.wf_nil
  keyBuf_within := by simp [State.resetOf]
  bits_wf := Memory.wf_nil
  bits_within := by simp [State.resetOf]
  dval_length := List.length_replicate
  nbytes_eq := ceilDiv8_zero.symm
  active_iff := iff_of_false Bool.false_ne_true (by simp [State.resetOf])
  active_n := fun ha => by cases ha
  active_m := fun ha => by cases ha
  active_k := fun ha => by cases ha
  active_p := fun ha => by cases ha
  none_zero := fun _ => ⟨rfl, rfl, rfl, rfl, rfl, rfl⟩
  bits_beyond := fun _ _ _ => BitVec.getLsbD_zero
  dcount_le := Nat.zero_le _
  dval_beyond := fun _ _ => getD_replicate_zero ..

/-- BITARRAY and LATCH, which a reset leaves free, are free within the invariants. -/
theorem resetBlock_inv {s : State} (h : Inv s) (inFlight : Option (Nat × Access)) : Inv (resetBlock inFlight s) := by
  obtain ⟨hwf, hwithin⟩ := Memory.ofCells_keeps (bitArrayBytes s.build) (Config.freeBits s.draws)
  exact
    { resetOf_inv h.build_legal with
      bits_wf := hwf
      bits_within := hwithin
      bits_beyond := fun x _ hx => absurd hx (by simp [resetBlock, State.resetOf]) }

theorem step_inv {s t : State} (h : Inv s) (hs : step s = .next t) : Inv t := by
  rcases step_next hs with ⟨_, _, rfl⟩ | ⟨_, _, rfl⟩ | ⟨i, _, hx⟩ | ⟨_, _, _, _, ⟨_, rfl⟩ | ⟨_, rfl⟩⟩ |
    ⟨_, _, _, _, _, _, hu, rfl⟩ | ⟨_, _, rfl⟩
  · exact h.afterEvent
  · exact h.afterEvent.complete ..
  · exact exec_inv h.afterEvent hx
  · exact h.afterEvent.respond ..
  · exact h.afterEvent.respondDraw ..
  · exact (hu.inv h.afterEvent).acknowledge _
  · exact resetBlock_inv h.afterEvent _

/-- Settles O44. -/
theorem stepKeepsInvariants : Obligations.StepKeepsInvariants := fun _ _ => step_inv

/-- The multiplier of `State.reset` is odd whatever its free bits are, and its windows are placed apart. -/
theorem resetBuild_legal : legalBuild resetBuild := by
  have hsize : bitsSize unplacedBuild = 1073741824 := bitsSize_unplaced 0 0
  rw [resetBuild]
  refine placeWindows_legal unplacedBuild _ _ (by decide) (by decide) (by decide) ?_ ?_
  · exact BitVec.getLsbD_append.trans (by simp)
  · rw [hsize]; decide

/-- Settles O45: the reset state of a legal build, and the build of `State.reset` is legal. -/
theorem resetMeetsInvariants : Obligations.ResetMeetsInvariants :=
  ⟨resetOf_inv resetBuild_legal, fun _ => resetOf_inv⟩

end Sys2Proof.Machine
end

section
/-! One filter's life: its bits are only set and its parameters stay, so a key that was added stays present
(`10_state.md` rules R40 and R54, `41_bloom_filter.md` rule R183). -/

namespace Sys2Proof.Machine

/-! ### A filter that only grows -/

/-- The filter of `t` is the filter of `s`, with at least the bits of `s` set. -/
structure FilterGrows (s t : State) : Prop where
  build_eq : t.build = s.build
  active_eq : t.status.active = s.status.active
  n_eq : t.n = s.n
  m_eq : t.m = s.m
  k_eq : t.k = s.k
  p_eq : t.p = s.p
  nbytes_eq : t.nbytes = s.nbytes
  bits_set : ∀ x, bitGet s.bits x = true → bitGet t.bits x = true

theorem FilterGrows.refl (s : State) : FilterGrows s s := ⟨rfl, rfl, rfl, rfl, rfl, rfl, rfl, fun _ => id⟩

theorem FilterGrows.trans {s t u : State} (hst : FilterGrows s t) (htu : FilterGrows t u) : FilterGrows s u where
  build_eq := htu.build_eq.trans hst.build_eq
  active_eq := htu.active_eq.trans hst.active_eq
  n_eq := htu.n_eq.trans hst.n_eq
  m_eq := htu.m_eq.trans hst.m_eq
  k_eq := htu.k_eq.trans hst.k_eq
  p_eq := htu.p_eq.trans hst.p_eq
  nbytes_eq := htu.nbytes_eq.trans hst.nbytes_eq
  bits_set := fun x hx => htu.bits_set x (hst.bits_set x hx)

theorem FilterGrows.errorEntry (cmd : Option Instr) (s : State) : FilterGrows s (errorEntry cmd s) := by
  rcases cmd with _ | _ | c | _ | _ | _ | _ <;> exact { FilterGrows.refl s with }

theorem FilterGrows.complete {s t : State} (h : FilterGrows s t) (op : Byte) (code : ErrCode) (info : Word) :
    FilterGrows s (complete op code info t) := { h with }

/-- What ADD's loop sets: the bits before it, and those of every position. -/
theorem bitGet_of_setPositions {s : State} (h : Inv s) (ha : s.status.active = true) {bits : Memory} {new : Bool}
    (hloop : setPositions (indexBad s) (positions s) s.bits false = .ok (bits, new)) (y : Nat) :
    bitGet bits y = (decide (y ∈ positions s) || bitGet s.bits y) := by
  obtain ⟨bits', new', hok, _, hget, _⟩ := setPositions_ok (indexBad_positions h ha) h.bits_wf false
  obtain ⟨rfl, rfl⟩ : bits' = bits ∧ new' = new := by simpa [hloop, eq_comm] using hok
  exact hget y

/-- A command that neither builds nor drops a filter. -/
theorem CommandWrites.filterGrows {s u : State} {i : Instr} (h : Inv s) (hu : CommandWrites s i u)
    (hconfigure : i ≠ .configure) (hrelease : i ≠ .release) : FilterGrows s u := by
  cases hu with
  | configure => exact absurd rfl hconfigure
  | release => exact absurd rfl hrelease
  | add ha _ hloop =>
    exact { FilterGrows.refl s with bits_set := fun x hx => by simp [bitGet_of_setPositions h ha hloop, hx] }
  | hash128 | derive | test => exact { FilterGrows.refl s with }

theorem exec_filterGrows {s t : State} {i : Instr} (h : Inv s) (hconfigure : i = .configure → configReason s ≠ none)
    (hrelease : i ≠ .release) (hx : exec i s = .next t) : FilterGrows s t := by
  cases exec_end_cases hx with
  | failed => exact (FilterGrows.errorEntry (some i) s).complete ..
  | succeeded hu =>
    refine (hu.filterGrows h ?_ hrelease).complete ..
    rintro rfl
    cases hu with
    | configure hnone => exact hconfigure rfl hnone

theorem WriteEffect.filterGrows {s u : State} {a : Access} (hu : WriteEffect s a u) : FilterGrows s u := by
  cases hu with
  | status | irqEn | discarded => exact { FilterGrows.refl s with }
  | stored _ hstore => cases hstore <;> exact { FilterGrows.refl s with }

theorem step_filterGrows {s t : State} (h : Inv s) (hlife : ¬ endsFilter s) (hs : step s = .next t) :
    FilterGrows s t := by
  have hevent : FilterGrows s (afterEvent s) := { FilterGrows.refl s with }
  rcases step_next hs with ⟨_, _, rfl⟩ | ⟨_, _, rfl⟩ | ⟨i, hi, hx⟩ | ⟨_, _, _, _, ⟨_, rfl⟩ | ⟨_, rfl⟩⟩ |
    ⟨_, _, _, _, _, _, hu, rfl⟩ | ⟨inFlight, hr, _⟩
  · exact hevent
  · exact hevent.complete ..
  · refine hevent.trans (exec_filterGrows h.afterEvent ?_ ?_ hx)
    · rintro rfl hnone
      exact hlife (.inl ⟨hi, hnone⟩)
    · rintro rfl
      exact hlife (.inr (.inl hi))
  · exact { hevent with }
  · exact { hevent with }
  · exact { hevent.trans hu.filterGrows with }
  · exact absurd (.inr (.inr ⟨inFlight, hr⟩)) hlife

/-- Settles O46: `step_filterGrows` on the bits of the filter. -/
theorem bitsOnlySet : Obligations.BitsOnlySet := by
  intro s t h hlife hs
  have hgrow := step_filterGrows h hlife hs
  exact ⟨fun x _ => hgrow.bits_set x, hgrow.active_eq, hgrow.n_eq, hgrow.m_eq, hgrow.k_eq, hgrow.p_eq,
    hgrow.nbytes_eq, hgrow.build_eq⟩

/-! ### No false negatives -/

/-- A filter's whole life is one growth. -/
theorem SameFilter.grows {s t : State} (hlife : SameFilter s t) (h : Inv s) : Inv t ∧ FilterGrows s t := by
  induction hlife with
  | refl => exact ⟨h, FilterGrows.refl s⟩
  | tail _ hends hs ih =>
    obtain ⟨hinv, hgrow⟩ := ih
    exact ⟨step_inv hinv hs, hgrow.trans (step_filterGrows hinv hends hs)⟩

/-- The positions of a key are a matter of the filter's parameters. -/
theorem FilterGrows.positions_eq {s t : State} (h : FilterGrows s t) (hkey : keyBytes t = keyBytes s) :
    positions t = positions s := by
  rw [positions, positions, h.build_eq, h.k_eq, h.m_eq, hkey]

/-- An ADD that completed with ERR = 0 had a filter and a key that fits it, and set every position. -/
theorem add_ok_sets_positions {s t : State} (h : Inv s) (hx : exec .add s = .next t) (hok : t.status.err = .ok) :
    s.status.active = true ∧ s.keyLen.toNat ≤ s.build.keyMax ∧ ∀ x ∈ positions s, bitGet t.bits x = true := by
  cases exec_end_cases hx with
  | failed hcode => exact absurd hok hcode
  | succeeded hu =>
    cases hu with
    | add ha hfits hloop =>
      exact ⟨ha, by simpa [keyTooLong] using hfits, fun x hmem => by simp [bitGet_of_setPositions h ha hloop, hmem]⟩

/-- TEST finds a key whose positions are all set. -/
theorem test_of_positions_set {s : State} (h : Inv s) (ha : s.status.active = true)
    (hfits : s.keyLen.toNat ≤ s.build.keyMax) (hset : ∀ x ∈ positions s, bitGet s.bits x = true) :
    exec .test s =
      .next (complete 0x05 .ok 0 (clearKey { s with result := { found := true, isNew := false } })) :=
  exec_test_of_ok ha hfits ((testPositions_ok (indexBad_positions h ha)).trans
    (congrArg _ (List.all_eq_true.mpr hset)))

/-- RESULT of a key that is found (`10_state.md` rule R34). -/
theorem toNat_word_of_found : (Result.word { found := true, isNew := false }).toNat = 1 := by decide

/-- Settles O47: the positions that the ADD set stay set, and are the positions that TEST reads. -/
theorem noFalseNegatives : Obligations.NoFalseNegatives := by
  intro s added later h hadd hok hlife hkey
  obtain ⟨ha, hfits, hset⟩ := add_ok_sets_positions h hadd hok
  have hadded : FilterGrows s added := exec_filterGrows h (by simp) (by simp) hadd
  obtain ⟨hinv, hlater⟩ := hlife.grows (exec_inv h hadd)
  have hgrow := hadded.trans hlater
  have hlen : later.keyLen.toNat = s.keyLen.toNat := by rw [← length_keyBytes, hkey, length_keyBytes]
  refine ⟨_, test_of_positions_set hinv (hgrow.active_eq.trans ha) ?_ fun x hx => ?_, rfl,
    toNat_word_of_found⟩
  · rw [hlen, hgrow.build_eq]
    exact hfits
  · rw [hgrow.positions_eq hkey] at hx
    exact hlater.bits_set x (hset x hx)

end Sys2Proof.Machine
end

section
/-! Two states that agree on what a read looks at: every read gives the same answer in both
(`20_memory.md` rule R66). -/

namespace Sys2Proof.Machine

/-- `t` agrees with `s` on everything a read looks at. -/
structure ReadsSame (s t : State) : Prop where
  build_eq : t.build = s.build := by rfl
  busy_eq : t.status.busy = s.status.busy := by rfl
  active_eq : t.status.active = s.status.active := by rfl
  nbytes_eq : t.nbytes = s.nbytes := by rfl
  dval_eq : t.dval = s.dval := by rfl
  keyBuf_eq : t.keyBuf = s.keyBuf := by rfl
  regs_eq : ∀ r, regRead t r = regRead s r
  bits_eq : s.status.active = true → ∀ b, b < s.nbytes.toNat → t.bits.read b = s.bits.read b

/-- `x` from `s` and `y` from `t` are one answer: the same value, a value that BUSY = 1 draws, or the same rejection. -/
inductive SameAnswer (host width : Nat) (s t : State) (x y : Host.Outcome State Fault Refusal) : Prop where
  | exact (v : Word) (hs : x = .next (respond host width v s)) (ht : y = .next (respond host width v t))
  | unlessBusy (v : Word) (hs : x = answerUnlessBusy host width v s) (ht : y = answerUnlessBusy host width v t)
  | stops (hxy : y = x) (hx : ∀ u, x ≠ .next u)

theorem SameAnswer.rejected (host width : Nat) (s t : State) (a : Access) :
    SameAnswer host width s t (busError host a) (busError host a) :=
  .stops rfl fun _ h => by cases h

section
variable {s t : State} (h : ReadsSame s t) (host addr width : Nat)
include h

theorem readRegister_sameAnswer (o : Nat) :
    SameAnswer host width s t (readRegister host addr width o s) (readRegister host addr width o t) := by
  unfold readRegister
  split_ifs
  · split
    next r _ =>
      rw [h.regs_eq]
      split_ifs
      · exact .unlessBusy _ rfl rfl
      · exact .exact _ rfl rfl
    · exact .rejected ..
  · exact .rejected ..

theorem readDval_sameAnswer (o : Nat) :
    SameAnswer host width s t (readDval host addr width o s) (readDval host addr width o t) := by
  unfold readDval
  rw [h.build_eq, h.dval_eq]
  split_ifs
  · exact .unlessBusy _ rfl rfl
  · exact .rejected ..

theorem readKeyBuf_sameAnswer (o : Nat) :
    SameAnswer host width s t (readKeyBuf host addr width o s) (readKeyBuf host addr width o t) := by
  unfold readKeyBuf
  rw [h.build_eq, h.keyBuf_eq]
  split_ifs
  · exact .unlessBusy _ rfl rfl
  · exact .rejected ..

theorem readRegWindow_sameAnswer (o : Nat) :
    SameAnswer host width s t (readRegWindow host addr width o s) (readRegWindow host addr width o t) := by
  unfold readRegWindow
  split_ifs
  · exact readRegister_sameAnswer h host addr width o
  · exact .rejected ..
  · exact readDval_sameAnswer h host addr width o
  · exact readKeyBuf_sameAnswer h host addr width o

theorem readBitsWindow_sameAnswer (o : Nat) :
    SameAnswer host width s t (readBitsWindow host addr width o s) (readBitsWindow host addr width o t) := by
  unfold readBitsWindow
  rw [h.active_eq, h.nbytes_eq]
  split_ifs with hread
  · obtain ⟨_, ha, ho⟩ := hread
    have hbytes : t.bits.readWide o width = s.bits.readWide o width :=
      leSum_congr fun q hq => h.bits_eq ha (o + q) (by omega)
    rw [hbytes]
    exact .unlessBusy _ rfl rfl
  · exact .rejected ..

theorem memRead_sameAnswer :
    SameAnswer host width s t (memRead host addr width s) (memRead host addr width t) := by
  unfold memRead
  rw [h.build_eq]
  split_ifs
  · exact readRegWindow_sameAnswer h host addr width _
  · exact readBitsWindow_sameAnswer h host addr width _
  · exact .stops rfl fun _ hnext => by cases hnext

end

end Sys2Proof.Machine
end

section
/-! What no access can observe never matters (`10_state.md` rules R48 and R51): each operation does the same, in
everything observable, on a state and on its visible part. -/

namespace Sys2Proof.Machine

/-! ### The visible part of a state -/

@[simp] theorem visible_build (s : State) : (visible s).build = s.build := rfl
@[simp] theorem visible_status (s : State) : (visible s).status = s.status := rfl

@[simp] theorem regRead_visible (s : State) (r : Reg) : regRead (visible s) r = regRead s r := by cases r <;> rfl

theorem visible_latch_of_busy {s : State} (hb : s.status.busy = true) : (visible s).latch = s.latch := if_pos hb

/-- The bits below NBYTES, the part of BITARRAY that a filter shows. -/
def shownBits (s : State) : Memory := s.bits.filter (fun c => c.1 < s.nbytes.toNat)

theorem visible_bits_of_active {s : State} (ha : s.status.active = true) : (visible s).bits = shownBits s := if_pos ha

theorem read_visible_bits {s : State} (h : Inv s) (ha : s.status.active = true) {b : Nat} (hb : b < s.nbytes.toNat) :
    (visible s).bits.read b = s.bits.read b := by
  rw [visible_bits_of_active ha, shownBits, Memory.read_filter h.bits_wf (fun x => decide (x < s.nbytes.toNat)),
    if_pos (decide_eq_true hb)]

theorem bitGet_visible_bits {s : State} (h : Inv s) (ha : s.status.active = true) {x : Nat}
    (hx : x / 8 < s.nbytes.toNat) : bitGet (visible s).bits x = bitGet s.bits x := by
  rw [bitGet, bitGet, Nat.shiftRight_eq_div_pow, read_visible_bits h ha hx]

theorem visible_bits_wf {s : State} (h : Inv s) (ha : s.status.active = true) : (visible s).bits.wf := by
  rw [visible_bits_of_active ha]
  exact Memory.filter_wf h.bits_wf _

/-- A state with other unobservable data. -/
def withHidden (bits : Memory) (latch : Word) (s : State) : State := { s with bits := bits, latch := latch }

/-- Two states that differ in BITARRAY and LATCH alone, and agree on what these show. -/
theorem visible_withHidden {s : State} {bits : Memory} {latch : Word}
    (hbits : s.status.active = true → shownBits (withHidden bits latch s) = shownBits s)
    (hlatch : s.status.busy = true → latch = s.latch) : visible (withHidden bits latch s) = visible s := by
  have hmem : (visible (withHidden bits latch s)).bits = (visible s).bits := by
    by_cases ha : s.status.active = true
    · rw [visible_bits_of_active ha, visible_bits_of_active (s := withHidden bits latch s) ha, hbits ha]
    · exact (if_neg ha).trans (if_neg ha).symm
  have hword : (visible (withHidden bits latch s)).latch = (visible s).latch := by
    by_cases hb : s.status.busy = true
    · rw [visible_latch_of_busy hb, visible_latch_of_busy (s := withHidden bits latch s) hb]
      exact hlatch hb
    · exact (if_neg hb).trans (if_neg hb).symm
  have hrest : visible (withHidden bits latch s) =
      withHidden (visible (withHidden bits latch s)).bits (visible (withHidden bits latch s)).latch (visible s) := rfl
  rw [hrest, hmem, hword]
  rfl

theorem shownBits_filter (s : State) (latch : Word) : shownBits (withHidden (shownBits s) latch s) = shownBits s :=
  List.filter_filter.trans (List.filter_congr fun _ _ => Bool.and_self _)

/-! ### Operations that the unobservable part does not reach -/

/-- `f` does the same, in everything observable, on a state and on its visible part. -/
def Respects (f : State → State) : Prop := ∀ s, visible (f s) = visible (f (visible s))

theorem Respects.congr {f : State → State} (hf : Respects f) {s t : State} (h : visible s = visible t) :
    visible (f s) = visible (f t) := by
  rw [hf s, h, ← hf t]

/-- An operation that passes BITARRAY and LATCH through, leaves the filter's extent and starts no command. -/
structure PassesHidden (f : State → State) : Prop where
  pass : ∀ s bits latch, f (withHidden bits latch s) = withHidden bits latch (f s) := by intros; rfl
  active_eq : ∀ s, (f s).status.active = s.status.active := by intros; rfl
  nbytes_eq : ∀ s, (f s).nbytes = s.nbytes := by intros; rfl
  busy_imp : ∀ s, (f s).status.busy = true → s.status.busy = true := by exact fun _ => id

theorem PassesHidden.respects {f : State → State} (hf : PassesHidden f) : Respects f := by
  intro s
  have hown : f s = withHidden s.bits s.latch (f s) := hf.pass s s.bits s.latch
  have hvisible : f (visible s) = withHidden (visible s).bits (visible s).latch (f s) := hf.pass s _ _
  rw [hvisible, visible_withHidden]
  · intro ha
    rw [hf.active_eq] at ha
    rw [visible_bits_of_active ha, hown]
    simp [shownBits, withHidden, List.filter_filter, hf.nbytes_eq]
  · intro hb
    rw [visible_latch_of_busy (hf.busy_imp s hb), hown]
    rfl

theorem complete_respects (op : Byte) (code : ErrCode) (info : Word) : Respects (complete op code info) :=
  PassesHidden.respects { busy_imp := fun _ hb => by cases hb }

theorem clearKey_respects : Respects clearKey := PassesHidden.respects {}

theorem acknowledge_respects (host : Nat) : Respects (acknowledge host) := PassesHidden.respects {}

theorem discardWrite_respects : Respects discardWrite := PassesHidden.respects {}

theorem respond_respects (host width : Nat) (v : Word) : Respects (respond host width v) := PassesHidden.respects {}

theorem respondDraw_respects (host width : Nat) : Respects (respondDraw host width) := PassesHidden.respects {}

/-- The word an accepted command latches overwrites LATCH. -/
theorem acceptCommand_respects (w : Word) : Respects (acceptCommand w) := by
  intro s
  have hvisible : acceptCommand w (visible s) = withHidden (visible s).bits w (acceptCommand w s) := rfl
  rw [hvisible]
  refine (visible_withHidden (fun ha => ?_) fun _ => rfl).symm
  rw [visible_bits_of_active (s := s) ha]
  exact shownBits_filter (acceptCommand w s) w

/-! ### Commands -/

theorem complete_clearKey_congr {s t : State} (h : visible s = visible t) (op : Byte) (code : ErrCode) (info : Word) :
    visible (complete op code info (clearKey s)) = visible (complete op code info (clearKey t)) :=
  (complete_respects op code info).congr (clearKey_respects.congr h)

theorem visible_visible (s : State) : visible (visible s) = visible s :=
  (PassesHidden.respects (f := id) {} s).symm

theorem hash128Completion_visible (s : State) :
    visible (hash128Completion s) = visible (hash128Completion (visible s)) := by
  have hkey : keyTooLong (visible s) = keyTooLong s := rfl
  unfold hash128Completion
  rw [hkey]
  split
  · exact complete_clearKey_congr (visible_visible s).symm ..
  · refine complete_clearKey_congr ?_ ..
    exact PassesHidden.respects
      (f := fun s =>
        { s with h1 := (createHash (keyBytes s) s.seed).h1, h2 := (createHash (keyBytes s) s.seed).h2 }) {} s

theorem deriveCompletion_visible (c : Nat) (s : State) :
    visible (deriveCompletion c s) = visible (deriveCompletion c (visible s)) := by
  have hkey : keyTooLong (visible s) = keyTooLong s := rfl
  unfold deriveCompletion
  rw [hkey, visible_build]
  split_ifs
  · exact complete_clearKey_congr (visible_visible s).symm ..
  · exact complete_clearKey_congr (visible_visible s).symm ..
  · refine complete_clearKey_congr ?_ ..
    exact PassesHidden.respects (f := withDerived (deriveHashes s.build.deriveMult (keyBytes s) c)) {} s

/-- A new filter shows zeros alone. -/
theorem shownBits_zeroBelow {s : State} {mem : Memory} (h : s.bits = mem.zeroBelow s.nbytes.toNat) :
    shownBits s = [] := by
  rw [shownBits, h, Memory.zeroBelow, List.filter_filter, List.filter_eq_nil_iff]
  intro c _ hc
  simp only [Bool.and_eq_true, decide_eq_true_eq] at hc
  exact absurd hc.1 (Nat.not_lt.mpr hc.2)

theorem newFilter_visible (s : State) : visible (newFilter s) = visible (newFilter (visible s)) := by
  have hsize := (toNat_ceilDiv8 s.cfgM).symm
  refine (visible_withHidden (fun _ => ?_) fun hb => ?_).symm
  · rw [shownBits_zeroBelow (s := newFilter s) (mem := s.bits) (congrArg (Memory.zeroBelow · _) hsize)]
    exact shownBits_zeroBelow (mem := (visible s).bits) (congrArg (Memory.zeroBelow · _) hsize)
  · exact visible_latch_of_busy hb

theorem configureCompletion_visible (s : State) :
    visible (configureCompletion s) = visible (configureCompletion (visible s)) := by
  have hreason : configReason (visible s) = configReason s := rfl
  unfold configureCompletion
  rw [hreason]
  split
  · exact complete_respects _ _ _ s
  · exact (complete_respects _ _ _).congr (newFilter_visible s)

/-- Without a filter BITARRAY shows nothing. -/
theorem releaseCompletion_visible (s : State) :
    visible (releaseCompletion s) = visible (releaseCompletion (visible s)) := rfl

/-- TEST's loop reads bits of the filter alone. -/
theorem testPositions_visible {s : State} (h : Inv s) (ha : s.status.active = true) :
    testPositions (indexBad s) (visible s).bits (positions s) = testPositions (indexBad s) s.bits (positions s) := by
  have hgood := indexBad_positions h ha
  rw [testPositions_ok hgood, testPositions_ok hgood]
  congr 1
  rw [Bool.eq_iff_iff, List.all_eq_true, List.all_eq_true]
  refine forall₂_congr fun x hx => ?_
  rw [bitGet_visible_bits h ha ((indexBad_eq_false_iff s x).mp (hgood x hx)).2]

theorem testCompletion_visible {s : State} (h : Inv s) :
    visible (testCompletion s) = visible (testCompletion (visible s)) := by
  have hkey : keyTooLong (visible s) = keyTooLong s := rfl
  have hbad : indexBad (visible s) = indexBad s := rfl
  have hpos : positions (visible s) = positions s := rfl
  unfold testCompletion
  rw [hkey, hbad, hpos, visible_status]
  split_ifs with ha
  · exact complete_clearKey_congr (visible_visible s).symm ..
  · exact complete_clearKey_congr (visible_visible s).symm ..
  · rw [testPositions_visible h (by simpa using ha)]
    split
    · exact complete_clearKey_congr (visible_visible s).symm ..
    next found _ =>
      refine complete_clearKey_congr ?_ ..
      exact PassesHidden.respects (f := fun s => { s with result := { found := found, isNew := false } }) {} s

/-- Two memories with the same bits in a byte have the same byte. -/
theorem read_eq_of_bitGet {mem mem' : Memory} {b : Nat} (h : ∀ y, y / 8 = b → bitGet mem y = bitGet mem' y) :
    mem.read b = mem'.read b := by
  refine BitVec.eq_of_getLsbD_eq fun j hj => ?_
  have hbit := h (8 * b + j) (by omega)
  rw [bitGet, bitGet, Nat.shiftRight_eq_div_pow, show (8 * b + j) / 2 ^ 3 = b by omega,
    show (8 * b + j) % 8 = j by omega] at hbit
  exact hbit

/-- ADD's loop reads and sets bits of the filter alone. -/
theorem setPositions_visible {s : State} (h : Inv s) (ha : s.status.active = true) :
    ∃ bits bits' new, setPositions (indexBad s) (positions s) s.bits false = .ok (bits, new) ∧
      setPositions (indexBad s) (positions s) (visible s).bits false = .ok (bits', new) ∧
      shownBits { s with bits := bits' } = shownBits { s with bits := bits } := by
  have hgood := indexBad_positions h ha
  have hsame {x : Nat} (hx : x / 8 < s.nbytes.toNat) := bitGet_visible_bits h ha hx
  obtain ⟨bits, new, hok, hwf, hget, _, _, hnew⟩ := setPositions_ok hgood h.bits_wf false
  obtain ⟨bits', new', hok', hwf', hget', _, _, hnew'⟩ := setPositions_ok hgood (visible_bits_wf h ha) false
  have hnews : new' = new := by
    rw [Bool.eq_iff_iff, hnew, hnew']
    refine or_congr_right (exists_congr fun x => and_congr_right fun hx => ?_)
    rw [hsame ((indexBad_eq_false_iff s x).mp (hgood x hx)).2]
  refine ⟨bits, bits', new, hok, hnews ▸ hok', ?_⟩
  refine Memory.ext_read (Memory.filter_wf hwf' _) (Memory.filter_wf hwf _) fun b => ?_
  have hkeep (mem : Memory) (hmem : mem.wf) :=
    Memory.read_filter hmem (fun x => decide (x < s.nbytes.toNat)) b
  refine (hkeep bits' hwf').trans (Eq.trans ?_ (hkeep bits hwf).symm)
  by_cases hb : b < s.nbytes.toNat
  · rw [if_pos (decide_eq_true hb), if_pos (decide_eq_true hb)]
    refine read_eq_of_bitGet fun y hy => ?_
    rw [hget, hget', hsame (hy ▸ hb)]
  · rw [if_neg (by simpa using hb), if_neg (by simpa using hb)]

theorem addCompletion_visible {s : State} (h : Inv s) :
    visible (addCompletion s) = visible (addCompletion (visible s)) := by
  have hkey : keyTooLong (visible s) = keyTooLong s := rfl
  have hbad : indexBad (visible s) = indexBad s := rfl
  have hpos : positions (visible s) = positions s := rfl
  unfold addCompletion
  rw [hkey, hbad, hpos, visible_status]
  split_ifs with ha
  · exact complete_clearKey_congr (visible_visible s).symm ..
  · exact complete_clearKey_congr (visible_visible s).symm ..
  · obtain ⟨bits, bits', new, hok, hok', hshown⟩ := setPositions_visible h (by simpa using ha)
    rw [hok, hok']
    refine complete_clearKey_congr (visible_withHidden (fun _ => ?_) fun hb => ?_).symm ..
    · exact hshown
    · exact visible_latch_of_busy hb

/-! ### Runs -/

/-- `run` does the same from `s`, in everything observable, as from the visible part of `s`. -/
def SameOutcome (run : State → Host.Outcome State Fault Refusal) (s : State) : Prop :=
  visibleOutcome (run s) = visibleOutcome (run (visible s))

theorem visibleOutcome_next {s t : State} (h : visible s = visible t) :
    visibleOutcome (.next s) = visibleOutcome (.next t) := congrArg Host.Outcome.next h

theorem exec_sameOutcome {s : State} (h : Inv s) (i : Instr) : SameOutcome (exec i) s := by
  cases i with
  | hash128 => exact visibleOutcome_next (hash128Completion_visible s)
  | derive c => exact visibleOutcome_next (deriveCompletion_visible c s)
  | configure => exact visibleOutcome_next (configureCompletion_visible s)
  | add => exact visibleOutcome_next (addCompletion_visible h)
  | test => exact visibleOutcome_next (testCompletion_visible h)
  | release => exact visibleOutcome_next (releaseCompletion_visible s)

theorem engineTurn_sameOutcome {s : State} (h : Inv s) : SameOutcome engineTurn s := by
  unfold SameOutcome engineTurn completeLatched
  rw [visible_status]
  split_ifs with hb
  · rw [visible_latch_of_busy hb]
    split
    · exact exec_sameOutcome h _
    · rw [completeIllegal, completeIllegal, visible_latch_of_busy hb]
      exact visibleOutcome_next (complete_respects _ _ _ s)
  · exact visibleOutcome_next (visible_visible s).symm

theorem answerUnlessBusy_sameOutcome (host width : Nat) (v : Word) (s : State) :
    SameOutcome (answerUnlessBusy host width v) s := by
  unfold SameOutcome answerUnlessBusy
  rw [visible_status]
  split_ifs
  · exact visibleOutcome_next (respondDraw_respects host width s)
  · exact visibleOutcome_next (respond_respects host width v s)

theorem visible_readsSame {s : State} (h : Inv s) : ReadsSame s (visible s) where
  regs_eq := regRead_visible s
  bits_eq := fun ha _ hb => read_visible_bits h ha hb

theorem memRead_sameOutcome {s : State} (h : Inv s) (host addr width : Nat) :
    SameOutcome (memRead host addr width) s := by
  cases memRead_sameAnswer (visible_readsSame h) host addr width with
  | exact v hs hv =>
    rw [SameOutcome, hs, hv]
    exact visibleOutcome_next (respond_respects host width v s)
  | unlessBusy v hs hv =>
    rw [SameOutcome, hs, hv]
    exact answerUnlessBusy_sameOutcome host width v s
  | stops hv => rw [SameOutcome, hv]

theorem storeUnlessBusy_sameOutcome {store : State → State} (hstore : Respects store) (host : Nat) (s : State) :
    SameOutcome (storeUnlessBusy host store) s := by
  unfold SameOutcome storeUnlessBusy
  rw [visible_status]
  split_ifs
  · exact visibleOutcome_next ((acknowledge_respects host).congr (discardWrite_respects s))
  · exact visibleOutcome_next ((acknowledge_respects host).congr (hstore s))

theorem regWrite_sameOutcome (host addr width : Nat) (v : Word) (r : Reg) (s : State) :
    SameOutcome (regWrite host addr width v r) s := by
  have performed {store : State → State} (hstore : PassesHidden store) :
      visibleOutcome (.next (acknowledge host (store s))) =
        visibleOutcome (.next (acknowledge host (store (visible s)))) :=
    visibleOutcome_next ((acknowledge_respects host).congr (hstore.respects s))
  have stored {store : State → State} (hstore : PassesHidden store) : SameOutcome (storeUnlessBusy host store) s :=
    storeUnlessBusy_sameOutcome hstore.respects host s
  cases r
  case cmd => exact storeUnlessBusy_sameOutcome (acceptCommand_respects v) host s
  case seed | keyLen | cfgN | cfgM | cfgK | cfgP =>
    apply stored
    exact {}
  case status =>
    exact performed (store := fun s => { s with status := s.status.writeOneToClear v }) {}
  case irqEn =>
    exact performed (store := fun s => { s with irqEnable := v.getLsbD 0 }) {}
  all_goals rfl

theorem memWrite_sameOutcome (host addr width : Nat) (v : Word) (s : State) :
    SameOutcome (memWrite host addr width v) s := by
  unfold SameOutcome memWrite writeRegWindow writeRegister writeKeyBuf
  rw [visible_build]
  split_ifs
  · split
    · exact regWrite_sameOutcome ..
    · rfl
  · rfl
  · rfl
  · refine storeUnlessBusy_sameOutcome (PassesHidden.respects ?_) host s
    exact {}
  · rfl
  · rfl
  · rfl

theorem handleEvent_sameOutcome {s : State} (h : Inv s) (e : Event) : SameOutcome (handleEvent e) s := by
  cases e with
  | access host a =>
    cases a with
    | read addr width => exact memRead_sameOutcome h host addr width
    | write addr width v => exact memWrite_sameOutcome host addr width v s
  | engine => exact engineTurn_sameOutcome h
  | reset inFlight => rfl

/-- Settles O48: a step is its event handled, and the visible part keeps the schedule. -/
theorem unobservableStateNeverMatters : Obligations.UnobservableStateNeverMatters := by
  intro s h
  rw [step_eq_handleEvent, step_eq_handleEvent]
  exact handleEvent_sameOutcome h.afterEvent (nextEvent s)

end Sys2Proof.Machine
end

section
/-! What no command writes, what SEED reaches, and the errors of each command in the spec's order
(`10_state.md` rule R29, `60_exceptions.md` rules R222 and R224). -/

namespace Sys2Proof.Machine

/-! ### What every command leaves -/

/-- The fields that no command writes. -/
structure CommandKeeps (s t : State) : Prop where
  build_eq : t.build = s.build
  irqEnable_eq : t.irqEnable = s.irqEnable
  seed_eq : t.seed = s.seed
  cfgN_eq : t.cfgN = s.cfgN
  cfgM_eq : t.cfgM = s.cfgM
  cfgK_eq : t.cfgK = s.cfgK
  cfgP_eq : t.cfgP = s.cfgP
  latch_eq : t.latch = s.latch
  schedule_eq : t.schedule = s.schedule
  response_eq : t.response = s.response
  draws_eq : t.draws = s.draws
  wbusy_eq : t.status.wbusy = s.status.wbusy

theorem CommandKeeps.refl (s : State) : CommandKeeps s s := ⟨rfl, rfl, rfl, rfl, rfl, rfl, rfl, rfl, rfl, rfl, rfl, rfl⟩

theorem CommandWrites.keeps {s u : State} {i : Instr} (hu : CommandWrites s i u) : CommandKeeps s u := by
  cases hu <;> exact { CommandKeeps.refl s with }

theorem errorEntry_keeps (cmd : Option Instr) (s : State) : CommandKeeps s (errorEntry cmd s) := by
  rcases cmd with _ | _ | c | _ | _ | _ | _ <;> exact { CommandKeeps.refl s with }

theorem exec_keeps {s t : State} {i : Instr} (h : exec i s = .next t) : CommandKeeps s t := by
  cases exec_end_cases h with
  | failed => exact { errorEntry_keeps (some i) s with }
  | succeeded hu => exact { hu.keeps with }

theorem CommandKeeps.regRead_eq {s t : State} (h : CommandKeeps s t) {r : Reg}
    (hr : r ∉ [Reg.keyLen, .h1, .h2, .dcount, .result, .errInfo, .n, .m, .k, .p, .nbytes, .inserted, .status]) :
    regRead t r = regRead s r := by
  cases r
  case id | cmd => rfl
  case param | maxBits | mult => simp only [regRead, h.build_eq]
  case irqEn => simp only [regRead, h.irqEnable_eq]
  case seed => simp only [regRead, h.seed_eq]
  case cfgN => exact h.cfgN_eq
  case cfgM => exact h.cfgM_eq
  case cfgK => exact h.cfgK_eq
  case cfgP => exact h.cfgP_eq
  all_goals simp at hr

/-- Every end of a command is a `complete` with the command's opcode, and a success has ERRINFO = 0. -/
theorem exec_record {s t : State} {i : Instr} (h : exec i s = .next t) :
    t.status.busy = false ∧ t.status.done = true ∧ t.status.lastOp = i.opcode ∧
      (t.status.err = .ok → t.errInfo = 0) := by
  cases exec_end_cases h with
  | failed hcode => exact ⟨rfl, rfl, rfl, fun hok => absurd hok hcode⟩
  | succeeded => exact ⟨rfl, rfl, rfl, fun _ => rfl⟩

/-- Settles O9: `exec_record` is what a completion sets, `exec_keeps` what it leaves. -/
theorem everyCommandCompletes : Obligations.EveryCommandCompletes := by
  intro i s
  obtain ⟨t, ht⟩ := exec_next i s
  obtain ⟨hbusy, hdone, hop, hinfo⟩ := exec_record ht
  have hkeeps := exec_keeps ht
  exact ⟨t, ht, hbusy, hdone, hop, hkeeps.wbusy_eq, hinfo, fun r hr => hkeeps.regRead_eq hr,
    ⟨hkeeps.build_eq, hkeeps.latch_eq, hkeeps.schedule_eq⟩, hkeeps.response_eq, hkeeps.draws_eq⟩

/-! ### SEED -/

/-- The state with another seed. -/
def withSeed (seed : BitVec 32) (s : State) : State := { s with seed := seed }

theorem deriveCompletion_withSeed (c : Nat) (seed : BitVec 32) (s : State) :
    deriveCompletion c (withSeed seed s) = withSeed seed (deriveCompletion c s) := by
  have hkey : keyTooLong (withSeed seed s) = keyTooLong s := rfl
  have hbuild : (withSeed seed s).build = s.build := rfl
  unfold deriveCompletion
  rw [hkey, hbuild]
  split_ifs <;> rfl

theorem configureCompletion_withSeed (seed : BitVec 32) (s : State) :
    configureCompletion (withSeed seed s) = withSeed seed (configureCompletion s) := by
  have hreason : configReason (withSeed seed s) = configReason s := rfl
  unfold configureCompletion
  rw [hreason]
  cases configReason s <;> rfl

theorem addCompletion_withSeed (seed : BitVec 32) (s : State) :
    addCompletion (withSeed seed s) = withSeed seed (addCompletion s) := by
  have hstatus : (withSeed seed s).status = s.status := rfl
  have hkey : keyTooLong (withSeed seed s) = keyTooLong s := rfl
  have hloop : setPositions (indexBad (withSeed seed s)) (positions (withSeed seed s)) (withSeed seed s).bits false =
      setPositions (indexBad s) (positions s) s.bits false := rfl
  unfold addCompletion
  rw [hstatus, hkey, hloop]
  split_ifs
  · rfl
  · rfl
  · cases setPositions (indexBad s) (positions s) s.bits false <;> rfl

theorem testCompletion_withSeed (seed : BitVec 32) (s : State) :
    testCompletion (withSeed seed s) = withSeed seed (testCompletion s) := by
  have hstatus : (withSeed seed s).status = s.status := rfl
  have hkey : keyTooLong (withSeed seed s) = keyTooLong s := rfl
  have hloop : testPositions (indexBad (withSeed seed s)) (withSeed seed s).bits (positions (withSeed seed s)) =
      testPositions (indexBad s) s.bits (positions s) := rfl
  unfold testCompletion
  rw [hstatus, hkey, hloop]
  split_ifs
  · rfl
  · rfl
  · cases testPositions (indexBad s) s.bits (positions s) <;> rfl

theorem exec_withSeed {i : Instr} (hi : i ≠ .hash128) {s t : State} (h : exec i s = .next t) (seed : BitVec 32) :
    exec i (withSeed seed s) = .next (withSeed seed t) := by
  cases i <;> injection h with h <;> subst h
  case hash128 => exact absurd rfl hi
  case derive c => exact congrArg _ (deriveCompletion_withSeed c seed s)
  case configure => exact congrArg _ (configureCompletion_withSeed seed s)
  case add => exact congrArg _ (addCompletion_withSeed seed s)
  case test => exact congrArg _ (testCompletion_withSeed seed s)
  case release => rfl

/-- Settles O29: `exec_keeps` is that no command writes SEED, `exec_withSeed` that HASH128 alone reads it. -/
theorem seedMattersToHash128Alone : Obligations.SeedMattersToHash128Alone := by
  refine ⟨fun s i => ?_, fun s t seed i hi h => exec_withSeed hi h seed⟩
  obtain ⟨t, ht⟩ := exec_next i s
  exact ⟨t, ht, (exec_keeps ht).seed_eq⟩

/-! ### DERIVE -/

theorem toNat_encode_derive {c : Nat} (hc : c ≤ 255) : (encode (.derive c)).toNat = 256 * c + 2 := by
  have hlow : (encode (.derive c)).toNat = c <<< 8 ||| 2 := by
    have hcount : (BitVec.ofNat 8 c).toNat = c := Nat.mod_eq_of_lt (by omega)
    rw [encode, BitVec.toNat_append, BitVec.toNat_append, Instr.count, Instr.opcode, hcount]
    simp
  rw [hlow, ← Nat.shiftLeft_add_eq_or_of_lt (by decide), Nat.shiftLeft_eq]
  omega

theorem derivedValue_zero (mult mult' : Word) (h : HashPair) : derivedValue mult h 0 = derivedValue mult' h 0 := by
  simp [derivedValue]

/-- `40_hash_engine.md` rule R141's example: value 0 of the key "apples", under every multiplier. -/
theorem deriveHashes_of_6_bytes (mult : Word) :
    deriveHashes mult [0x61, 0x70, 0x70, 0x6C, 0x65, 0x73] 1 = [(0x1ac96df17d6e5c4b : Word)] := by
  have hvalue : derivedValue 0 (createHash [0x61, 0x70, 0x70, 0x6C, 0x65, 0x73] 0) 0 = 0x1ac96df17d6e5c4b := by decide
  rw [deriveHashes, if_neg (by simp), List.range_one, List.map_singleton, derivedValue_zero mult 0, hvalue]

theorem exec_derive_of_fits {s : State} {c : Nat} (hc : c ≤ s.build.kMax) (hfits : s.keyLen.toNat ≤ s.build.keyMax) :
    exec (.derive c) s =
      .next (complete 0x02 .ok 0 (clearKey (withDerived (deriveHashes s.build.deriveMult (keyBytes s) c) s))) := by
  rw [exec, execDerive, deriveCompletion, if_neg (Nat.not_lt.mpr hc), if_neg (by simp [keyTooLong_eq_false hfits])]
  rfl

theorem exec_derive_of_error {s : State} {c : Nat} (h : s.build.kMax < c ∨ s.build.keyMax < s.keyLen.toNat) :
    exec (.derive c) s =
      .next (complete 0x02 .arg (if s.build.kMax < c then 2 else 1) (clearKey s)) := by
  rw [exec, execDerive, deriveCompletion]
  by_cases hc : s.build.kMax < c
  · rw [if_pos hc, if_pos hc, raiseErr_eq_complete]
  · rw [if_neg hc, if_neg hc, if_pos (keyTooLong_eq_true (h.resolve_left hc)), raiseErr_eq_complete]

/-- DERIVE's values write DCOUNT alone among the registers. -/
theorem regRead_withDerived {r : Reg} (hr : r ≠ .dcount) (values : List Word) (s : State) :
    regRead (withDerived values s) r = regRead s r := by
  cases r
  case dcount => exact absurd rfl hr
  all_goals rfl

/-- Settles O12: `exec_derive_of_fits` with `getD_deriveHashes_append` is the result, `exec_derive_of_error` with
`keyError_leaves` the errors. -/
theorem deriveComputes : Obligations.DeriveComputes := by
  refine ⟨fun c => toNat_encode_derive, derivedValue_zero, deriveHashes_of_6_bytes, fun s c hc hmax hfits => ?_,
    fun s c herr => keyError_leaves (exec_derive_of_error herr) rfl⟩
  have hlen := length_deriveHashes s.build.deriveMult (keyBytes s) c
  have hle := length_deriveHashes_le s.build.deriveMult (keyBytes s) c
  refine ⟨_, exec_derive_of_fits hc hfits, ?_, ?_, fun i => ?_, keyCleared_complete_clearKey ..,
    completed_complete_clearKey rfl rfl .., fun r hr => ?_, fun _ => rfl, ⟨rfl, rfl, rfl⟩, rfl, rfl⟩
  · rw [complete_dcount, clearKey_dcount, withDerived, BitVec.toNat_ofNat, Nat.mod_eq_of_lt (by omega), hlen]
    simp only [keyBytes_eq_nil_iff]
  · rw [complete_dval, clearKey_dval, withDerived, List.length_append, List.length_replicate]
    omega
  · rw [complete_dval, clearKey_dval, withDerived, getD_deriveHashes_append]
    simp only [ne_eq, keyBytes_eq_nil_iff]
    rfl
  · obtain ⟨hdcount, hrest⟩ := not_or.mp (mt List.mem_cons.mpr hr)
    rw [regRead_complete_clearKey hrest, regRead_withDerived hdcount]

/-! ### CONFIGURE -/

theorem exec_configure_of_reason {s : State} {reason : Word} (h : configReason s = some reason) :
    exec .configure s = .next (complete 0x03 .config reason s) := by
  rw [exec, execConfigure, configureCompletion, h]
  rfl

theorem exec_configure_of_none {s : State} (h : configReason s = none) :
    exec .configure s = .next (complete 0x03 .ok 0 (newFilter s)) := by
  rw [exec, execConfigure, configureCompletion, h]
  rfl

/-- Some check fails, and the first that does gives the reason. -/
theorem configReason_eq_some {s : State}
    (h : s.cfgN = 0 ∨ ¬ legalP s.cfgP ∨ s.cfgM = 0 ∨ s.build.maxBits < s.cfgM.toNat ∨ s.cfgK = 0 ∨
      s.build.kMax < s.cfgK.toNat) :
    configReason s =
      some (if s.cfgN = 0 then 1 else if ¬ legalP s.cfgP then 2 else if s.cfgM = 0 then 3
        else if s.build.maxBits < s.cfgM.toNat then 4 else 5) := by
  rw [configReason_eq]
  split_ifs with hn hp hm hmax hk
  case neg => exact absurd h (by tauto)
  all_goals rfl

/-- Settles O17: the reason is that of the first check, and the completion with an error is a `complete`. -/
theorem configureReportsFirstReason : Obligations.ConfigureReportsFirstReason := fun _ hfail =>
  ⟨_, exec_configure_of_reason (configReason_eq_some hfail), ⟨rfl, rfl⟩, fun _ hr => regRead_complete hr ..,
    fun _ => rfl, fun _ => rfl, fun _ => rfl, ⟨rfl, rfl, rfl⟩, rfl, rfl⟩

/-- A new filter writes the filter's registers alone, and ACTIVE. -/
theorem regRead_newFilter {r : Reg} (hr : r ∉ [Reg.n, .m, .k, .p, .nbytes, .inserted, .status]) (s : State) :
    regRead (newFilter s) r = regRead s r := by
  cases r
  case n | m | k | p | nbytes | inserted | status => simp at hr
  all_goals rfl

/-- Settles O19: the checks pass by `configReason_eq_none_iff`, and `zeroBelow` clears the filter's bytes. -/
theorem configureBuildsFilter : Obligations.ConfigureBuildsFilter := by
  intro s hwf hn hp hm hmax hk hkMax
  have hreason : configReason s = none :=
    (configReason_eq_none_iff s).mpr ⟨(one_le_toNat_iff _).mpr hn, hp, ⟨hm, hmax⟩, hk, hkMax⟩
  have hsize := toNat_ceilDiv8 s.cfgM
  refine ⟨_, exec_configure_of_none hreason, rfl, rfl, rfl, rfl, hsize, rfl, fun b hb => ?_, fun b hb => ?_,
    ⟨rfl, rfl⟩, fun r hr => ?_, fun _ => rfl, fun _ => rfl, ⟨rfl, rfl, rfl⟩, rfl, rfl⟩
  · rw [complete_nbytes, newFilter, hsize] at hb
    exact (Memory.read_zeroBelow hwf _ b).trans (if_neg (Nat.not_le.mpr hb))
  · rw [complete_nbytes, newFilter, hsize] at hb
    exact (Memory.read_zeroBelow hwf _ b).trans (if_pos hb)
  · rw [regRead_complete (by grind), regRead_newFilter (by grind)]

/-! ### The first error -/

theorem exec_hash128_error (s : State) : ∃ t, exec .hash128 s = .next t ∧
    (t.status.err, t.errInfo) = (if s.build.keyMax < s.keyLen.toNat then (.arg, 1) else (.ok, 0)) := by
  split
  next hlong => exact ⟨_, exec_hash128_of_tooLong hlong, rfl⟩
  next hfits => exact ⟨_, exec_hash128_of_fits (Nat.le_of_not_lt hfits), rfl⟩

theorem exec_derive_error (c : Nat) (s : State) : ∃ t, exec (.derive c) s = .next t ∧
    (t.status.err, t.errInfo) =
      (if s.build.kMax < c then (.arg, 2) else if s.build.keyMax < s.keyLen.toNat then (.arg, 1) else (.ok, 0)) := by
  split_ifs with hc hlong
  · exact ⟨_, exec_derive_of_error (.inl hc), by rw [if_pos hc]; rfl⟩
  · exact ⟨_, exec_derive_of_error (.inr hlong), by rw [if_neg hc]; rfl⟩
  · exact ⟨_, exec_derive_of_fits (Nat.le_of_not_lt hc) (Nat.le_of_not_lt hlong), rfl⟩

/-- ADD and TEST check the filter and then the key; where the invariants hold no index fails. -/
theorem exec_filter_error {s : State} (h : Inv s) {i : Instr} (hi : i = .add ∨ i = .test) :
    ∃ t, exec i s = .next t ∧
      (t.status.err, t.errInfo) =
        (if s.status.active = false then (.state, 0)
          else if s.build.keyMax < s.keyLen.toNat then (.arg, 1) else (.ok, 0)) := by
  split_ifs with ha hlong
  · rcases hi with rfl | rfl
    · exact ⟨_, exec_add_of_none ha, rfl⟩
    · exact ⟨_, exec_test_of_none ha, rfl⟩
  · have ha : s.status.active = true := by simpa using ha
    rcases hi with rfl | rfl
    · exact ⟨_, exec_add_of_tooLong ha hlong, rfl⟩
    · exact ⟨_, exec_test_of_tooLong ha hlong, rfl⟩
  · have ha : s.status.active = true := by simpa using ha
    have hfits : s.keyLen.toNat ≤ s.build.keyMax := Nat.le_of_not_lt hlong
    have hgood := indexBad_positions h ha
    rcases hi with rfl | rfl
    · obtain ⟨bits, new, hloop, _⟩ := setPositions_ok hgood h.bits_wf false
      exact ⟨_, exec_add_of_ok ha hfits hloop, rfl⟩
    · exact ⟨_, exec_test_of_ok ha hfits (testPositions_ok hgood), rfl⟩

theorem exec_configure_error (s : State) : ∃ t, exec .configure s = .next t ∧
    (t.status.err, t.errInfo) =
      (if s.cfgN = 0 then (.config, 1) else if ¬ legalP s.cfgP then (.config, 2)
        else if s.cfgM = 0 then (.config, 3) else if s.build.maxBits < s.cfgM.toNat then (.config, 4)
        else if s.cfgK = 0 ∨ s.build.kMax < s.cfgK.toNat then (.config, 5) else (.ok, 0)) := by
  have hreason := configReason_eq s
  split_ifs at hreason ⊢
  case neg => exact ⟨_, exec_configure_of_none hreason, rfl⟩
  all_goals exact ⟨_, exec_configure_of_reason hreason, rfl⟩

/-- Settles O28: one lemma per command, each by its checks in order. -/
theorem firstErrorInOrder : Obligations.FirstErrorInOrder := fun s h =>
  ⟨fun hc hd => ⟨_, step_of_illegal hc hd, rfl, rfl⟩, exec_hash128_error s, fun c => exec_derive_error c s,
    fun _ hi => exec_filter_error h hi, ⟨_, rfl, rfl⟩, exec_configure_error s⟩

end Sys2Proof.Machine
end

section
/-! What the bus port answers and stores: reads exact and drawn, reads that change nothing, and the staging and KEYBUF
writes (`20_memory.md` rules R60, R62, R66, R67, R70 and R71). -/

namespace Sys2Proof.Machine

/-! ### Reads of a state that is idle, and of one that is not -/

theorem answerUnlessBusy_of_idle {s : State} (hb : s.status.busy = false) (host width : Nat) (v : Word) :
    answerUnlessBusy host width v s = .next (respond host width v s) := by
  rw [answerUnlessBusy, if_neg (by simp [hb])]

theorem answerUnlessBusy_of_busy {s : State} (hb : s.status.busy = true) (host width : Nat) (v : Word) :
    answerUnlessBusy host width v s = .next (respondDraw host width s) := by
  rw [answerUnlessBusy, if_pos hb]

@[simp] theorem regRead_respond (host width : Nat) (v : Word) (s : State) (r : Reg) :
    regRead (respond host width v s) r = regRead s r := by
  cases r <;> rfl

/-- A register reads exactly where nothing about it is drawn. -/
theorem busAccess_ldReg_exact {s : State} {r : Reg} (h : s.status.busy = false ∨ r.busyDraw = false) (host : Nat) :
    busAccess host (ldReg s.build r) s = .next (respond host 8 (regRead s r) s) := by
  rw [busAccess_ldReg]
  split
  next hr => exact answerUnlessBusy_of_idle (h.resolve_right (by simp [hr])) ..
  · rfl

/-! ### Register reads -/

/-- The registers that read exactly while BUSY = 1 (`20_memory.md` rule R71). -/
theorem busyDraw_of_exact {r : Reg}
    (hr : r ∈ [Reg.id, .param, .maxBits, .mult, .cmd, .status, .irqEn, .seed, .cfgN, .cfgM, .cfgK, .cfgP]) :
    r.busyDraw = false := by
  revert r
  decide

theorem busyDraw_of_output {r : Reg}
    (hr : r ∈ [Reg.keyLen, .h1, .h2, .dcount, .result, .errInfo, .n, .m, .k, .p, .nbytes, .inserted]) :
    r.busyDraw = true := by
  revert r
  decide

/-- Settles O31: the offsets by the register map, the reads by `busAccess_ldReg_exact`. -/
theorem registerReads : Obligations.RegisterReads := by
  refine ⟨fun r => by cases r <;> decide, fun s host r h => ?_⟩
  refine ⟨_, busAccess_ldReg_exact (h.imp_right busyDraw_of_exact) host, ?_, fun r' _ => regRead_respond ..,
    fun _ => rfl, fun _ => rfl, fun _ => rfl, ⟨rfl, rfl, rfl⟩, rfl⟩
  split
  next hcmd => rw [hcmd]; rfl
  · rfl

/-! ### Reads of DVAL, KEYBUF and BITS -/

/-- The bytes of a read, the byte at the lowest address least significant, and zero above the width. -/
theorem extractLsb'_readWide (mem : Memory) (x : Nat) {width : Nat} (hw : width ≤ 8) (q : Nat) :
    (mem.readWide x width).extractLsb' (8 * q) 8 = if q < width then mem.read (x + q) else 0 := by
  split
  next hlt => exact leByte_leSum (fun t => mem.read (x + t)) hw hlt
  next hge =>
    refine BitVec.eq_of_getLsbD_eq fun j hj => ?_
    have hout : ¬ 8 * q + j < 8 * width := by omega
    rw [BitVec.getLsbD_extractLsb', Memory.readWide, getLsbD_leSum _ hw]
    simp [hout]

/-- The bytes of a legal filter lie inside the bit-array window. -/
theorem nbytes_le_bitsSize {s : State} (h : Inv s) (ha : s.status.active = true) :
    s.nbytes.toNat ≤ bitsSize s.build := by
  refine le_trans ?_ (bitArray_in_bitsSize s.build)
  have hm := h.active_m ha
  rw [h.nbytes_eq, bitArrayBytes]
  simp only [ceilDiv8]
  omega

/-- Settles O32: with BUSY = 0 each legal read answers its value, whose bytes are `extractLsb'_readWide`. -/
theorem arrayReads : Obligations.ArrayReads := by
  intro s host hb
  refine ⟨fun i hi hk => ?_, fun width j hal hj => ?_, fun width o hbuild ha hal ho hn => ?_⟩
  · exact ⟨_, (busAccess_ldDval s host hi hk).trans (answerUnlessBusy_of_idle hb ..), rfl, rfl⟩
  · exact ⟨_, _, (busAccess_ldKey s host width hal hj).trans (answerUnlessBusy_of_idle hb ..), rfl, rfl,
      fun q _ => extractLsb'_readWide s.keyBuf j (width_pos width).2 q⟩
  · exact ⟨_, _, (busAccess_ldBits s host width hbuild ha hal ho hn).trans (answerUnlessBusy_of_idle hb ..), rfl, rfl,
      fun q _ => extractLsb'_readWide s.bits o (width_pos width).2 q⟩

/-- Bit `j` of the 64-bit word at byte `8w` is bit index `64w + j` (`20_memory.md` rule R62). -/
theorem getLsbD_readWide_word (mem : Memory) (w : Nat) {j : Nat} (hj : j < 64) :
    (mem.readWide (8 * w) 8).getLsbD j = bitGet mem (64 * w + j) := by
  have hbyte : 8 * w + j / 8 = (64 * w + j) / 2 ^ 3 := by omega
  have hbit : j % 8 = (64 * w + j) % 8 := by omega
  rw [Memory.readWide, getLsbD_leSum _ le_rfl, decide_eq_true (show j < 8 * 8 from hj), Bool.true_and, bitGet,
    Nat.shiftRight_eq_div_pow, hbyte, hbit]

/-- Settles O33. -/
theorem bitsReadShowsBitIndices : Obligations.BitsReadShowsBitIndices := by
  intro s host w h hb ha hw
  have hread := busAccess_ldBits s host .d h.build_legal ha (Nat.mul_mod_right 8 w) hw (nbytes_le_bitsSize h ha)
  exact ⟨_, _, hread.trans (answerUnlessBusy_of_idle hb ..), rfl, fun j hj => getLsbD_readWide_word s.bits w hj⟩

/-- A value cut to the width of an access. -/
theorem toNat_lowBytes (width : Nat) (v : Word) : (lowBytes width v).toNat = v.toNat % 2 ^ (8 * width) := by
  rw [lowBytes, BitVec.toNat_setWidth, BitVec.toNat_setWidth]
  exact Nat.mod_eq_of_lt ((Nat.mod_le ..).trans_lt v.isLt)

/-- Settles O34: each drawn location answers `respondDraw`, the others `respond`. -/
theorem busyReadsAreDrawn : Obligations.BusyReadsAreDrawn := by
  intro s host hb
  refine ⟨fun width => lowBytes width (Config.freeDraw s.draws), fun width => toNat_lowBytes width _, fun r hr => ?_,
    fun r hr => busAccess_ldReg_exact (.inr (busyDraw_of_exact hr)) host,
    fun i hi hk => (busAccess_ldDval s host hi hk).trans (answerUnlessBusy_of_busy hb ..),
    fun width j hal hj => (busAccess_ldKey s host width hal hj).trans (answerUnlessBusy_of_busy hb ..),
    fun width o hbuild ha hal ho hn =>
      (busAccess_ldBits s host width hbuild ha hal ho hn).trans (answerUnlessBusy_of_busy hb ..)⟩
  have hread := busAccess_ldReg s host r
  rw [if_pos (busyDraw_of_output hr), answerUnlessBusy_of_busy hb] at hread
  exact hread

/-! ### Reads have no effect -/

/-- The state with another answer of the bus port and another count of draws. -/
def withPort (response : Option Response) (draws : Nat) (s : State) : State :=
  { s with response := response, draws := draws }

theorem withPort_readsSame (response : Option Response) (draws : Nat) (s : State) :
    ReadsSame s (withPort response draws s) where
  regs_eq := fun r => by cases r <;> rfl
  bits_eq := fun _ _ _ => rfl

/-- A read that drew nothing answers alike whatever was answered and drawn before. -/
theorem memRead_withPort {host addr width : Nat} {s t : State} (h : memRead host addr width s = .next t)
    (hdraws : t.draws = s.draws) (response : Option Response) (draws : Nat) :
    memRead host addr width (withPort response draws s) = .next { t with draws := draws } := by
  cases memRead_sameAnswer (withPort_readsSame response draws s) host addr width with
  | exact v hs ht =>
    rw [hs] at h
    injection h with h
    rw [ht, ← h]
    rfl
  | unlessBusy v hs ht =>
    rw [hs] at h
    by_cases hb : s.status.busy = true
    · rw [answerUnlessBusy_of_busy hb] at h
      injection h with h
      subst h
      simp at hdraws
    · have hb : s.status.busy = false := by simpa using hb
      rw [answerUnlessBusy_of_idle hb] at h
      injection h with h
      rw [ht, answerUnlessBusy_of_idle (s := withPort response draws s) hb, ← h]
      rfl
  | stops _ hs => exact absurd h (hs t)

theorem memRead_changes_port {host addr width : Nat} {s t : State} (h : memRead host addr width s = .next t) :
    t = { s with response := t.response, draws := t.draws } ∧ (s.status.busy = false → t.draws = s.draws) := by
  rcases memRead_next h with ⟨v, rfl⟩ | ⟨hb, rfl⟩
  · exact ⟨rfl, fun _ => rfl⟩
  · exact ⟨rfl, fun hidle => by simp [hb] at hidle⟩

theorem Status.writeOneToClear_twice (x : Status) (v : Word) :
    (x.writeOneToClear v).writeOneToClear v = x.writeOneToClear v := by
  simp [Status.writeOneToClear]

/-- Settles O35: `memRead_changes_port` and `memRead_withPort` are the reads, and both writes are idempotent. -/
theorem readsChangeNothing : Obligations.ReadsChangeNothing := by
  refine ⟨fun s t host addr width h => ?_, fun s t host v r hr h => ?_⟩
  · obtain ⟨hport, hidle⟩ := memRead_changes_port h
    exact ⟨hport, hidle, fun hdraws => memRead_withPort h hdraws⟩
  · rw [busAccess_stReg] at h
    rcases hr with rfl | rfl <;> injection h with h <;> subst h
    · refine (busAccess_stReg _ host .status v).trans ?_
      simp only [regWrite, acknowledge, Status.writeOneToClear_twice]
    · exact busAccess_stReg _ host .irqEn v

/-! ### The windows -/

/-- No smaller power of two will do. -/
theorem powerOfTwoAtLeast_le {x e : Nat} (h : x ≤ 2 ^ e) : powerOfTwoAtLeast x ≤ 2 ^ e := by
  unfold powerOfTwoAtLeast
  split
  · exact Nat.one_le_two_pow
  next hx => exact Nat.pow_le_pow_right (by decide) ((Nat.log2_lt (by omega)).mpr (by omega))

theorem smallestPowerOfTwo_powerOfTwoAtLeast (x : Nat) : smallestPowerOfTwo x (powerOfTwoAtLeast x) :=
  ⟨powerOfTwoAtLeast_eq x, le_powerOfTwoAtLeast x, fun _ => powerOfTwoAtLeast_le⟩

theorem not_inWindow {base size addr : Nat} (h : addr < base ∨ base + size ≤ addr) : ¬ inWindow base size addr := by
  rintro ⟨hlow, hhigh⟩
  omega

/-- Settles O38. -/
theorem outsideWindowsRefused : Obligations.OutsideWindowsRefused := by
  refine ⟨fun b => ⟨smallestPowerOfTwo_powerOfTwoAtLeast _, smallestPowerOfTwo_powerOfTwoAtLeast _, fun hkey => ?_,
    fun hbits => ?_⟩, fun s host addr width v hreg hbits => ⟨?_, ?_⟩⟩
  · rw [regSize, hkey]
    decide
  · rw [bitsSize, bitArrayBytes, hbits]
    decide
  · rw [busAccess, memRead, if_neg (not_inWindow hreg), if_neg (not_inWindow hbits)]
  · rw [busAccess, memWrite, if_neg (not_inWindow hreg), if_neg (not_inWindow hbits)]

/-! ### Staging and KEYBUF writes -/

/-- The store of a staging register, SEED its low 32 bits (`20_memory.md` rule R67). -/
def stage : Reg → Word → State → State
  | .seed, v, s => { s with seed := v.setWidth 32 }
  | .keyLen, v, s => { s with keyLen := v }
  | .cfgN, v, s => { s with cfgN := v }
  | .cfgM, v, s => { s with cfgM := v }
  | .cfgK, v, s => { s with cfgK := v }
  | .cfgP, v, s => { s with cfgP := v }
  | _, _, s => s

/-- The staging registers. -/
def stagingRegs : List Reg := [.seed, .keyLen, .cfgN, .cfgM, .cfgK, .cfgP]

theorem mem_stagingRegs_iff (r : Reg) :
    r ∈ stagingRegs ↔ r = .seed ∨ r = .keyLen ∨ r = .cfgN ∨ r = .cfgM ∨ r = .cfgK ∨ r = .cfgP := by
  simp [stagingRegs]

theorem regWrite_eq_stage {r : Reg} (hr : r ∈ stagingRegs) (host addr width : Nat) (v : Word) (s : State) :
    regWrite host addr width v r s = storeUnlessBusy host (stage r v) s := by
  rcases (mem_stagingRegs_iff r).mp hr with rfl | rfl | rfl | rfl | rfl | rfl <;> rfl

/-- A staging register reads as what was stored. -/
theorem toNat_regRead_stage {r : Reg} (hr : r ∈ stagingRegs) (v : Word) (s : State) :
    (regRead (stage r v s) r).toNat = if r = .seed then v.toNat % 2 ^ 32 else v.toNat := by
  rcases (mem_stagingRegs_iff r).mp hr with rfl | rfl | rfl | rfl | rfl | rfl
  · simp only [regRead, stage, if_true, BitVec.toNat_setWidth]
    omega
  all_goals rfl

/-- Every other register reads another field. -/
theorem regRead_stage_other {r r' : Reg} (h : r' ≠ r) (v : Word) (s : State) :
    regRead (stage r v s) r' = regRead s r' := by
  cases r
  case seed | keyLen | cfgN | cfgM | cfgK | cfgP =>
    cases r'
    any_goals rfl
    all_goals exact absurd rfl h
  all_goals rfl

theorem stage_keeps (r : Reg) (v : Word) (s : State) :
    (stage r v s).keyBuf = s.keyBuf ∧ (stage r v s).dval = s.dval ∧ (stage r v s).bits = s.bits ∧
      blockKept s (stage r v s) ∧ (stage r v s).status = s.status ∧ (stage r v s).draws = s.draws := by
  cases r <;> exact ⟨rfl, rfl, rfl, ⟨rfl, rfl, rfl⟩, rfl, rfl⟩

/-- Settles O42: the write is `stage`, which the register reads back and no other shows. -/
theorem stagingWritesStore : Obligations.StagingWritesStore := by
  intro s host v hb r o hro
  obtain ⟨hr, rfl⟩ : r ∈ stagingRegs ∧ o = r.offset := by
    simp only [List.mem_cons, Prod.mk.injEq, List.not_mem_nil, or_false] at hro
    rcases hro with ⟨rfl, rfl⟩ | ⟨rfl, rfl⟩ | ⟨rfl, rfl⟩ | ⟨rfl, rfl⟩ | ⟨rfl, rfl⟩ | ⟨rfl, rfl⟩ <;>
      exact ⟨by decide, rfl⟩
  obtain ⟨hkey, hdval, hbits, hblock, hstatus, hdraws⟩ := stage_keeps r v s
  refine ⟨acknowledge host (stage r v s), ?_, ?_, fun r' hr' => ?_, fun j => ?_, fun i => ?_, fun b => ?_, hblock,
    hstatus, hdraws⟩
  · refine (busAccess_stReg s host r v).trans ?_
    rw [regWrite_eq_stage hr, storeUnlessBusy_of_idle hb]
  · rw [regRead_acknowledge, toNat_regRead_stage hr]
  · rw [regRead_acknowledge, regRead_stage_other (by simpa using hr')]
  · rw [acknowledge_keyBuf, hkey]
  · rw [acknowledge_dval, hdval]
  · rw [acknowledge_bits, hbits]

/-- Settles O43: `read_writeWide` is both halves of the store. -/
theorem keyBufWriteStoresBytes : Obligations.KeyBufWriteStoresBytes := by
  intro s host j width v hwf hb hal hj
  refine ⟨_, (busAccess_stKey s host width v hal hj).trans (storeUnlessBusy_of_idle hb host _), fun q hq => ?_,
    fun x hx => ?_, fun r _ => ?_, fun _ => rfl, fun _ => rfl, ⟨rfl, rfl, rfl⟩, rfl, rfl⟩
  · rw [acknowledge_keyBuf, Memory.read_writeWide hwf, if_pos (by omega), Nat.add_sub_cancel_left, leByte]
  · rw [acknowledge_keyBuf, Memory.read_writeWide hwf, if_neg (by omega)]
  · cases r <;> rfl

end Sys2Proof.Machine
end

section
/-! Who writes each field: one inversion of a step by what it may change (`10_state.md` rules R27 to R46,
`41_bloom_filter.md` rule R184, `70_reset_and_hazards.md` rule R266). -/

namespace Sys2Proof.Machine

/-! ### The owner of every field -/

/-- Each field with the steps that may change it, a reset apart. -/
structure StepOwners (s t : State) : Prop where
  h1 : t.h1 ≠ s.h1 → completesInstr s .hash128 := by exact fun h => absurd rfl h
  h2 : t.h2 ≠ s.h2 → completesInstr s .hash128 := by exact fun h => absurd rfl h
  dcount : t.dcount ≠ s.dcount → ∃ c, completesInstr s (.derive c) := by exact fun h => absurd rfl h
  dval : t.dval ≠ s.dval → ∃ c, completesInstr s (.derive c) := by exact fun h => absurd rfl h
  result : t.result ≠ s.result → completesInstr s .add ∨ completesInstr s .test := by exact fun h => absurd rfl h
  n : t.n ≠ s.n → completesInstr s .configure ∨ completesInstr s .release := by exact fun h => absurd rfl h
  m : t.m ≠ s.m → completesInstr s .configure ∨ completesInstr s .release := by exact fun h => absurd rfl h
  k : t.k ≠ s.k → completesInstr s .configure ∨ completesInstr s .release := by exact fun h => absurd rfl h
  p : t.p ≠ s.p → completesInstr s .configure ∨ completesInstr s .release := by exact fun h => absurd rfl h
  nbytes : t.nbytes ≠ s.nbytes → completesInstr s .configure ∨ completesInstr s .release := by
    exact fun h => absurd rfl h
  active : t.status.active ≠ s.status.active → completesInstr s .configure ∨ completesInstr s .release := by
    exact fun h => absurd rfl h
  inserted : t.inserted ≠ s.inserted →
      completesInstr s .add ∨ completesInstr s .configure ∨ completesInstr s .release := by
    exact fun h => absurd rfl h
  bits : t.bits ≠ s.bits → completesInstr s .add ∨ completesInstr s .configure := by exact fun h => absurd rfl h
  keyLen : t.keyLen ≠ s.keyLen →
      (∃ v, writesReg s .keyLen v) ∨ ∃ i, consumesKey i ∧ completesInstr s i := by
    exact fun h => absurd rfl h
  seed : t.seed ≠ s.seed → ∃ v, writesReg s .seed v := by exact fun h => absurd rfl h
  irqEnable : t.irqEnable ≠ s.irqEnable → ∃ v, writesReg s .irqEn v := by exact fun h => absurd rfl h
  cfgN : t.cfgN ≠ s.cfgN → ∃ v, writesReg s .cfgN v := by exact fun h => absurd rfl h
  cfgM : t.cfgM ≠ s.cfgM → ∃ v, writesReg s .cfgM v := by exact fun h => absurd rfl h
  cfgK : t.cfgK ≠ s.cfgK → ∃ v, writesReg s .cfgK v := by exact fun h => absurd rfl h
  cfgP : t.cfgP ≠ s.cfgP → ∃ v, writesReg s .cfgP v := by exact fun h => absurd rfl h
  latch : t.latch ≠ s.latch → ∃ v, writesReg s .cmd v := by exact fun h => absurd rfl h

/-- A completing command. -/
theorem StepOwners.of_exec {s t : State} {i : Instr} (hi : completesInstr s i) (h : exec i (afterEvent s) = .next t) :
    StepOwners s t := by
  cases exec_end_cases h with
  | failed =>
    by_cases hkey : consumesKey i
    · rw [errorEntry_of_consumesKey hkey]
      exact { keyLen := fun _ => .inr ⟨i, hkey, hi⟩ }
    · rw [errorEntry_of_not_consumesKey (by simpa using hkey)]
      exact {}
  | succeeded hu =>
    cases hu with
    | hash128 =>
      exact
        { h1 := fun _ => hi
          h2 := fun _ => hi
          keyLen := fun _ => .inr ⟨_, .inl rfl, hi⟩ }
    | derive =>
      exact
        { dcount := fun _ => ⟨_, hi⟩
          dval := fun _ => ⟨_, hi⟩
          keyLen := fun _ => .inr ⟨_, .inr (.inl ⟨_, rfl⟩), hi⟩ }
    | configure =>
      exact
        { n := fun _ => .inl hi
          m := fun _ => .inl hi
          k := fun _ => .inl hi
          p := fun _ => .inl hi
          nbytes := fun _ => .inl hi
          active := fun _ => .inl hi
          inserted := fun _ => .inr (.inl hi)
          bits := fun _ => .inr hi }
    | add =>
      exact
        { result := fun _ => .inl hi
          inserted := fun _ => .inl hi
          bits := fun _ => .inl hi
          keyLen := fun _ => .inr ⟨_, .inr (.inr (.inl rfl)), hi⟩ }
    | test =>
      exact
        { result := fun _ => .inr hi
          keyLen := fun _ => .inr ⟨_, .inr (.inr (.inr rfl)), hi⟩ }
    | release =>
      exact
        { n := fun _ => .inr hi
          m := fun _ => .inr hi
          k := fun _ => .inr hi
          p := fun _ => .inr hi
          nbytes := fun _ => .inr hi
          active := fun _ => .inr hi
          inserted := fun _ => .inr (.inr hi) }

/-- A host write, with its acknowledgement. -/
theorem StepOwners.of_write {s u : State} {host : Nat} {a : Access} (hn : nextEvent s = .access host a)
    (hu : WriteEffect (afterEvent s) a u) : StepOwners s (acknowledge host u) := by
  cases hu with
  | status | discarded => exact {}
  | irqEn v => exact { irqEnable := fun _ => ⟨v, host, hn⟩ }
  | stored _ hstore =>
    cases hstore with
    | command w => exact { latch := fun _ => ⟨w, host, hn⟩ }
    | seed v => exact { seed := fun _ => ⟨v, host, hn⟩ }
    | keyLen v => exact { keyLen := fun _ => .inl ⟨v, host, hn⟩ }
    | cfgN v => exact { cfgN := fun _ => ⟨v, host, hn⟩ }
    | cfgM v => exact { cfgM := fun _ => ⟨v, host, hn⟩ }
    | cfgK v => exact { cfgK := fun _ => ⟨v, host, hn⟩ }
    | cfgP v => exact { cfgP := fun _ => ⟨v, host, hn⟩ }
    | keyBuf => exact {}

theorem step_owners {s t : State} (h : step s = .next t) (hreset : ¬ resetsNext s) : StepOwners s t := by
  rcases step_next h with ⟨_, _, rfl⟩ | ⟨_, _, rfl⟩ | ⟨i, hi, hx⟩ | ⟨_, _, _, _, ⟨_, rfl⟩ | ⟨_, rfl⟩⟩ |
    ⟨_, _, _, _, _, hn, hu, rfl⟩ | ⟨inFlight, hr, _⟩
  · exact {}
  · exact {}
  · exact .of_exec hi hx
  · exact {}
  · exact {}
  · exact .of_write hn hu
  · exact absurd ⟨inFlight, hr⟩ hreset

/-! ### The statements -/

/-- Settles O49. -/
theorem bitArrayWriters : Obligations.BitArrayWriters := by
  intro s t h hbits
  by_cases hreset : resetsNext s
  · exact .inr (.inr hreset)
  · have hne : t.bits ≠ s.bits := fun heq => hbits fun b => by rw [heq]
    exact ((step_owners h hreset).bits hne).imp_right .inl

/-- Settles O50: the fields of `step_owners`, grouped. -/
theorem registerWriters : Obligations.RegisterWriters := by
  intro s t h hreset
  have ho := step_owners h hreset
  refine ⟨fun hne => hne.elim ho.h1 ho.h2, fun hne => hne.elim ho.dcount ho.dval, ho.result, ?_, ho.inserted,
    ho.keyLen, ho.seed, ho.irqEnable, ho.cfgN, ho.cfgM, ho.cfgK, ho.cfgP, ho.latch⟩
  rintro (hne | hne | hne | hne | hne)
  · exact ho.n hne
  · exact ho.m hne
  · exact ho.k hne
  · exact ho.p hne
  · exact ho.nbytes hne

theorem WriteEffect.record_eq {s u : State} {a : Access} (hu : WriteEffect s a u) :
    u.status.err = s.status.err ∧ u.status.lastOp = s.status.lastOp ∧ u.errInfo = s.errInfo := by
  cases hu with
  | status | irqEn | discarded => exact ⟨rfl, rfl, rfl⟩
  | stored _ hstore => cases hstore <;> exact ⟨rfl, rfl, rfl⟩

/-- A step that completes nothing leaves the record of the latest completion. -/
theorem step_keeps_record {s t : State} (h : step s = .next t) (hc : ¬ completesNext s) (hreset : ¬ resetsNext s) :
    t.status.err = s.status.err ∧ t.status.lastOp = s.status.lastOp ∧ t.errInfo = s.errInfo := by
  rcases step_next h with ⟨_, _, rfl⟩ | ⟨hends, _, _⟩ | ⟨_, ⟨hends, _⟩, _⟩ | ⟨_, _, _, _, ⟨_, rfl⟩ | ⟨_, rfl⟩⟩ |
    ⟨_, _, _, _, _, _, hu, rfl⟩ | ⟨inFlight, hr, _⟩
  · exact ⟨rfl, rfl, rfl⟩
  · exact absurd hends hc
  · exact absurd hends hc
  · exact ⟨rfl, rfl, rfl⟩
  · exact ⟨rfl, rfl, rfl⟩
  · exact hu.record_eq
  · exact absurd ⟨inFlight, hr⟩ hreset

/-- BUSY rises at an accepted CMD write alone. -/
theorem step_busy_rises {s t : State} (h : step s = .next t) (hreset : ¬ resetsNext s) (hidle : s.status.busy = false)
    (hbusy : t.status.busy = true) : ∃ w, writesReg s .cmd w := by
  cases step_flagEffect h with
  | acceptance w hw => exact ⟨w, hw⟩
  | completion hc => exact absurd hc.2 (by simp [hidle])
  | discard hb => simp [hidle] at hb
  | reset hr => exact absurd hr hreset
  | statusWrite v _ hstatus =>
    rw [hstatus, Status.writeOneToClear, hidle] at hbusy
    cases hbusy
  | irqEnWrite _ _ hstatus | kept hstatus =>
    rw [hstatus, hidle] at hbusy
    cases hbusy

/-- Settles O51: `step_keeps_record` for the record of a completion, `step_owners` for ACTIVE, `step_busy_rises` and
`step_keeps_busy` for BUSY. -/
theorem statusChangesOnlyAt : Obligations.StatusChangesOnlyAt := by
  intro s t h hreset
  refine ⟨fun hne => ?_, (step_owners h hreset).active, step_busy_rises h hreset,
    fun hb => ⟨fun hidle => ?_, fun hc => ?_⟩⟩
  · by_contra hc
    obtain ⟨herr, hlastOp, hinfo⟩ := step_keeps_record h hc hreset
    simp [herr, hlastOp, hinfo] at hne
  · rcases step_keeps_busy hb h with hbusy | hc | hr
    · simp [hidle] at hbusy
    · exact hc
    · exact absurd hr hreset
  · exact congrArg Status.busy (step_commandEnd hc h).flags.1

/-- Settles O57: while BUSY = 1 a read ends in an answer, and a write in `discardWrite`, STATUS or IRQEN. -/
theorem nothingChangesWhileBusy : Obligations.NothingChangesWhileBusy := by
  intro s t host a hb hn h
  rw [step_eq_handleEvent, hn] at h
  cases a with
  | read addr width =>
    rcases memRead_next h with ⟨v, rfl⟩ | ⟨_, rfl⟩ <;> rfl
  | write addr width v =>
    obtain ⟨u, hu, rfl⟩ := memWrite_next h
    cases hu with
    | status | irqEn | discarded => rfl
    | stored hidle => simp [hb] at hidle

/-! ### The build -/

theorem WriteEffect.build_eq {s u : State} {a : Access} (hu : WriteEffect s a u) : u.build = s.build :=
  hu.filterGrows.build_eq

theorem step_build {s t : State} (h : step s = .next t) : t.build = s.build := by
  rcases step_next h with ⟨_, _, rfl⟩ | ⟨_, _, rfl⟩ | ⟨_, _, hx⟩ | ⟨_, _, _, _, ⟨_, rfl⟩ | ⟨_, rfl⟩⟩ |
    ⟨_, _, _, _, _, _, hu, rfl⟩ | ⟨_, _, rfl⟩
  · rfl
  · rfl
  · exact (exec_keeps hx).build_eq
  · rfl
  · rfl
  · exact hu.build_eq
  · rfl

end Sys2Proof.Machine
end

section
/-! What the registers read as, field by field, and the two notions taken from outside the model: rotation and
binary64 (`10_state.md` rules R22 to R45, `00_scope.md` rule R9, `41_bloom_filter.md` rule R175). -/

namespace Sys2Proof.Machine

/-! ### Fields of the words that registers show -/

theorem paramWord_fields (b : Config.Build) :
    (paramWord b).extractLsb' 0 16 = BitVec.ofNat 16 b.kMax ∧
      (paramWord b).extractLsb' 16 32 = BitVec.ofNat 32 b.keyMax ∧ (paramWord b).extractLsb' 48 16 = 0 := by
  refine ⟨BitVec.extractLsb'_append_eq_right, ?_, ?_⟩
  · exact (BitVec.extractLsb'_append_eq_of_le (by decide)).trans BitVec.extractLsb'_append_eq_right
  · exact (BitVec.extractLsb'_append_eq_of_le (by decide)).trans BitVec.extractLsb'_append_eq_left

/-- Bits 0 to 3 of STATUS (`10_state.md` rule R27). -/
theorem Status.word_flags (x : Status) :
    x.word.getLsbD 0 = x.busy ∧ x.word.getLsbD 1 = x.done ∧ x.word.getLsbD 2 = x.wbusy ∧
      x.word.getLsbD 3 = x.active := by
  simp only [Status.word, BitVec.getLsbD_append]
  simp

/-- Bits 63:4 of STATUS, of which LASTOP and ERR are fields and the rest reads 0. -/
theorem Status.word_fields (x : Status) :
    x.word.extractLsb' 4 4 = 0 ∧ x.word.extractLsb' 16 8 = x.lastOp ∧ x.word.extractLsb' 24 40 = 0 := by
  have hlow {start len : Nat} (h : 4 ≤ start) :
      x.word.extractLsb' start len = (0#40 ++ x.lastOp ++ x.err.code ++ 0#4).extractLsb' (start - 4) len := by
    refine (BitVec.extractLsb'_append_eq_of_le (by omega)).trans ?_
    iterate 3 rw [BitVec.extractLsb'_append_eq_of_le (by omega)]
    rfl
  refine ⟨?_, ?_, ?_⟩
  · rw [hlow (by decide)]
    exact BitVec.extractLsb'_append_eq_right
  · rw [hlow (by decide)]
    refine (BitVec.extractLsb'_append_eq_of_le (by decide)).trans ?_
    exact (BitVec.extractLsb'_append_eq_of_le (by decide)).trans BitVec.extractLsb'_append_eq_right
  · rw [hlow (by decide)]
    refine (BitVec.extractLsb'_append_eq_of_le (by decide)).trans ?_
    exact (BitVec.extractLsb'_append_eq_of_le (by decide)).trans BitVec.extractLsb'_append_eq_left

theorem Result.word_fields (x : Result) :
    x.word.getLsbD 0 = x.found ∧ x.word.getLsbD 1 = x.isNew ∧ x.word.extractLsb' 2 62 = 0 := by
  refine ⟨BitVec.getLsbD_append.trans (by simp), BitVec.getLsbD_append.trans ?_, ?_⟩
  · exact BitVec.getLsbD_append.trans (by simp)
  · exact (BitVec.extractLsb'_append_eq_of_le (by decide)).trans BitVec.extractLsb'_append_eq_left

theorem regRead_irqEn_fields (s : State) :
    (regRead s .irqEn).getLsbD 0 = s.irqEnable ∧ (regRead s .irqEn).extractLsb' 1 63 = 0 := by
  refine ⟨by simp [regRead], ?_⟩
  cases h : s.irqEnable <;> rw [regRead, h] <;> decide

theorem regRead_seed_low (s : State) : (regRead s .seed).extractLsb' 0 32 = s.seed := by
  refine BitVec.eq_of_getLsbD_eq fun i hi => ?_
  have : i < 64 := by omega
  simp [regRead, hi, this]

/-- Settles O30: the words with fields by their own lemmas; the other registers are their fields whole. -/
theorem registerFields : Obligations.RegisterFields := by
  refine ⟨⟨rfl, rfl, rfl, rfl, rfl, rfl⟩, fun s => ?_⟩
  obtain ⟨hbusy, hdone, hwbusy, hactive⟩ := s.status.word_flags
  obtain ⟨hlow, hlastOp, hhigh⟩ := s.status.word_fields
  exact ⟨rfl, paramWord_fields s.build,
    ⟨hbusy, hdone, hwbusy, hactive, hlow, Status.word_err s.status, hlastOp, hhigh⟩, regRead_irqEn_fields s,
    ⟨regRead_seed_low s, regRead_seed_high s⟩, s.result.word_fields, ⟨rfl, rfl, rfl⟩, ⟨rfl, rfl, rfl, rfl, rfl⟩,
    ⟨rfl, rfl, rfl, rfl⟩, rfl, rfl, rfl, rfl, rfl, rfl⟩

/-! ### The constant registers -/

theorem regRead_constant {s t : State} (h : t.build = s.build) {r : Reg} (hr : r ∈ [Reg.id, .param, .maxBits, .mult]) :
    regRead t r = regRead s r := by
  simp only [List.mem_cons, List.not_mem_nil, or_false] at hr
  rcases hr with rfl | rfl | rfl | rfl <;> simp only [regRead, h]

/-- Settles O55: no step changes the build, which these registers show. -/
theorem constantRegisters : Obligations.ConstantRegisters := by
  refine ⟨fun s t h => ⟨step_build h, fun r hr => regRead_constant (step_build h) hr⟩, fun s hlegal => ?_⟩
  obtain ⟨hkMax, hkeyMax, hmaxBits, hodd, _⟩ := hlegal
  obtain ⟨hparamK, hparamKey, _⟩ := paramWord_fields s.build
  refine ⟨rfl, rfl, hodd, Nat.mod_eq_of_lt (by omega), ?_, ?_⟩
  · exact (congrArg _ hparamK).trans (Nat.mod_eq_of_lt (by omega))
  · exact (congrArg _ hparamKey).trans (Nat.mod_eq_of_lt (by omega))

/-! ### Rotation -/

/-- Settles O16: the library's rotation is the same shifts, by `r` modulo the width. -/
theorem rotlIsRotation : Obligations.RotlIsRotation := by
  intro x r _ hr
  rw [rotl64, BitVec.rotateLeft, BitVec.rotateLeftAux, Nat.mod_eq_of_lt hr]

/-! ### binary64 -/

/-- The magnitude of a binary64 value with the given exponent and fraction fields (log 17). -/
def binary64Magnitude (exponent fraction : Nat) : ℚ :=
  if exponent = 0 then (fraction : ℚ) / 2 ^ 52 * 2 ^ (-1022 : ℤ)
  else (1 + (fraction : ℚ) / 2 ^ 52) * 2 ^ ((exponent : ℤ) - 1023)

/-- The value of a pattern by its fields as numbers. -/
theorem binary64Value_eq (p : Word) :
    binary64Value p =
      if p.toNat / 2 ^ 52 % 2 ^ 11 = 2047 then none
      else some (if 2 ^ 63 ≤ p.toNat then -binary64Magnitude (p.toNat / 2 ^ 52 % 2 ^ 11) (p.toNat % 2 ^ 52)
        else binary64Magnitude (p.toNat / 2 ^ 52 % 2 ^ 11) (p.toNat % 2 ^ 52)) := by
  have hexponent : (p.extractLsb' 52 11).toNat = p.toNat / 2 ^ 52 % 2 ^ 11 := by
    rw [BitVec.extractLsb'_toNat, Nat.shiftRight_eq_div_pow]
  have hfraction : (p.extractLsb' 0 52).toNat = p.toNat % 2 ^ 52 := by
    rw [BitVec.extractLsb'_toNat, Nat.shiftRight_zero]
  have hsign : p.getLsbD 63 = true ↔ 2 ^ 63 ≤ p.toNat := by
    rw [← BitVec.msb_eq_getLsbD_last, BitVec.msb_eq_decide, decide_eq_true_iff]
  simp only [binary64Value, hexponent, hfraction, hsign, binary64Magnitude]

theorem binary64Magnitude_nonneg (exponent fraction : Nat) : 0 ≤ binary64Magnitude exponent fraction := by
  unfold binary64Magnitude
  split <;> positivity

theorem binary64Magnitude_pos_iff (exponent fraction : Nat) :
    0 < binary64Magnitude exponent fraction ↔ exponent ≠ 0 ∨ fraction ≠ 0 := by
  unfold binary64Magnitude
  split
  next h =>
    have hscale : (0 : ℚ) < 2 ^ (-1022 : ℤ) := by positivity
    rw [mul_pos_iff_of_pos_right hscale, div_pos_iff_of_pos_right (by positivity), Nat.cast_pos, Nat.pos_iff_ne_zero]
    simp [h]
  next h => exact iff_of_true (by positivity) (.inl h)

/-- Below the bias the magnitude is below 1, and from the bias on it is not. -/
theorem binary64Magnitude_lt_one_iff {exponent fraction : Nat} (hf : fraction < 2 ^ 52) :
    binary64Magnitude exponent fraction < 1 ↔ exponent < 1023 := by
  have hfraction : (fraction : ℚ) / 2 ^ 52 < 1 := by
    rw [div_lt_one (by positivity)]
    exact_mod_cast hf
  have hnonneg : (0 : ℚ) ≤ (fraction : ℚ) / 2 ^ 52 := by positivity
  have htwo : (1 : ℚ) < 2 := by norm_num
  unfold binary64Magnitude
  split
  next h =>
    refine iff_of_true (mul_lt_one_of_nonneg_of_lt_one_left hnonneg hfraction ?_) (by omega)
    exact zpow_le_one_of_nonpos₀ htwo.le (by decide)
  next h =>
    constructor
    · intro hlt
      by_contra hge
      have hscale : (1 : ℚ) ≤ 2 ^ ((exponent : ℤ) - 1023) := one_le_zpow₀ htwo.le (by omega)
      nlinarith
    · intro hlt
      have hscale : (2 : ℚ) ^ ((exponent : ℤ) - 1023) ≤ 2 ^ (-1 : ℤ) := zpow_le_zpow_right₀ htwo.le (by omega)
      have hpos : (0 : ℚ) < 2 ^ ((exponent : ℤ) - 1023) := by positivity
      norm_num at hscale
      nlinarith

/-- The pattern of a number between 0 and 1: no sign, an exponent below the bias, and not both fields 0. -/
theorem legalP_iff_fields (p : Word) :
    legalP p ↔
      ¬ 2 ^ 63 ≤ p.toNat ∧ p.toNat / 2 ^ 52 % 2 ^ 11 < 1023 ∧
        (p.toNat / 2 ^ 52 % 2 ^ 11 ≠ 0 ∨ p.toNat % 2 ^ 52 ≠ 0) := by
  have hlt := p.isLt
  have hleast : (0x0000000000000001 : Word).toNat = 1 := rfl
  have hgreatest : (0x3FEFFFFFFFFFFFFF : Word).toNat = 1023 * 2 ^ 52 - 1 := rfl
  rw [legalP, BitVec.le_def, BitVec.le_def, hleast, hgreatest]
  omega

/-- Settles O18: a value is between 0 and 1 exactly when it has no sign and its magnitude is. -/
theorem legalPIsOpenUnitInterval : Obligations.LegalPIsOpenUnitInterval := by
  intro p
  have hf : p.toNat % 2 ^ 52 < 2 ^ 52 := Nat.mod_lt _ (by positivity)
  rw [legalP_iff_fields, ← binary64Magnitude_lt_one_iff hf, ← binary64Magnitude_pos_iff, binary64Value_eq]
  generalize hm : binary64Magnitude (p.toNat / 2 ^ 52 % 2 ^ 11) (p.toNat % 2 ^ 52) = magnitude
  have hnonneg : 0 ≤ magnitude := hm ▸ binary64Magnitude_nonneg _ _
  have hfinite : magnitude < 1 → p.toNat / 2 ^ 52 % 2 ^ 11 ≠ 2047 := fun hone => by
    rw [← hm, binary64Magnitude_lt_one_iff hf] at hone
    omega
  constructor
  · rintro ⟨hsign, hone, hpos⟩
    exact ⟨magnitude, by rw [if_neg (hfinite hone), if_neg hsign], hpos, hone⟩
  · rintro ⟨q, hq, hpos, hone⟩
    split_ifs at hq with _ hsign
    · rw [Option.some.injEq] at hq
      linarith
    · rw [Option.some.injEq] at hq
      exact ⟨hsign, hq ▸ hone, hq ▸ hpos⟩

end Sys2Proof.Machine
end

section
/-! Runs: every wait on BUSY ends, and the events of a launched program keep pace with BUSY
(`30_encoding.md` rule R99, `70_reset_and_hazards.md` rules R267 and R274). -/

namespace Sys2Proof.Machine

/-! ### The end of a run -/

theorem finished_of_done {t : State} (hs : t.schedule = []) (hb : t.status.busy = false) (host : Nat) :
    finished host t :=
  ⟨fun e he => by simp [hs] at he, hb⟩

/-- A run has an end if the run that goes on after its first step has one. -/
theorem exists_runEnds_of_step {host : Nat} {s t : State} (hs : step s = .next t) (h : ∃ u, RunEnds host t u) :
    ∃ u, RunEnds host s u := by
  by_cases hf : finished host s
  · exact ⟨s, .here hf⟩
  · obtain ⟨u, hu⟩ := h
    exact ⟨u, .later hf hs hu⟩

/-- The step after the last event, or an engine's turn at any time, leaves an idle block. -/
theorem step_of_no_event {s t : State} (hs : s.schedule = []) (h : step s = .next t) :
    t.schedule = [] ∧ t.status.busy = false := by
  have hn : nextEvent s = .engine := by rw [nextEvent, hs]
  obtain ⟨t', ht', hb, _⟩ := step_engine hn
  rw [h] at ht'
  cases ht'
  exact ⟨by rw [step_schedule h, hs, List.tail_nil], hb⟩

/-- A run of one more step begins with a step that answers a next state. -/
theorem step_of_run_succ {k : Nat} {s u : State} (h : Host.Core.run Sys2Proof.core (k + 1) s = .next u) :
    ∃ t, step s = .next t ∧ Host.Core.run Sys2Proof.core k t = .next u := by
  simp only [Host.Core.run] at h
  split at h
  next t ht => exact ⟨t, ht, h⟩
  · cases h
  · cases h

/-- The run through the events to come and one step more. -/
theorem run_through_schedule {n : Nat} {s t : State} (hn : s.schedule.length = n)
    (h : Host.Core.run Sys2Proof.core (n + 1) s = .next t) :
    t.schedule = [] ∧ t.status.busy = false ∧ ∀ host, ∃ u, RunEnds host s u := by
  induction n generalizing s with
  | zero =>
    have hnil := List.length_eq_zero_iff.mp hn
    obtain ⟨t', hstep, hrun⟩ := step_of_run_succ h
    injection hrun with hrun
    subst hrun
    obtain ⟨hs, hb⟩ := step_of_no_event hnil hstep
    exact ⟨hs, hb, fun host => exists_runEnds_of_step hstep ⟨_, .here (finished_of_done hs hb host)⟩⟩
  | succ n ih =>
    obtain ⟨t', hstep, hrun⟩ := step_of_run_succ h
    obtain ⟨hs, hb, hends⟩ := ih (by rw [step_schedule hstep, List.length_tail, hn, Nat.add_sub_cancel]) hrun
    exact ⟨hs, hb, fun host => exists_runEnds_of_step hstep (hends host)⟩

theorem RunEnds.unique {host : Nat} {s t u : State} (ht : RunEnds host s t) (hu : RunEnds host s u) : u = t := by
  induction ht with
  | here hf =>
    cases hu with
    | here => rfl
    | later hn => exact absurd hf hn
  | later hn hs _ ih =>
    cases hu with
    | here hf => exact absurd hf hn
    | later _ hs' hu' =>
      rw [hs] at hs'
      cases hs'
      exact ih hu'

/-- Settles O10: `run_through_schedule` is that every run ends, `runEnds_iff` and `RunEnds.unique` where. -/
theorem runFinishesAfterSchedule : Obligations.RunFinishesAfterSchedule := by
  refine ⟨fun s t h => ?_, fun host s t u ht => ⟨(runEnds_iff.mp ht).2, fun hu => ht.unique hu⟩⟩
  obtain ⟨hs, hb, hends⟩ := run_through_schedule rfl h
  exact ⟨hs, fun host => ⟨finished_of_done hs hb host, hends host⟩⟩

/-! ### BUSY after a host's access -/

/-- A write that no `st.d CMD` makes starts no command. -/
theorem writesCmd_stReg (b : Config.Build) (r : Reg) (v : Word) : writesCmd b (stReg b r v) = decide (r = .cmd) := by
  have hoffset : r.offset = Reg.cmd.offset ↔ r = .cmd := by cases r <;> decide
  simp [writesCmd, stReg, hoffset]

theorem writesCmd_stKey (b : Config.Build) (j width : Nat) (v : Word) :
    writesCmd b (.write (b.regBase + keyBufOffset + j) width v) = false := by
  have hne : b.regBase + keyBufOffset + j ≠ b.regBase + Reg.cmd.offset := by
    simp only [keyBufOffset, Reg.offset]
    omega
  simp [writesCmd, hne]

/-- After a host write BUSY is 1 exactly if it was before or the write was of CMD. -/
theorem WriteEffect.busy_eq {s u : State} {a : Access} (h : WriteEffect s a u) :
    u.status.busy = (s.status.busy || writesCmd s.build a) := by
  cases h with
  | status | irqEn =>
    rw [writesCmd_stReg]
    exact (Bool.or_false _).symm
  | discarded hb => simp [hb]
  | stored hb hstore =>
    cases hstore with
    | command => simp [writesCmd_stReg]
    | seed | keyLen | cfgN | cfgM | cfgK | cfgP =>
      rw [writesCmd_stReg]
      exact (Bool.or_false _).symm
    | keyBuf =>
      rw [writesCmd_stKey]
      exact (Bool.or_false _).symm

theorem step_access_busy {s t : State} {host : Nat} {a : Access} (hn : nextEvent s = .access host a)
    (h : step s = .next t) : t.status.busy = (s.status.busy || writesCmd s.build a) := by
  rw [step_eq_handleEvent, hn] at h
  cases a with
  | read addr width =>
    rcases memRead_next h with ⟨v, rfl⟩ | ⟨_, rfl⟩ <;> exact (Bool.or_false _).symm
  | write addr width v =>
    obtain ⟨u, hu, rfl⟩ := memWrite_next h
    exact hu.busy_eq

/-- An access leaves the schedule at the events after it, with BUSY as the access leaves it. -/
theorem step_access {s t : State} {host : Nat} {a : Access} {rest : List Event}
    (hs : s.schedule = .access host a :: rest) (h : step s = .next t) :
    t.schedule = rest ∧ t.build = s.build ∧ t.status.busy = (s.status.busy || writesCmd s.build a) := by
  have hn : nextEvent s = .access host a := by rw [nextEvent, hs]
  exact ⟨by rw [step_schedule h, hs, List.tail_cons], step_build h, step_access_busy hn h⟩

/-- An engine's turn, which always answers, leaves the events after it and BUSY = 0. -/
theorem step_engine_turn {s : State} {rest : List Event} (hs : s.schedule = .engine :: rest) :
    ∃ t, step s = .next t ∧ t.schedule = rest ∧ t.build = s.build ∧ t.status.busy = false := by
  obtain ⟨t, ht, hb, hbuild⟩ := step_engine (s := s) (by rw [nextEvent, hs])
  exact ⟨t, ht, by rw [step_schedule ht, hs, List.tail_cons], hbuild, hb⟩

theorem run_one {s t : State} (h : step s = .next t) : Host.Core.run Sys2Proof.core 1 s = .next t := run_succ h

/-- The engine's turn before a move, where the list of turns has one: BUSY is 0 after it, and as before without it. -/
theorem run_turn (s : State) (turn : Bool) {rest : List Event}
    (hs : s.schedule = (if turn then [.engine] else []) ++ rest) :
    ∃ t, Host.Core.run Sys2Proof.core (if turn then 1 else 0) s = .next t ∧ t.schedule = rest ∧ t.build = s.build ∧
      t.status.busy = (s.status.busy && !turn) := by
  cases turn with
  | false => exact ⟨s, rfl, hs, rfl, (Bool.and_true _).symm⟩
  | true =>
    obtain ⟨t, ht, hrest, hbuild, hb⟩ := step_engine_turn hs
    exact ⟨t, run_one ht, hrest, hbuild, by rw [hb, Bool.not_true, Bool.and_false]⟩

/-! ### Polls -/

/-- The poll of a `wait` (`30_encoding.md` rule R99). -/
def poll (b : Config.Build) (host : Nat) : Event := .access host (ldReg b .status)

/-- A poll answers STATUS, whose bit 0 is BUSY, and changes nothing. -/
theorem step_poll {s : State} {host : Nat} {rest : List Event} (hs : s.schedule = poll s.build host :: rest) :
    ∃ (t : State) (v : Word), step s = .next t ∧ t.status = s.status ∧ t.build = s.build ∧ t.schedule = rest ∧
      t.response = some (.readData host 8 v) ∧ v.getLsbD 0 = s.status.busy := by
  refine ⟨respond host 8 s.status.word (afterEvent s), s.status.word, ?_, rfl, rfl, ?_, rfl,
    Status.word_getLsbD_zero s.status⟩
  · have hn : nextEvent s = poll s.build host := by rw [nextEvent, hs]
    rw [step_eq_handleEvent, hn]
    exact busAccess_ldReg (afterEvent s) host .status
  · rw [respond_schedule, afterEvent, hs, List.tail_cons]

theorem run_polls {n : Nat} {s : State} {host : Nat} {rest : List Event}
    (hs : s.schedule = List.replicate n (poll s.build host) ++ rest) :
    ∃ t, Host.Core.run Sys2Proof.core n s = .next t ∧ t.status = s.status ∧ t.build = s.build ∧ t.schedule = rest := by
  induction n generalizing s with
  | zero => exact ⟨s, rfl, rfl, rfl, hs⟩
  | succ n ih =>
    rw [List.replicate_succ, List.cons_append] at hs
    obtain ⟨t, _, ht, hstatus, hbuild, hrest, _⟩ := step_poll hs
    obtain ⟨u, hu, hustatus, hubuild, hurest⟩ := ih (s := t) (by rw [hrest, hbuild])
    exact ⟨u, (run_succ ht).trans hu, hustatus.trans hstatus, hubuild.trans hbuild, hurest⟩

/-- Where a command runs, a `wait` polls and then lets it complete; where none runs, it goes on at once. -/
theorem run_until_idle {s : State} {host polls : Nat} {rest : List Event}
    (hs : s.schedule = waitEvents s.build host polls s.status.busy ++ rest) :
    ∃ k t, Host.Core.run Sys2Proof.core k s = .next t ∧ t.status.busy = false ∧ t.build = s.build ∧
      t.schedule = poll s.build host :: rest := by
  cases hb : s.status.busy with
  | false =>
    rw [hb] at hs
    exact ⟨0, s, rfl, hb, rfl, hs⟩
  | true =>
    rw [hb] at hs
    obtain ⟨t, ht, hstatus, hbuild, hrest⟩ :=
      run_polls (n := polls) (host := host) (rest := .engine :: poll s.build host :: rest)
        (by rw [hs, waitEvents]; simp [poll])
    obtain ⟨u, hu, hurest, hubuild, hidle⟩ := step_engine_turn hrest
    exact ⟨polls + 1, u, (run_add ht).trans (run_one hu), hidle, hubuild.trans hbuild, hurest⟩

/-! ### A launched program -/

/-- After an access, with the engine's turn before it or not, the rest of the program stands with BUSY as it is. -/
theorem launched_access {s t : State} {host : Nat} {turns : List Bool} {a : Access} {rest : List HostMove}
    (hs : s.schedule = moveEvents s.build host s.status.busy turns (.access a :: rest))
    (h : Host.Core.run Sys2Proof.core (if turns.headD false then 2 else 1) s = .next t) :
    t.schedule = moveEvents t.build host t.status.busy turns.tail rest := by
  rw [moveEvents] at hs
  obtain ⟨u, hu, hurest, hubuild, hubusy⟩ := run_turn s (turns.headD false) hs
  have hsteps : (if turns.headD false then 2 else 1) = (if turns.headD false then 1 else 0) + 1 := by
    cases turns.headD false <;> rfl
  rw [hsteps, run_add hu] at h
  obtain ⟨t', hstep, hrun⟩ := step_of_run_succ h
  injection hrun with hrun
  subst hrun
  obtain ⟨hrest, hbuild, hbusy⟩ := step_access hurest hstep
  rw [hrest, hbuild, hubuild, hbusy, hubusy, hubuild]

/-- A `wait` ends with a poll that shows BUSY = 0. -/
theorem launched_wait {s : State} {host polls : Nat} {turns : List Bool} {rest : List HostMove}
    (hs : s.schedule = moveEvents s.build host s.status.busy turns (.wait polls :: rest)) :
    ∃ (k : Nat) (t : State) (v : Word), Host.Core.run Sys2Proof.core k s = .next t ∧ t.status.busy = false ∧
      t.response = some (.readData host 8 v) ∧ v.getLsbD 0 = false ∧
      t.schedule = moveEvents t.build host false turns.tail rest := by
  rw [moveEvents] at hs
  obtain ⟨u, hu, hurest, hubuild, hubusy⟩ := run_turn s (turns.headD false) hs
  rw [← hubusy, ← hubuild] at hurest
  obtain ⟨k, w, hw, hidle, hwbuild, hwrest⟩ := run_until_idle hurest
  rw [← hwbuild] at hwrest
  obtain ⟨t, v, ht, hstatus, hbuild, hrest, hresponse, hv⟩ := step_poll hwrest
  refine ⟨(if turns.headD false then 1 else 0) + (k + 1), t, v, ?_, ?_, hresponse, ?_, ?_⟩
  · rw [run_add hu, run_add hw, run_one ht]
  · rw [hstatus, hidle]
  · rw [hv, hidle]
  · rw [hrest, hbuild, hwbuild]

/-- While a command runs, each poll before the engine's turn shows BUSY = 1. -/
theorem launched_poll {s : State} {host polls j : Nat} {turns : List Bool} {rest : List HostMove}
    (hs : s.schedule = moveEvents s.build host s.status.busy turns (.wait polls :: rest))
    (hb : s.status.busy = true) (hturn : turns.headD false = false) (hj : j < polls) :
    ∃ (t : State) (v : Word), Host.Core.run Sys2Proof.core (j + 1) s = .next t ∧ t.status.busy = true ∧
      t.response = some (.readData host 8 v) ∧ v.getLsbD 0 = true := by
  obtain ⟨later, hpolls⟩ : ∃ later,
      s.schedule = List.replicate j (poll s.build host) ++ poll s.build host :: later := by
    have hsplit : List.replicate polls (poll s.build host) =
        List.replicate j (poll s.build host) ++
          poll s.build host :: List.replicate (polls - j - 1) (poll s.build host) := by
      rw [← List.replicate_succ, List.replicate_append_replicate]
      congr 1
      omega
    rw [moveEvents, hturn, hb, waitEvents] at hs
    have hpoll : Event.access host (ldReg s.build .status) = poll s.build host := rfl
    rw [hpoll, if_neg (by simp), if_pos (by simp), hsplit] at hs
    simp only [List.nil_append, List.append_assoc, List.cons_append] at hs
    exact ⟨_, hs⟩
  obtain ⟨u, hu, hustatus, hubuild, hurest⟩ := run_polls hpolls
  rw [← hubuild] at hurest
  obtain ⟨t, v, ht, hstatus, _, _, hresponse, hv⟩ := step_poll hurest
  refine ⟨t, v, ?_, ?_, hresponse, ?_⟩
  · rw [run_add hu, run_one ht]
  · rw [hstatus, hustatus, hb]
  · rw [hv, hustatus, hb]

/-- Settles O60: one lemma for each clause. -/
theorem launchedProgramTracksBusy : Obligations.LaunchedProgramTracksBusy :=
  ⟨fun _ _ _ _ _ _ hs h => launched_access hs h, fun _ _ _ _ _ hs => launched_wait hs,
    fun _ _ _ _ _ _ hs hb hturn hj => launched_poll hs hb hturn hj⟩

end Sys2Proof.Machine
end
